-- ==== Sys2Proof/Word.lean ====
section
/-!
DEFINITION. The words of the block and the small closed types its operands are made of
(spec/00_scope.md R10, spec/30_encoding.md).
-/

namespace Sys2Proof

/-- One byte of the music-data region or one register-write byte (R60, R86). -/
abbrev Byte := BitVec 8

/-- A 32-bit word: the pattern of an `i32` counter, or a `u32` counter (R10, R11). -/
abbrev Word32 := BitVec 32

/-- The bit pattern of an IEEE-754 binary32 value (R12). -/
abbrev F32 := BitVec 32

/-- Chip instance 0 (the source's "PSG #1") or 1 ("PSG #2") (R10). -/
inductive ChipId where
  | c0
  | c1
  deriving DecidableEq, Repr

/-- The `k` of `psg[k]`. -/
def ChipId.index : ChipId → Nat
  | .c0 => 0
  | .c1 => 1

/-- One of the three tone generators of a chip (R22). -/
inductive ToneId where
  | t0
  | t1
  | t2
  deriving DecidableEq, Repr

/-- The `c` of `tone[c]`. -/
def ToneId.index : ToneId → Nat
  | .t0 => 0
  | .t1 => 1
  | .t2 => 2

/-- The noise mode bit of the noise control register: 0 periodic, 1 white (R24). -/
inductive NoiseMode where
  | periodic
  | white
  deriving DecidableEq, Repr

/-- The operand of a command of format `OP_D8` as its handler finds it: the byte after the
opcode, or the end of data in its place (R80, R61). -/
inductive Operand8 where
  | byte (b : Byte)
  | absent
  deriving DecidableEq, Repr

/-- The operand of the command of format `OP_D16` as its handler finds it: the assembled 16-bit
count (R83), the end of data in place of the low half `aa`, or `aa` and then the end of data. -/
inductive Operand16 where
  | word (n : BitVec 16)
  | absent
  | highAbsent (aa : Byte)
  deriving DecidableEq, Repr

/-- The two encoding levels (spec/30_encoding.md): a command of the music-data region, or a
register-write byte arriving at the write port of chip `k`. -/
inductive CodeSpace where
  | command
  | writePort (k : ChipId)
  deriving DecidableEq, Repr

end Sys2Proof
end

