-- ==== Sys2Proof/Config.lean ====
section
/-!
DEFINITION. The parameters of the block (spec/00_scope.md R6; the evaluation of the mixing view,
spec/44_mixing.md R194), the constants the source fixes (R7), which parameter values the block accepts
(R206, R241; spec/93 U8, U9, U2), and the default setting.
The region `DATA`, `LEN` is a parameter too; it is held in `Machine.State` beside the configuration.
-/

namespace Sys2Proof

/-- How the mixing view is evaluated: the configuration field of R194 (log 12). -/
inductive MixEval where
  /-- R194's own evaluation: in index order from +0.0, rounded to binary32 after every addition. -/
  | indexOrder
  /-- Another order of the additions, or a wider accumulator (R194). `merges` lists, for each addition
  in turn, the positions (modulo the number left) of the two accumulators it takes out of the list of
  those left; its sum goes to the front, and an addition not listed takes the first two. The
  accumulator has 24 + `extra` significant bits. -/
  | other (merges : List (Nat × Nat)) (extra : Nat)
  deriving DecidableEq, Repr

/-- The parameters of R6 as the external header reader delivers them, but for `DATA` and `LEN`, and the
evaluation of R194. No rule writes them. `clock` and `srWidth` are integers, so that the values construction turns down
(R206, U8) can be written; `Config.legal` says which parameters a block can have. -/
structure Config where
  /-- `CLOCK`, in Hz, flag bits removed (R8). -/
  clock : Int
  /-- `SR_WIDTH`, the LFSR width. -/
  srWidth : Int
  /-- `FEEDBACK`, the LFSR tap mask. -/
  feedback : BitVec 16
  /-- `FREQ0`, read only where `freq0Applies` is set (R134, D5). -/
  freq0 : Bool
  /-- `OUTPUT_NEG` (R133). -/
  outputNeg : Bool
  /-- `GG_STEREO_OFF` (R146). -/
  ggStereoOff : Bool
  /-- `CKDIV_OFF`: no rule reads it (D6). -/
  ckdivOff : Bool
  /-- `XNOR`: no rule reads it (D6). -/
  xnor : Bool
  /-- `DUAL_CHIP`: one or two chip instances. -/
  dualChip : Bool
  /-- `TOTAL_SAMPLES`. -/
  totalSamples : Word32
  /-- `LOOP_SAMPLES`. -/
  loopSamples : Word32
  /-- `LOOP_OFFSET`, a file offset; 0 means no loop. -/
  loopOffset : Word32
  /-- `DATA_OFFSET`, the file offset of the first command. -/
  dataOffset : Word32
  /-- `VOLTAB`, sixteen binary32 patterns (R121). -/
  voltab : List F32
  /-- `FREQ0_APPLIES` (R134, D5). -/
  freq0Applies : Bool
  /-- The evaluation of the mixing view (R194, D12). -/
  mixing : MixEval
  deriving DecidableEq, Repr

namespace Config

/-- The output sample rate times the internal divider: 44,100 · 16 (R7, R122). -/
def ticksDenominator : Nat := 705600

/-- The largest legal `CLOCK` (R6, D8). -/
def maxClock : Int := 89611200

/-- Column A of R121: in every row the binary32 value nearest to 10^(-i/10), and 0 in the last. -/
def voltabA : List F32 :=
  [0x3F800000, 0x3F4B5918, 0x3F21866C, 0x3F004DCE, 0x3ECBD4B4, 0x3EA1E89B, 0x3E809BCC, 0x3E4C509B,
   0x3E224B06, 0x3E00E9F9, 0x3DCCCCCD, 0x3DA2ADAD, 0x3D813856, 0x3D4D494A, 0x3D231090, 0x00000000]

/-- Column B of R121, the default volume table. -/
def voltabB : List F32 :=
  [0x3F800000, 0x3F4B5918, 0x3F21866B, 0x3F004DCE, 0x3ECBD4B3, 0x3EA1E89A, 0x3E809BCB, 0x3E4C5099,
   0x3E224B05, 0x3E00E9F8, 0x3DCCCCCB, 0x3DA2ADAC, 0x3D813855, 0x3D4D4949, 0x3D23108F, 0x00000000]

/-- Column C of R121. -/
def voltabC : List F32 :=
  [0x3F800000, 0x3F4B5918, 0x3F21866B, 0x3F004DCE, 0x3ECBD4B3, 0x3EA1E89A, 0x3E809BCB, 0x3E4C5098,
   0x3E224B04, 0x3E00E9F7, 0x3DCCCCC9, 0x3DA2ADAA, 0x3D813853, 0x3D4D4945, 0x3D23108B, 0x00000000]

/-- Two non-negative binary32 patterns at most `n` units in the last place apart. -/
def withinUlps (n : Nat) (x y : F32) : Bool :=
  decide (x.toNat ≤ y.toNat + n) && decide (y.toNat ≤ x.toNat + n)

/-- Each entry is below the one before it (for non-negative patterns, as values too). -/
def descending : List F32 → Bool
  | x :: y :: rest => decide (y.toNat < x.toNat) && descending (y :: rest)
  | _ => true

/-- The properties R121 says a model may rely on: sixteen entries, the first 1.0, the last +0.0,
strictly decreasing, and entries 1 to 14 within 5 units in the last place of column A. (Every entry
then lies in [0, 1].) -/
def voltabLegal (v : List F32) : Bool :=
  decide (v.length = 16) && decide (v.head? = some 0x3F800000#32) &&
    decide (v.getLast? = some 0#32) && descending v &&
    (List.zipWith (withinUlps 5) v voltabA).all id

/-- `HAS_LOOP` (R7, R172). -/
def hasLoop (c : Config) : Bool := c.loopOffset != 0#32 && c.loopSamples != 0#32

/-- R206, R241: the one setting construction validates. -/
def widthLegal (c : Config) : Bool := decide (0 < c.srWidth) && decide (c.srWidth ≤ 16)

/-- U8: `CLOCK` in the range of R6. -/
def clockLegal (c : Config) : Bool := decide (0 ≤ c.clock) && decide (c.clock ≤ maxClock)

/-- U9: no negative seek target where a loop is advertised. -/
def loopLegal (c : Config) : Bool := !c.hasLoop || decide (c.dataOffset.toNat ≤ c.loopOffset.toNat)

/-- The parameters a block can be built from. -/
def legal (c : Config) : Bool :=
  c.widthLegal && c.clockLegal && c.loopLegal && voltabLegal c.voltab

/-- `SR_WIDTH` as a count of bits, 1 to 16 where the configuration is legal (R241). -/
def width (c : Config) : Nat := c.srWidth.toNat

/-- `DUAL_CHIP`. -/
def dual (c : Config) : Bool := c.dualChip

/-- `N`, the number of chip instances (R7). -/
def chipCount (c : Config) : Nat := if c.dual then 2 else 1

/-- Entry `i` of `VOLTAB` (R121). -/
def volume (c : Config) (i : BitVec 4) : F32 := c.voltab.getD i.toNat 0#32

/-- The default setting of the spec's vectors (spec/95_test_vectors.md, conventions). -/
def default : Config where
  clock := 3579545
  srWidth := 16
  feedback := 0x0009
  freq0 := true
  outputNeg := false
  ggStereoOff := false
  ckdivOff := false
  xnor := false
  dualChip := false
  totalSamples := 0
  loopSamples := 0
  loopOffset := 0
  dataOffset := 0x40
  voltab := voltabB
  freq0Applies := false
  mixing := .indexOrder

end Config

end Sys2Proof
end

