-- ==== Sys2Proof/Syntax.lean ====
section
/-!
DEFINITION. The instructions: one constructor per row of spec/opcode_table.json. The eight commands
of level 1 carry their operand as the handler finds it; the nine register-write bytes of level 2
carry the chip whose write port the byte arrives at, and every bit of the byte that is not fixed.
-/

namespace Sys2Proof

/-- R81 (level 1) and R87, R88 (level 2). -/
inductive Instr where
  /-- 0x30 `PSGW2 dd` (R143). -/
  | psgw2 (dd : Operand8)
  /-- 0x3F `GGST2 mm` (R145). -/
  | ggst2 (mm : Operand8)
  /-- 0x4F `GGST1 mm` (R144). -/
  | ggst1 (mm : Operand8)
  /-- 0x50 `PSGW1 dd` (R142). -/
  | psgw1 (dd : Operand8)
  /-- 0x61 `WAIT nnnn` (R164). -/
  | wait (n : Operand16)
  /-- 0x62 `WAIT60` (R165). -/
  | wait60
  /-- 0x63 `WAIT50` (R166). -/
  | wait50
  /-- 0x66 `END` (R167). -/
  | endMark
  /-- 1000dddd `T0_FLO d` (R110). -/
  | t0Flo (k : ChipId) (d : BitVec 4)
  /-- 1001dddd `T0_VOL d` (R111). -/
  | t0Vol (k : ChipId) (d : BitVec 4)
  /-- 1010dddd `T1_FLO d` (R112). -/
  | t1Flo (k : ChipId) (d : BitVec 4)
  /-- 1011dddd `T1_VOL d` (R113). -/
  | t1Vol (k : ChipId) (d : BitVec 4)
  /-- 1100dddd `T2_FLO d` (R114). -/
  | t2Flo (k : ChipId) (d : BitVec 4)
  /-- 1101dddd `T2_VOL d` (R115). -/
  | t2Vol (k : ChipId) (d : BitVec 4)
  /-- 1110xmrr `N_CTL d`: `d` holds the ignored bit 3, the mode and the rate (R116, R89). -/
  | nCtl (k : ChipId) (d : BitVec 4)
  /-- 1111dddd `N_VOL d` (R117). -/
  | nVol (k : ChipId) (d : BitVec 4)
  /-- 0xdddddd `DATA d6`: `x` is the ignored bit 6 (R118, R88). -/
  | data (k : ChipId) (x : BitVec 1) (d6 : BitVec 6)
  deriving DecidableEq, Repr

end Sys2Proof
end

