-- ==== Sys2Proof/WellFormed.lean ====
section
/-!
DEFINITION. Which instruction terms are complete: a command is well formed when every operand byte
its format gives it is present (spec/30_encoding.md R80, R82). The widths of the other fields are
in their types.
-/

namespace Sys2Proof

/-- The operand byte is present. -/
def Operand8.present : Operand8 → Bool
  | .byte _ => true
  | .absent => false

/-- Both operand bytes are present. -/
def Operand16.present : Operand16 → Bool
  | .word _ => true
  | .absent => false
  | .highAbsent _ => false

/-- No operand byte is missing (R80). -/
def Instr.wellFormed : Instr → Bool
  | .psgw2 dd => dd.present
  | .ggst2 mm => mm.present
  | .ggst1 mm => mm.present
  | .psgw1 dd => dd.present
  | .wait n => n.present
  | .wait60 => true
  | .wait50 => true
  | .endMark => true
  | .t0Flo _ _ => true
  | .t0Vol _ _ => true
  | .t1Flo _ _ => true
  | .t1Vol _ _ => true
  | .t2Flo _ _ => true
  | .t2Vol _ _ => true
  | .nCtl _ _ => true
  | .nVol _ _ => true
  | .data _ _ _ => true

/-- The encoding level an instruction belongs to (the table's column `space`). -/
def Instr.space : Instr → CodeSpace
  | .psgw2 _ => .command
  | .ggst2 _ => .command
  | .ggst1 _ => .command
  | .psgw1 _ => .command
  | .wait _ => .command
  | .wait60 => .command
  | .wait50 => .command
  | .endMark => .command
  | .t0Flo k _ => .writePort k
  | .t0Vol k _ => .writePort k
  | .t1Flo k _ => .writePort k
  | .t1Vol k _ => .writePort k
  | .t2Flo k _ => .writePort k
  | .t2Vol k _ => .writePort k
  | .nCtl k _ => .writePort k
  | .nVol k _ => .writePort k
  | .data k _ _ => .writePort k

/-- The length in bytes the table gives the row (R82; `length_bytes`). -/
def Instr.lengthBytes : Instr → Nat
  | .psgw2 _ => 2
  | .ggst2 _ => 2
  | .ggst1 _ => 2
  | .psgw1 _ => 2
  | .wait _ => 3
  | .wait60 => 1
  | .wait50 => 1
  | .endMark => 1
  | .t0Flo _ _ => 1
  | .t0Vol _ _ => 1
  | .t1Flo _ _ => 1
  | .t1Vol _ _ => 1
  | .t2Flo _ _ => 1
  | .t2Vol _ _ => 1
  | .nCtl _ _ => 1
  | .nVol _ _ => 1
  | .data _ _ _ => 1

end Sys2Proof
end

