-- ==== Sys2Proof/Decode.lean ====
section
/-!
DEFINITION. The decoder of both encoding levels, total on any bytes, the encoder written from the
same tables (spec/30_encoding.md R80 to R92), and the host's decoder of opcode-table words.
-/

namespace Sys2Proof

/-- Why no instruction can be read. -/
inductive DecodeError where
  /-- There is no byte: the end of data at the opcode position (R162). -/
  | endOfData
  /-- The first byte is none of the eight opcodes (R84, R163). -/
  | unknownOpcode (b : Byte)
  deriving DecidableEq, Repr

/-- The operand of format `OP_D8`, with the bytes after it (R80). -/
def operand8 : List Byte → Operand8 × List Byte
  | [] => (.absent, [])
  | b :: rest => (.byte b, rest)

/-- The operand of format `OP_D16`, low half first (R64, R83), with the bytes after it. -/
def operand16 : List Byte → Operand16 × List Byte
  | [] => (.absent, [])
  | [aa] => (.highAbsent aa, [])
  | aa :: bb :: rest => (.word (bb ++ aa), rest)

/-- The opcode map (R81) applied to an opcode byte and the bytes after it. -/
def decodeCommand (op : Byte) (rest : List Byte) : Except DecodeError (Instr × List Byte) :=
  if op = 0x30#8 then .ok (.psgw2 (operand8 rest).1, (operand8 rest).2)
  else if op = 0x3F#8 then .ok (.ggst2 (operand8 rest).1, (operand8 rest).2)
  else if op = 0x4F#8 then .ok (.ggst1 (operand8 rest).1, (operand8 rest).2)
  else if op = 0x50#8 then .ok (.psgw1 (operand8 rest).1, (operand8 rest).2)
  else if op = 0x61#8 then .ok (.wait (operand16 rest).1, (operand16 rest).2)
  else if op = 0x62#8 then .ok (.wait60, rest)
  else if op = 0x63#8 then .ok (.wait50, rest)
  else if op = 0x66#8 then .ok (.endMark, rest)
  else .error (.unknownOpcode op)

/-- The latch byte that selects register `r` with data bits `d` (R87). -/
def decodeLatch (k : ChipId) (r : BitVec 3) (d : BitVec 4) : Instr :=
  if r = 0#3 then .t0Flo k d
  else if r = 1#3 then .t0Vol k d
  else if r = 2#3 then .t1Flo k d
  else if r = 3#3 then .t1Vol k d
  else if r = 4#3 then .t2Flo k d
  else if r = 5#3 then .t2Vol k d
  else if r = 6#3 then .nCtl k d
  else .nVol k d

/-- A register-write byte at the write port of chip `k`: a latch byte when bit 7 is set, a data byte
when it is clear (R86, R88). All 256 values are legal (R91). -/
def decodeWriteByte (k : ChipId) (val : Byte) : Instr :=
  if val.getLsbD 7 then decodeLatch k (val.extractLsb' 4 3) (val.extractLsb' 0 4)
  else .data k (val.extractLsb' 6 1) (val.extractLsb' 0 6)

/-- Reads one instruction of the given level from bytes, with the bytes after it. -/
def decode (space : CodeSpace) : List Byte → Except DecodeError (Instr × List Byte)
  | [] => .error .endOfData
  | b :: rest =>
    match space with
    | .command => decodeCommand b rest
    | .writePort k => .ok (decodeWriteByte k b, rest)

/-- The bytes of an operand of format `OP_D8`. -/
def Operand8.bytes : Operand8 → List Byte
  | .byte b => [b]
  | .absent => []

/-- The bytes of an operand of format `OP_D16`, low half first (R64). -/
def Operand16.bytes : Operand16 → List Byte
  | .word n => [n.extractLsb' 0 8, n.extractLsb' 8 8]
  | .absent => []
  | .highAbsent aa => [aa]

/-- The bytes of an instruction (R81, R87, R88). -/
def encode : Instr → List Byte
  | .psgw2 dd => 0x30#8 :: dd.bytes
  | .ggst2 mm => 0x3F#8 :: mm.bytes
  | .ggst1 mm => 0x4F#8 :: mm.bytes
  | .psgw1 dd => 0x50#8 :: dd.bytes
  | .wait n => 0x61#8 :: n.bytes
  | .wait60 => [0x62#8]
  | .wait50 => [0x63#8]
  | .endMark => [0x66#8]
  | .t0Flo _ d => [8#4 ++ d]
  | .t0Vol _ d => [9#4 ++ d]
  | .t1Flo _ d => [10#4 ++ d]
  | .t1Vol _ d => [11#4 ++ d]
  | .t2Flo _ d => [12#4 ++ d]
  | .t2Vol _ d => [13#4 ++ d]
  | .nCtl _ d => [14#4 ++ d]
  | .nVol _ d => [15#4 ++ d]
  | .data _ x d6 => [0#1 ++ x ++ d6]

/-- The command that delivers a register-write byte to chip `k` (R63, R142, R143). -/
def writeOpcode : ChipId → Byte
  | .c0 => 0x50#8
  | .c1 => 0x30#8

/-- The bytes that make the block run an instruction as a command of the region: its own encoding,
for a register-write byte behind the opcode of the command that delivers it. -/
def commandBytes (i : Instr) : List Byte :=
  match i.space with
  | .command => encode i
  | .writePort k => writeOpcode k :: encode i

/-- The first `n` bytes of a table word, bits 7..0 first. -/
def wordBytes (n w : Nat) : List Byte :=
  (List.range n).map fun j => BitVec.ofNat 8 (w >>> (8 * j))

/-- The bytes of an opcode-table word of `nbits` bits, and zeros above them up to the longest
command (three bytes, R80). -/
def tableBytes (nbits w : Nat) : List Byte :=
  wordBytes ((nbits + 7) / 8) w ++ List.replicate (3 - (nbits + 7) / 8) 0#8

/-- The instruction the decoder reads from an opcode-table word: a command where the first byte is
one of the eight opcodes, and otherwise, for a word of one byte, the register-write byte at the
write port of chip 0 (the table's two spaces share the byte values; log 6). -/
def decodeTableWord (nbits w : Nat) : Option Instr :=
  match decode .command (tableBytes nbits w) with
  | .ok (i, _) => some i
  | .error _ => if nbits ≤ 8 then some (decodeWriteByte .c0 (BitVec.ofNat 8 w)) else none

end Sys2Proof
end

