-- ==== Sys2Proof/Machine/State.lean ====
section
/-!
DEFINITION. The state of the block as plain data (spec/10_state.md), the errors it raises
(spec/60_exceptions.md R200), the ways a step can stop, and the state after reset (R51, R240).
-/

namespace Sys2Proof.Machine

/-- The seven error kinds, identified by name, with the byte R200 records for two of them. -/
inductive Error where
  /-- R201: raised by `PSGW1`, `PSGW2`, `GGST1`, `GGST2` when the operand is missing. -/
  | prematureEOF
  /-- R202: raised by `WAIT` when `aa` or `bb` is missing. -/
  | malformedWait
  /-- R203: raised by `next()` at an opcode byte with no handler. -/
  | unknownOpcode (b : Byte)
  /-- R204: raised by `PSGW2`, `GGST2` when `DUAL_CHIP` is false. -/
  | dualChipDisabled
  /-- R205: raised by `next()` after the end of the stream; it changes no state. -/
  | alreadyEnded
  /-- R206: raised at construction when `SR_WIDTH` is out of range. -/
  | invalidSetting
  /-- R207: raised by `install` when an opcode is already registered. -/
  | duplicateHandler (b : Byte)
  deriving DecidableEq, Repr

/-- The ways a call ends with an error and no next state. (An error raised inside a transaction is
taken as a next state whose `fault` is set: `State.raise`.) -/
inductive Fault where
  /-- `step` on a state whose `endOfStream` is set: the caller is told AlreadyEnded and the state
  stays as it is (R205). Safe: the machine has no further behaviour there but this one. -/
  | alreadyEnded
  /-- `step` on a state whose `fault` is set: no transaction is defined there (R212, R253). Safe. -/
  | noTransaction (e : Error)
  /-- `construct`, and `step` on a state, with `SR_WIDTH` out of range: no block exists (R206, R241).
  Safe. -/
  | invalidSetting
  /-- `install` of a handle one of whose opcodes is registered: nothing is registered (R207). Safe. -/
  | duplicateHandler (b : Byte)
  deriving DecidableEq, Repr

/-- What the model declines, by name. -/
inductive Refusal where
  /-- An instruction with no meaning yet; raised by `exec`'s refused arms only. Safe. -/
  | notModelled (mnemonic : String)
  /-- `construct`, and `step` on a state, with `CLOCK` outside 0 to 89,611,200 (U8). Safe. -/
  | clockOutOfRange
  /-- `construct`, `step` on a state, and the stream-end routine, with a loop advertised and
  `LOOP_OFFSET` < `DATA_OFFSET` (U9). Safe. -/
  | negativeLoopTarget
  /-- `construct`, and `step` on a state, with a volume table without the properties of R121 (U2).
  Safe. -/
  | volumeTable
  /-- `install` on a dispatcher whose `next()` has been called (U5, R251). Safe. -/
  | lateInstall
  /-- `Session.next` on a dispatcher whose emulator list is not the driver alone (R243, D17). Safe. -/
  | otherHandles
  /-- `hostCall .reenter`: the sample callback re-entering the dispatcher (U6, R250). Safe. -/
  | reentry
  /-- `hostCall .qualityMode`: the "quality" update path (R5, U4). Safe. -/
  | qualityMode
  /-- `hostCall .advanceClock`: the `AdvanceClock` operation (R5, U10). Safe. -/
  | advanceClock
  /-- `hostCall .timestamp`: the context's `timestamp`, which has no value (R168, U12). Safe. -/
  | timestampUndefined
  deriving DecidableEq, Repr

/-- The music-data region `DATA[0..LEN-1]` (R60): `len` bytes, each 0x00 unless `cells` lists it.
`cells` is held in the canonical form `Region.wf` of Machine/Ops.lean. -/
structure Region where
  cells : List Host.Cell
  len : Nat
  deriving DecidableEq, Repr

/-- Four binary32 values: tones 0 to 2 and noise (R34, R36). -/
structure Quad where
  ch0 : F32
  ch1 : F32
  ch2 : F32
  ch3 : F32
  deriving DecidableEq, Repr

/-- One tone channel: its registers (R22, R23) and its generator (R28 to R30). -/
structure Tone where
  freq : BitVec 10
  volume : BitVec 4
  count : Word32
  edge : Bool
  mute : Bool
  deriving DecidableEq, Repr

/-- One PSG chip instance (R21 to R34). -/
structure Chip where
  tone0 : Tone
  tone1 : Tone
  tone2 : Tone
  noiseMode : NoiseMode
  noiseRef : Bool
  noiseFreq : BitVec 16
  noiseVolume : BitVec 4
  adr : BitVec 3
  noiseCount : Word32
  noiseSeed : BitVec 16
  baseCount : Word32
  channels : Quad
  deriving DecidableEq, Repr

/-- What the driver holds for one chip: its stereo mask (R35) and its four entries of the arrays
`left` and `right` (R36). -/
structure Port where
  ggStereo : Byte
  left : Quad
  right : Quad
  deriving DecidableEq, Repr

/-- One sample event: what the host can read during the callback (R170, R168). -/
structure Event where
  position : Word32
  samplesPlayed : Word32
  loopsPlayed : Word32
  left : List F32
  right : List F32
  deriving DecidableEq, Repr

/-- The state of the block (R20). `cfg` and `region` are its parameters (R6, R60): no rule writes
them. `psg1` and `port1` belong to the block only when `DUAL_CHIP` is set; otherwise no operation
reads or writes them. -/
structure State where
  cfg : Config
  region : Region
  psg0 : Chip
  psg1 : Chip
  port0 : Port
  port1 : Port
  pc : Nat
  position : Word32
  samplesPlayed : Word32
  loopsPlayed : Word32
  endOfStream : Bool
  fault : Option Error
  trace : List Event
  deriving DecidableEq, Repr

/-- Four times +0.0. -/
def Quad.zero : Quad := ⟨0, 0, 0, 0⟩

/-- A tone channel after construction (R51). -/
def Tone.reset : Tone where
  freq := 0
  volume := 15
  count := 0
  edge := false
  mute := false

/-- A chip after construction (R51); the seed is `1 << (SR_WIDTH - 1)` (R32). -/
def Chip.reset (c : Config) : Chip where
  tone0 := Tone.reset
  tone1 := Tone.reset
  tone2 := Tone.reset
  noiseMode := .periodic
  noiseRef := false
  noiseFreq := 32
  noiseVolume := 15
  adr := 0
  noiseCount := 0
  noiseSeed := 1#16 <<< (c.width - 1)
  baseCount := 0
  channels := Quad.zero

/-- The driver's part for one chip after construction (R51). -/
def Port.reset : Port where
  ggStereo := 0xFF
  left := Quad.zero
  right := Quad.zero

/-- The block after construction from a configuration and a region (R240, R51). -/
def State.initial (c : Config) (r : Region) : State where
  cfg := c
  region := r
  psg0 := Chip.reset c
  psg1 := Chip.reset c
  port0 := Port.reset
  port1 := Port.reset
  pc := 0
  position := 0
  samplesPlayed := 0
  loopsPlayed := 0
  endOfStream := false
  fault := none
  trace := []

/-- Reset is construction (R240). The parameters are the default setting of the spec's vectors
(log 2) and the region is empty: no program stands in it (log 1, log 6). -/
def State.reset : State := State.initial Config.default ⟨[], 0⟩

end Sys2Proof.Machine
end

