-- ==== Sys2Proof/Machine/Ops.lean ====
section
/-!
DEFINITION. The named operations over the region, the chips and the cursor: the read primitive
`Fetch` (spec/20_memory.md R61), access to a chip, a tone and a port, and the taking of an error
(spec/60_exceptions.md R211, R212).
-/

namespace Sys2Proof.Machine

/-- What a transaction answers. -/
abbrev Result := Host.Outcome State Fault Refusal

/-! ### Parameters no block has -/

/-- What stops a block with these parameters from existing: InvalidSetting for a width out of range
(R206, R241), and a refusal by name for the configurations a model refuses (U8, U9, U2). -/
def configStop (c : Config) : Option Result :=
  if !c.widthLegal then some (.fault .invalidSetting)
  else if !c.clockLegal then some (.refused .clockOutOfRange)
  else if !c.loopLegal then some (.refused .negativeLoopTarget)
  else if !Config.voltabLegal c.voltab then some (.refused .volumeTable)
  else none

/-! ### The music-data region -/

/-- The byte listed at an address, 0x00 where none is (log 1). -/
def cellsGet : List Host.Cell → Nat → Byte
  | [], _ => 0
  | (a, b) :: rest, x => if a = x then b else cellsGet rest x

/-- Sets the byte at an address, keeping the cells sorted and 0x00 unlisted. -/
def cellsSet : List Host.Cell → Nat → Byte → List Host.Cell
  | [], x, v => if v = 0 then [] else [(x, v)]
  | (a, b) :: rest, x, v =>
    if a < x then (a, b) :: cellsSet rest x v
    else if a = x then (if v = 0 then rest else (x, v) :: rest)
    else (if v = 0 then (a, b) :: rest else (x, v) :: (a, b) :: rest)

/-- Addresses rise strictly from `lo`, stay below `hi`, and no listed byte is 0x00. -/
def cellsWf (hi : Nat) : Nat → List Host.Cell → Bool
  | _, [] => true
  | lo, (a, b) :: rest => decide (lo ≤ a) && decide (a < hi) && b != 0 && cellsWf hi (a + 1) rest

/-- The canonical form of a region. -/
def Region.wf (r : Region) : Bool := cellsWf r.len 0 r.cells

/-- `MemRead(a, 1)` where `a` < `LEN`, nothing otherwise (R10, R61). -/
def Region.read (r : Region) (a : Nat) : Option Byte :=
  if a < r.len then some (cellsGet r.cells a) else none

/-- The region with one byte replaced, or added behind its end (bytes between are 0x00). Only the
host's loading of a region uses it: the block never writes the region (R60). -/
def Region.put (r : Region) (a : Nat) (v : Byte) : Region where
  cells := cellsSet r.cells a v
  len := max r.len (a + 1)

/-- The region with bytes laid out from address `a` on. -/
def Region.place (r : Region) (a : Nat) : List Byte → Region
  | [] => r
  | b :: rest => (r.put a b).place (a + 1) rest

/-- The region that holds exactly these bytes (R60). -/
def Region.ofBytes (bs : List Byte) : Region := Region.place ⟨[], 0⟩ 0 bs

/-! ### The cursor -/

/-- The cursor moved forward over `n` fetched bytes (R40, R61). -/
def State.consume (s : State) (n : Nat) : State := { s with pc := s.pc + n }

/-- `Fetch()` (R61): the byte at `pc`, and the cursor behind it; at the end of data nothing, and the
cursor where it was. -/
def State.fetch (s : State) : Option Byte × State :=
  match s.region.read s.pc with
  | some b => (some b, s.consume 1)
  | none => (none, s)

/-- The bytes at most `n` successive `Fetch()` give before the end of data. -/
def State.lookahead : Nat → State → List Byte
  | 0, _ => []
  | n + 1, s =>
    match s.fetch with
    | (some b, s') => b :: s'.lookahead n
    | (none, _) => []

/-- The command at the cursor: an opcode and its operands are at most three bytes (R80). -/
def fetchInstr (s : State) : Except DecodeError (Instr × List Byte) :=
  decode .command (s.lookahead 3)

/-- The seek of R62. -/
def State.seek (s : State) (t : Nat) : State := { s with pc := t }

/-! ### Errors -/

/-- `raise`: the transaction ends with the error, earlier writes stand, and `fault` holds the error
from then on (R10, R211, R212). No vector, no saved register, no return (R213). -/
def State.raise (s : State) (e : Error) : State := { s with fault := some e }

/-! ### Chips, tones and ports -/

/-- Chip `k` exists: always for 0, and for 1 when `DUAL_CHIP` is set (R7, R20). -/
def State.present (s : State) : ChipId → Bool
  | .c0 => true
  | .c1 => s.cfg.dual

/-- `psg[k]`. -/
def State.chip (s : State) : ChipId → Chip
  | .c0 => s.psg0
  | .c1 => s.psg1

/-- `psg[k] <- c`. -/
def State.setChip (s : State) (k : ChipId) (c : Chip) : State :=
  match k with
  | .c0 => { s with psg0 := c }
  | .c1 => { s with psg1 := c }

/-- The driver's part for chip `k` (R35, R36). -/
def State.port (s : State) : ChipId → Port
  | .c0 => s.port0
  | .c1 => s.port1

/-- Replaces the driver's part for chip `k`. -/
def State.setPort (s : State) (k : ChipId) (p : Port) : State :=
  match k with
  | .c0 => { s with port0 := p }
  | .c1 => { s with port1 := p }

/-- Replaces a tone's `freq` register (R22). -/
def Tone.withFreq (t : Tone) (f : BitVec 10) : Tone := { t with freq := f }

/-- Replaces a tone's `volume` register (R23). -/
def Tone.withVolume (t : Tone) (v : BitVec 4) : Tone := { t with volume := v }

/-- Replaces a tone's generator state (R28, R29). -/
def Tone.withRun (t : Tone) (count : Word32) (edge : Bool) : Tone :=
  { t with count := count, edge := edge }

/-- Replaces `adr` (R26). -/
def Chip.withAdr (c : Chip) (r : BitVec 3) : Chip := { c with adr := r }

/-- Replaces `noise_volume` (R25). -/
def Chip.withNoiseVolume (c : Chip) (v : BitVec 4) : Chip := { c with noiseVolume := v }

/-- Replaces the decoded noise control register (R24). -/
def Chip.withNoiseControl (c : Chip) (m : NoiseMode) (ref : Bool) (f : BitVec 16) : Chip :=
  { c with noiseMode := m, noiseRef := ref, noiseFreq := f }

/-- Replaces `noise_seed` (R32). -/
def Chip.withSeed (c : Chip) (v : BitVec 16) : Chip := { c with noiseSeed := v }

/-- Replaces `noise_count` (R31). -/
def Chip.withNoiseCount (c : Chip) (v : Word32) : Chip := { c with noiseCount := v }

/-- Replaces `base_count` (R33). -/
def Chip.withBase (c : Chip) (v : Word32) : Chip := { c with baseCount := v }

/-- Replaces `channels` (R34). -/
def Chip.withChannels (c : Chip) (q : Quad) : Chip := { c with channels := q }

/-- `tone[c]`. -/
def Chip.tone (c : Chip) : ToneId → Tone
  | .t0 => c.tone0
  | .t1 => c.tone1
  | .t2 => c.tone2

/-- `tone[c] <- t`. -/
def Chip.setTone (c : Chip) (i : ToneId) (t : Tone) : Chip :=
  match i with
  | .t0 => { c with tone0 := t }
  | .t1 => { c with tone1 := t }
  | .t2 => { c with tone2 := t }

/-- `channels[c]` for a tone channel. -/
def Quad.tone (q : Quad) : ToneId → F32
  | .t0 => q.ch0
  | .t1 => q.ch1
  | .t2 => q.ch2

/-- `channels[c] <- v` for a tone channel. -/
def Quad.setTone (q : Quad) (i : ToneId) (v : F32) : Quad :=
  match i with
  | .t0 => { q with ch0 := v }
  | .t1 => { q with ch1 := v }
  | .t2 => { q with ch2 := v }

/-- `channels[3] <- v` (R127). -/
def Quad.setNoise (q : Quad) (v : F32) : Quad := { q with ch3 := v }

/-- The four entries in channel order. -/
def Quad.toList (q : Quad) : List F32 := [q.ch0, q.ch1, q.ch2, q.ch3]

/-- Replaces the stereo mask (R35). -/
def Port.withMask (p : Port) (mm : Byte) : Port := { p with ggStereo := mm }

/-- Replaces the entries of `left` and `right` (R36). -/
def Port.withSides (p : Port) (l r : Quad) : Port := { p with left := l, right := r }

/-- A register write to chip `k`: the new chip replaces the old one; where the chip does not exist
the driver's DualChipDisabled is raised (R143; log 5). -/
def writeChip (k : ChipId) (c : Chip) (s : State) : Result :=
  if s.present k then .next (s.setChip k c) else .next (s.raise .dualChipDisabled)

/-! ### The output arrays -/

/-- `left_channels` (R149): 4·N entries, entry `4k + j` is channel `j` of chip `k`. -/
def leftChannels (s : State) : List F32 :=
  s.port0.left.toList ++ (if s.cfg.dual then s.port1.left.toList else [])

/-- `right_channels` (R149). -/
def rightChannels (s : State) : List F32 :=
  s.port0.right.toList ++ (if s.cfg.dual then s.port1.right.toList else [])

end Sys2Proof.Machine
end

