-- ==== Sys2Proof/Machine/Flags.lean ====
section
/-!
DEFINITION. The one-bit conditions of the block: the counter tests of the generators, the LFSR
parity, the tone flag `edge`, and the dispatcher's predicates (spec/41_psg_advance.md R124, R125,
R130; spec/10_state.md R44, R49).
-/

namespace Sys2Proof.Machine

/-- `bits32(v) & 0x100` is not zero: the noise generator's test (R124). -/
def noiseDue (v : Word32) : Bool := v.getLsbD 8

/-- `bits32(v) & 0x400` is not zero: the tone generator's test (R130). -/
def toneDue (v : Word32) : Bool := v.getLsbD 10

/-- `parity(v)`: the xor of all bits (R10). -/
def parity (v : BitVec 16) : Bool :=
  (List.range 16).foldl (fun p i => p ^^ v.getLsbD i) false

/-- The period the tone generator of R130 subtracts, 11 bits wide: `freq`, or 0x400 where
`FREQ0_APPLIES` and `FREQ0` are set and `freq` is 0 (R134, D5). -/
def tonePeriod (c : Config) (freq : BitVec 10) : BitVec 11 :=
  if c.freq0Applies && c.freq0 && freq == 0 then 0x400 else freq.setWidth 11

/-- The new `edge` when the counter's bit 10 is set: toggled for a period above 1, forced true
otherwise (R130). -/
def nextEdge (period : BitVec 11) (edge : Bool) : Bool := if 1 < period.toNat then !edge else true

/-- The dispatcher is `Running` (R44, R160). -/
def running (s : State) : Bool := !s.endOfStream

/-- `playing_loop` (R49), with the `u32` subtraction of R172. -/
def playingLoop (s : State) : Bool :=
  s.cfg.hasLoop &&
    decide ((s.cfg.totalSamples - s.cfg.loopSamples).toNat ≤ s.position.toNat)

end Sys2Proof.Machine
end

