-- ==== Sys2Proof/Machine/PsgWrite.lean ====
section
/-!
DEFINITION. PSG register writes (spec/40_psg_write.md): the operations on one chip (the address latch
of R101 is `Chip.withAdr`), the meanings of the nine register-write byte forms, and `PSG.write`
(R100). None of them moves the cursor: the byte has been fetched by the command that delivers it.
-/

namespace Sys2Proof.Machine

/-! ### Operations on one chip -/

/-- R102: `freq <- (freq & 0x3F0) | d`. -/
def freqLow (f : BitVec 10) (d : BitVec 4) : BitVec 10 := (f &&& 0x3F0#10) ||| d.setWidth 10

/-- R108: `freq <- (d6 << 4) | (freq & 0x0F)`. -/
def freqHigh (f : BitVec 10) (d6 : BitVec 6) : BitVec 10 :=
  (d6.setWidth 10 <<< 4) ||| (f &&& 0x00F#10)

/-- R102 on channel `i`. -/
def Chip.writeFreqLow (c : Chip) (i : ToneId) (d : BitVec 4) : Chip :=
  c.setTone i ((c.tone i).withFreq (freqLow (c.tone i).freq d))

/-- R103 on channel `i`. -/
def Chip.writeVolume (c : Chip) (i : ToneId) (d : BitVec 4) : Chip :=
  c.setTone i ((c.tone i).withVolume d)

/-- The reload value of the LFSR, `1 << (SR_WIDTH - 1)` (R104, R32). -/
def seedReload (cfg : Config) : BitVec 16 := 1#16 <<< (cfg.width - 1)

/-- The noise period a control write stores: `32 << rate` for rates 0 to 2, a copy of `tone[2].freq`
for rate 3, and 1 in place of 0 (R104). -/
def noiseFreqOf (rate : BitVec 2) (tone2 : BitVec 10) : BitVec 16 :=
  let f : BitVec 16 := if rate = 3#2 then tone2.setWidth 16 else 32#16 <<< rate.toNat
  if f = 0 then 1 else f

/-- R104; bit 3 of `d` is ignored (R89). -/
def Chip.writeNoiseControl (cfg : Config) (c : Chip) (d : BitVec 4) : Chip :=
  (c.withNoiseControl (if d.getLsbD 2 then .white else .periodic) (d.extractLsb' 0 2 == 3#2)
    (noiseFreqOf (d.extractLsb' 0 2) c.tone2.freq)).withSeed (seedReload cfg)

/-- The tone channel a data byte addresses: `floor(adr / 2)`, none for `adr` 6 and 7 (R108, R109). -/
def dataTone (adr : BitVec 3) : Option ToneId :=
  match adr.toNat / 2 with
  | 0 => some .t0
  | 1 => some .t1
  | 2 => some .t2
  | _ => none

/-- R108 and R109. -/
def Chip.writeData (c : Chip) (d6 : BitVec 6) : Chip :=
  match dataTone c.adr with
  | some i => c.setTone i ((c.tone i).withFreq (freqHigh (c.tone i).freq d6))
  | none => c

/-! ### The nine forms -/

/-- `T0_FLO d` (R110). -/
def execT0Flo (k : ChipId) (d : BitVec 4) (s : State) : Result :=
  writeChip k (((s.chip k).withAdr 0).writeFreqLow .t0 d) s

/-- `T0_VOL d` (R111). -/
def execT0Vol (k : ChipId) (d : BitVec 4) (s : State) : Result :=
  writeChip k (((s.chip k).withAdr 1).writeVolume .t0 d) s

/-- `T1_FLO d` (R112). -/
def execT1Flo (k : ChipId) (d : BitVec 4) (s : State) : Result :=
  writeChip k (((s.chip k).withAdr 2).writeFreqLow .t1 d) s

/-- `T1_VOL d` (R113). -/
def execT1Vol (k : ChipId) (d : BitVec 4) (s : State) : Result :=
  writeChip k (((s.chip k).withAdr 3).writeVolume .t1 d) s

/-- `T2_FLO d` (R114). -/
def execT2Flo (k : ChipId) (d : BitVec 4) (s : State) : Result :=
  writeChip k (((s.chip k).withAdr 4).writeFreqLow .t2 d) s

/-- `T2_VOL d` (R115). -/
def execT2Vol (k : ChipId) (d : BitVec 4) (s : State) : Result :=
  writeChip k (((s.chip k).withAdr 5).writeVolume .t2 d) s

/-- `N_CTL d` (R116). -/
def execNCtl (k : ChipId) (d : BitVec 4) (s : State) : Result :=
  writeChip k (((s.chip k).withAdr 6).writeNoiseControl s.cfg d) s

/-- `N_VOL d` (R117). -/
def execNVol (k : ChipId) (d : BitVec 4) (s : State) : Result :=
  writeChip k (((s.chip k).withAdr 7).withNoiseVolume d) s

/-- `DATA d6` (R118); the ignored bit 6 is `_x` (R88). -/
def execData (k : ChipId) (_x : BitVec 1) (d6 : BitVec 6) (s : State) : Result :=
  writeChip k ((s.chip k).writeData d6) s

/-! ### `PSG.write` -/

/-- The latch byte that selects register `r` (R100, first branch). -/
def psgLatch (k : ChipId) (r : BitVec 3) (d : BitVec 4) (s : State) : Result :=
  if r = 0#3 then execT0Flo k d s
  else if r = 1#3 then execT0Vol k d s
  else if r = 2#3 then execT1Flo k d s
  else if r = 3#3 then execT1Vol k d s
  else if r = 4#3 then execT2Flo k d s
  else if r = 5#3 then execT2Vol k d s
  else if r = 6#3 then execNCtl k d s
  else execNVol k d s

/-- `PSG.write(k, val)` (R100). -/
def psgWrite (k : ChipId) (val : Byte) (s : State) : Result :=
  if val.getLsbD 7 then psgLatch k ((val >>> 4).setWidth 3) (val.setWidth 4) s
  else execData k (val.extractLsb' 6 1) (val.setWidth 6) s

end Sys2Proof.Machine
end

