-- ==== Sys2Proof/Machine/Advance.lean ====
section
/-!
DEFINITION. `PSG.advance`, one output sample of one chip (spec/41_psg_advance.md R120 to R134): rate
converter, noise generator and output, tone generators and outputs, and `PSG.channels` (R135).
`i32` arithmetic is `Word32` arithmetic (`wrap32s`, R11).
-/

namespace Sys2Proof.Machine

/-- `BASE_INCR` (R122), an exact quotient of natural numbers. (The factor 2^24 stands first, so that
unfolding this with `CLOCK` unknown stops at once.) -/
def baseIncr (c : Config) : Nat := 2 ^ 24 * c.clock.toNat / Config.ticksDenominator

/-! ### Rate converter -/

/-- The accumulator after the addition of `BASE_INCR` (R123). -/
def rateSum (cfg : Config) (c : Chip) : Word32 := c.baseCount + BitVec.ofNat 32 (baseIncr cfg)

/-- The ticks credited to this sample: `t >> 24` (R123). -/
def tickCount (cfg : Config) (c : Chip) : Word32 := (rateSum cfg c).sshiftRight 24

/-- R123: the fractional part is kept. -/
def Chip.rateStep (cfg : Config) (c : Chip) : Chip :=
  c.withBase (rateSum cfg c &&& 0xFFFFFF#32)

/-! ### Noise generator -/

/-- `LfsrStep(s)` (R125, D24 for width 1). -/
def lfsrStep (cfg : Config) (mode : NoiseMode) (seed : BitVec 16) : BitVec 16 :=
  if cfg.width ≤ 1 then 1
  else
    let fb : Bool :=
      match mode with
      | .white => parity (seed &&& cfg.feedback)
      | .periodic => seed.getLsbD 0
    (seed >>> 1) ||| ((BitVec.ofBool fb).setWidth 16 <<< (cfg.width - 1))

/-- The period the noise generator subtracts: the live `tone[2].freq`, or `noise_freq` (R126). -/
def noisePeriod (c : Chip) : Word32 :=
  if c.noiseRef then c.tone2.freq.setWidth 32 else c.noiseFreq.setWidth 32

/-- `noise_count` after the addition (R124). -/
def noiseSum (incr : Word32) (c : Chip) : Word32 := c.noiseCount + incr

/-- R124: at most one shift per sample (R128). -/
def Chip.noiseStep (cfg : Config) (incr : Word32) (c : Chip) : Chip :=
  if noiseDue (noiseSum incr c) then
    (c.withSeed (lfsrStep cfg c.noiseMode c.noiseSeed)).withNoiseCount
      (noiseSum incr c - noisePeriod c)
  else c.withNoiseCount (noiseSum incr c)

/-! ### Outputs -/

/-- The sign bit of a product with -1.0: the magnitude is kept, the sign flipped (R12). -/
def negF32 (x : F32) : F32 := x ^^^ 0x80000000#32

/-- `(if up then +1.0 else -1.0) · v · sign`, with `sign` of R133: exact (R12). -/
def outputLevel (cfg : Config) (up : Bool) (v : F32) : F32 :=
  let x := if up then v else negF32 v
  if cfg.outputNeg then negF32 x else x

/-- `channels[3]` (R127). -/
def noiseLevel (cfg : Config) (c : Chip) : F32 :=
  outputLevel cfg (c.noiseSeed.getLsbD 0) (cfg.volume c.noiseVolume)

/-- R127. -/
def Chip.noiseOutput (cfg : Config) (c : Chip) : Chip :=
  c.withChannels (c.channels.setNoise (noiseLevel cfg c))

/-! ### Tone generators -/

/-- `tone[c].count` after the addition (R130). -/
def toneSum (incr : Word32) (t : Tone) : Word32 := t.count + incr

/-- `tone[c].count` after a due event: the period is subtracted when it is above 1 (R130). -/
def afterEvent (period : BitVec 11) (n : Word32) : Word32 :=
  if 1 < period.toNat then n - period.setWidth 32 else n

/-- R130: at most one edge per sample (R128). -/
def Tone.step (cfg : Config) (incr : Word32) (t : Tone) : Tone :=
  if toneDue (toneSum incr t) then
    t.withRun (afterEvent (tonePeriod cfg t.freq) (toneSum incr t))
      (nextEdge (tonePeriod cfg t.freq) t.edge)
  else t.withRun (toneSum incr t) t.edge

/-- R132; a muted channel is +0.0 (D11). -/
def toneLevel (cfg : Config) (t : Tone) : F32 :=
  if t.mute then 0 else outputLevel cfg t.edge (cfg.volume t.volume)

/-- R130 and R132 for channel `i`. -/
def Chip.toneStep (cfg : Config) (incr : Word32) (i : ToneId) (c : Chip) : Chip :=
  (c.setTone i ((c.tone i).step cfg incr)).withChannels
    (c.channels.setTone i (toneLevel cfg ((c.tone i).step cfg incr)))

/-! ### The sample -/

/-- The rate converter and the noise channel (R120, first half). -/
def Chip.noisePart (cfg : Config) (c : Chip) : Chip :=
  ((c.rateStep cfg).noiseStep cfg (tickCount cfg c)).noiseOutput cfg

/-- The three tone channels, in order (R120, second half). -/
def Chip.tonePart (cfg : Config) (incr : Word32) (c : Chip) : Chip :=
  ((c.toneStep cfg incr .t0).toneStep cfg incr .t1).toneStep cfg incr .t2

/-- `PSG.advance` (R120). The same ticks are credited to all four generators. -/
def Chip.advance (cfg : Config) (c : Chip) : Chip :=
  (c.noisePart cfg).tonePart cfg (tickCount cfg c)

/-- `PSG.channels` (R135). -/
def psgChannels (k : ChipId) (s : State) : List F32 := (s.chip k).channels.toList

end Sys2Proof.Machine
end

