-- ==== Sys2Proof/Machine/Operands.lean ====
section
/-!
DEFINITION. How a handler consumes the operand of its command, and what it raises where a byte is
missing (spec/30_encoding.md R80, R82, R83; spec/60_exceptions.md R201, R202). A handler starts
with the cursor just past the opcode (spec/43_dispatcher.md R161).
-/

namespace Sys2Proof.Machine

/-- The operand of format `OP_D8`: consumes one byte, or raises PrematureEOF with the cursor where
it is (R201). -/
def withByte (o : Operand8) (s : State) (k : Byte → State → Result) : Result :=
  match o with
  | .byte b => k b (s.consume 1)
  | .absent => .next (s.raise .prematureEOF)

/-- The operand of format `OP_D16`: consumes two bytes, or raises MalformedWait behind the bytes
that were there (R202, R211). -/
def withWord (o : Operand16) (s : State) (k : BitVec 16 → State → Result) : Result :=
  match o with
  | .word n => k n (s.consume 2)
  | .absent => .next (s.raise .malformedWait)
  | .highAbsent _ => .next ((s.consume 1).raise .malformedWait)

end Sys2Proof.Machine
end

