-- ==== Sys2Proof/Machine/Driver.lean ====
section
/-!
DEFINITION. The PSG driver (spec/42_psg_driver.md): stereo gating, `advance_sample`, and the
meanings of its four commands.
-/

namespace Sys2Proof.Machine

/-! ### Advancing and gating -/

/-- One entry of `left` or `right`: the channel bit for bit, or +0.0 (R148). -/
def gated (pass : Bool) (v : F32) : F32 := if pass then v else 0

/-- Four entries, passed where bits `lo` to `lo + 3` of the mask are set. -/
def gatedQuad (mask : Byte) (lo : Nat) (q : Quad) : Quad where
  ch0 := gated (mask.getLsbD lo) q.ch0
  ch1 := gated (mask.getLsbD (lo + 1)) q.ch1
  ch2 := gated (mask.getLsbD (lo + 2)) q.ch2
  ch3 := gated (mask.getLsbD (lo + 3)) q.ch3

/-- `Gate(k)` (R148): bits 3:0 of the mask gate the right side, bits 7:4 the left side (R92). -/
def gate (k : ChipId) (s : State) : State :=
  s.setPort k ((s.port k).withSides (gatedQuad (s.port k).ggStereo 4 (s.chip k).channels)
    (gatedQuad (s.port k).ggStereo 0 (s.chip k).channels))

/-- `PSG.advance(k)` and `Gate(k)` (R147). -/
def advanceChip (k : ChipId) (s : State) : State :=
  gate k (s.setChip k ((s.chip k).advance s.cfg))

/-- One round of R147: every chip that exists, in order. -/
def driverSample (s : State) : State :=
  if s.cfg.dual then advanceChip .c1 (advanceChip .c0 s) else advanceChip .c0 s

/-- `Driver.advance_sample(n)` (R147). -/
def driverAdvance : Nat → State → State
  | 0, s => s
  | n + 1, s => driverAdvance n (driverSample s)

/-! ### The four commands -/

/-- R144, R145: the mask is stored unless `GG_STEREO_OFF` is set (R146). -/
def setMask (k : ChipId) (mm : Byte) (s : State) : State :=
  if s.cfg.ggStereoOff then s else s.setPort k ((s.port k).withMask mm)

/-- The check of R143 and R145, made before any operand is read. -/
def requireDual (s : State) (r : Result) : Result :=
  if s.cfg.dual then r else .next (s.raise .dualChipDisabled)

/-- `PSGW1 dd` (R142). -/
def execPsgw1 (dd : Operand8) (s : State) : Result := withByte dd s (psgWrite .c0)

/-- `PSGW2 dd` (R143). -/
def execPsgw2 (dd : Operand8) (s : State) : Result :=
  requireDual s (withByte dd s (psgWrite .c1))

/-- `GGST1 mm` (R144). -/
def execGgst1 (mm : Operand8) (s : State) : Result :=
  withByte mm s fun m s' => .next (setMask .c0 m s')

/-- `GGST2 mm` (R145). -/
def execGgst2 (mm : Operand8) (s : State) : Result :=
  requireDual s (withByte mm s fun m s' => .next (setMask .c1 m s'))

end Sys2Proof.Machine
end

