-- ==== Sys2Proof/Machine/Dispatcher.lean ====
section
/-!
DEFINITION. The command dispatcher's own operations (spec/43_dispatcher.md): the sample loop, the
sample event, the context, the stream-end routine, what `next()` does where no instruction can be
read, and the meanings of its four commands.
-/

namespace Sys2Proof.Machine

/-! ### Producing samples -/

/-- The record of a sample event (R170). -/
def sampleEvent (s : State) : Event where
  position := s.position
  samplesPlayed := s.samplesPlayed
  loopsPlayed := s.loopsPlayed
  left := leftChannels s
  right := rightChannels s

/-- `emit Sample(ctx)` (R170). -/
def emitSample (s : State) : State := { s with trace := s.trace ++ [sampleEvent s] }

/-- The counters of one sample (R169). -/
def countSample (s : State) : State :=
  { s with samplesPlayed := s.samplesPlayed + 1, position := s.position + 1 }

/-- One iteration of R169: counters, chips, event. -/
def oneSample (s : State) : State := emitSample (driverAdvance 1 (countSample s))

/-- `AdvanceSamples(n)` (R169). -/
def advanceSamples : Nat → State → State
  | 0, s => s
  | n + 1, s => advanceSamples n (oneSample s)

/-! ### End of data and loop -/

/-- The loop target, `LOOP_OFFSET` - `DATA_OFFSET` (R67, R172), where the configuration has one. -/
def loopTarget (c : Config) : Nat := c.loopOffset.toNat - c.dataOffset.toNat

/-- The looping branch of R172. -/
def loopBack (s : State) : State :=
  { s.seek (loopTarget s.cfg) with
    position := s.cfg.totalSamples - s.cfg.loopSamples
    loopsPlayed := s.loopsPlayed + 1 }

/-- The other branch of R172. -/
def finish (s : State) : State := { s with endOfStream := true }

/-- `StreamEnd()` (R172). A negative seek target is refused (U9); no block has such a header, since
`construct` and `step` refuse it first. -/
def streamEnd (s : State) : Result :=
  if !s.cfg.hasLoop then .next (finish s)
  else if s.cfg.loopLegal then .next (loopBack s)
  else .refused .negativeLoopTarget

/-- What `next()` does where no instruction can be read: the stream-end routine at the end of data
(R162), UnknownOpcode with the byte consumed otherwise (R163, R203). -/
def onReject (e : DecodeError) (s : State) : Result :=
  match e with
  | .endOfData => streamEnd s
  | .unknownOpcode b => .next ((s.consume 1).raise (.unknownOpcode b))

/-- What ends the call before anything is fetched: parameters no block has, an earlier error (R212,
R253), or the end of the stream (R205; R161 step 1). -/
def blocked (s : State) : Option Result :=
  match configStop s.cfg with
  | some stop => some stop
  | none =>
    match s.fault with
    | some e => some (.fault (.noTransaction e))
    | none => if running s then none else some (.fault .alreadyEnded)

/-! ### The four commands -/

/-- `WAIT nnnn` (R164). -/
def execWait (n : Operand16) (s : State) : Result :=
  withWord n s fun w s' => .next (advanceSamples w.toNat s')

/-- `WAIT60` (R165). -/
def execWait60 (s : State) : Result := .next (advanceSamples 735 s)

/-- `WAIT50` (R166). -/
def execWait50 (s : State) : Result := .next (advanceSamples 882 s)

/-- `END` (R167). -/
def execEnd (s : State) : Result := streamEnd s

end Sys2Proof.Machine
end

