-- ==== Sys2Proof/Machine/Dispatch.lean ====
section
/-!
DEFINITION. One arm per instruction, each a direct call of its meaning.
-/

namespace Sys2Proof.Machine

def exec (i : Instr) (s : State) : Host.Outcome State Fault Refusal :=
  match i with
  -- level 1: the commands (spec/30_encoding.md R81), begun with the cursor just past the opcode
  | .psgw2 dd => Sys2Proof.Machine.execPsgw2 dd s
  | .ggst2 mm => Sys2Proof.Machine.execGgst2 mm s
  | .ggst1 mm => Sys2Proof.Machine.execGgst1 mm s
  | .psgw1 dd => Sys2Proof.Machine.execPsgw1 dd s
  | .wait n => Sys2Proof.Machine.execWait n s
  | .wait60 => Sys2Proof.Machine.execWait60 s
  | .wait50 => Sys2Proof.Machine.execWait50 s
  | .endMark => Sys2Proof.Machine.execEnd s
  -- level 2: the register-write bytes (spec/30_encoding.md R87, R88)
  | .t0Flo k d => Sys2Proof.Machine.execT0Flo k d s
  | .t0Vol k d => Sys2Proof.Machine.execT0Vol k d s
  | .t1Flo k d => Sys2Proof.Machine.execT1Flo k d s
  | .t1Vol k d => Sys2Proof.Machine.execT1Vol k d s
  | .t2Flo k d => Sys2Proof.Machine.execT2Flo k d s
  | .t2Vol k d => Sys2Proof.Machine.execT2Vol k d s
  | .nCtl k d => Sys2Proof.Machine.execNCtl k d s
  | .nVol k d => Sys2Proof.Machine.execNVol k d s
  | .data k x d6 => Sys2Proof.Machine.execData k x d6 s

end Sys2Proof.Machine
end

