-- ==== Sys2Proof/Machine/Step.lean ====
section
/-!
DEFINITION. One step is one `next()` (spec/43_dispatcher.md R161); and the placing of a table word
where the next step fetches it.
-/

namespace Sys2Proof.Machine

/-- `next()`: the checks of `blocked`, then one command, or what R162 and R163 say. -/
def step (s : State) : Host.Outcome State Fault Refusal :=
  match blocked s with
  | some stop => stop
  | none =>
    match fetchInstr s with
    | .error e => onReject e s
    | .ok (i, _) => exec i (s.consume 1)

/-- The state with the instruction of an opcode-table word laid out at the cursor: a command as its
own bytes, a register-write byte behind the command that delivers it (log 6). It stands for the
host's handing over another region to a new block (R243), so the block is `Running` and has no fault. -/
def State.withFetchWord (s : State) (nbits w : Nat) : State :=
  let bytes :=
    match decodeTableWord nbits w with
    | some i => commandBytes i
    | none => tableBytes nbits w
  { s with region := s.region.place s.pc bytes, endOfStream := false, fault := none }

end Sys2Proof.Machine
end

