-- ==== Sys2Proof/Laws/Config.lean ====
section
/-!
SUPPORT. What a legal configuration gives (spec/00_scope.md R6, spec/41_psg_advance.md R121,
spec/70_reset_and_hazards.md R241).
-/

namespace Sys2Proof

/-- R241: a legal width is 1 to 16. -/
theorem Config.legal_width {c : Config} (h : c.legal = true) : 1 ≤ c.width ∧ c.width ≤ 16 := by
  have hw : c.widthLegal = true := by
    simp only [Config.legal, Bool.and_eq_true] at h
    exact h.1.1.1
  simp only [Config.widthLegal, Bool.and_eq_true, decide_eq_true_eq] at hw
  unfold Config.width
  omega

/-- R6: a legal clock is at most 89,611,200. -/
theorem Config.legal_clock {c : Config} (h : c.legal = true) : c.clock.toNat ≤ 89611200 := by
  have hc : c.clockLegal = true := by
    simp only [Config.legal, Bool.and_eq_true] at h
    exact h.1.1.2
  unfold Config.clockLegal at hc
  have hm : c.clock ≤ 89611200 := of_decide_eq_true (Bool.and_eq_true_iff.1 hc).2
  omega

/-- U9: a legal loop target is not negative. -/
theorem Config.legal_loop {c : Config} (h : c.legal = true) : c.loopLegal = true := by
  simp only [Config.legal, Bool.and_eq_true] at h
  exact h.1.2

/-- U2: a legal volume table has the properties of R121. -/
theorem Config.legal_voltab {c : Config} (h : c.legal = true) :
    Config.voltabLegal c.voltab = true := by
  simp only [Config.legal, Bool.and_eq_true] at h
  exact h.2

theorem Config.descending_below :
    ∀ (l : List F32) (x : F32), Config.descending (x :: l) = true → ∀ y ∈ l, y.toNat < x.toNat := by
  intro l
  induction l with
  | nil => intro x _ y hy; cases hy
  | cons a l ih =>
    intro x h y hy
    simp only [Config.descending, Bool.and_eq_true, decide_eq_true_eq] at h
    rcases List.mem_cons.1 hy with rfl | hy
    · exact h.1
    · exact lt_trans (ih a h.2 y hy) h.1

theorem Config.descending_getD :
    ∀ l : List F32, Config.descending l = true → ∀ i j : Nat, i < j → j < l.length →
      (l.getD j 0).toNat < (l.getD i 0).toNat := by
  intro l
  induction l with
  | nil => intro _ i j _ h; simp at h
  | cons a l ih =>
    intro h i j hij hj
    obtain ⟨j, rfl⟩ : ∃ m, j = m + 1 := ⟨j - 1, by omega⟩
    have hj' : j < l.length := by simpa using hj
    cases i with
    | zero =>
      apply Config.descending_below l a h
      simp [List.getD, hj']
    | succ i =>
      have hl : Config.descending l = true := by
        cases l with
        | nil => rfl
        | cons b l => simp only [Config.descending, Bool.and_eq_true] at h; exact h.2
      simpa using ih hl i j (by omega) hj'

/-- R121: entry 0 is 1.0, entry 15 is +0.0, and no entry between is above 1.0 or a zero. -/
theorem Config.legal_volume {c : Config} (h : c.legal = true) :
    c.volume 0 = 0x3F800000 ∧ c.volume 15 = 0 ∧ (∀ i, (c.volume i).toNat ≤ 0x3F800000) ∧
      ∀ i, (c.volume i).toNat = 0 ↔ i = 15 := by
  have hv := Config.legal_voltab h
  simp only [Config.voltabLegal, Bool.and_eq_true, decide_eq_true_eq] at hv
  obtain ⟨⟨⟨⟨hlen, hhd⟩, hlast⟩, hdesc⟩, -⟩ := hv
  have h0 : c.volume 0 = 0x3F800000 := by
    unfold Config.volume
    cases hx : c.voltab with
    | nil => rw [hx] at hlen; cases hlen
    | cons a l => rw [hx] at hhd; cases hhd; rfl
  have h15 : c.volume 15 = 0 := by
    unfold Config.volume
    rw [List.getLast?_eq_getElem?, hlen] at hlast
    rw [List.getD, show (15 : BitVec 4).toNat = 16 - 1 from rfl, hlast]
    rfl
  have hm : ∀ i j : BitVec 4, i.toNat < j.toNat → (c.volume j).toNat < (c.volume i).toNat :=
    fun i j hij => Config.descending_getD _ hdesc _ _ hij (by rw [hlen]; exact j.isLt)
  refine ⟨h0, h15, fun i => ?_, fun i => ⟨fun hz => ?_, ?_⟩⟩
  · by_cases hi : i.toNat = 0
    · rw [BitVec.eq_of_toNat_eq hi (y := (0 : BitVec 4)), h0]; decide
    · have hlt := hm 0 i (by show 0 < i.toNat; omega)
      rw [h0] at hlt
      have e : (0x3F800000 : F32).toNat = 0x3F800000 := rfl
      omega
  · by_contra hne
    have h15' : i.toNat ≠ 15 := fun e => hne (BitVec.eq_of_toNat_eq e)
    have hlt := hm i 15 (by show i.toNat < 15; have := i.isLt; omega)
    omega
  · rintro rfl
    rw [h15]
    rfl

end Sys2Proof
end

