-- ==== Sys2Proof/Laws/State.lean ====
section
/-!
SUPPORT. One lemma per field per update of the state, of a chip, a tone and a port, all true by
unfolding once: later proofs rewrite with them and unfold no record update.
-/

namespace Sys2Proof.Machine

/-! ### Updates of the state -/

@[simp] theorem State.consume_cfg (s : State) (n : Nat) : (s.consume n).cfg = s.cfg := rfl
@[simp] theorem State.consume_region (s : State) (n : Nat) : (s.consume n).region = s.region := rfl
@[simp] theorem State.consume_psg0 (s : State) (n : Nat) : (s.consume n).psg0 = s.psg0 := rfl
@[simp] theorem State.consume_psg1 (s : State) (n : Nat) : (s.consume n).psg1 = s.psg1 := rfl
@[simp] theorem State.consume_port0 (s : State) (n : Nat) : (s.consume n).port0 = s.port0 := rfl
@[simp] theorem State.consume_port1 (s : State) (n : Nat) : (s.consume n).port1 = s.port1 := rfl
@[simp] theorem State.consume_pc (s : State) (n : Nat) : (s.consume n).pc = s.pc + n := rfl
@[simp] theorem State.consume_position (s : State) (n : Nat) : (s.consume n).position = s.position := rfl
@[simp] theorem State.consume_samplesPlayed (s : State) (n : Nat) : (s.consume n).samplesPlayed = s.samplesPlayed := rfl
@[simp] theorem State.consume_loopsPlayed (s : State) (n : Nat) : (s.consume n).loopsPlayed = s.loopsPlayed := rfl
@[simp] theorem State.consume_endOfStream (s : State) (n : Nat) : (s.consume n).endOfStream = s.endOfStream := rfl
@[simp] theorem State.consume_fault (s : State) (n : Nat) : (s.consume n).fault = s.fault := rfl
@[simp] theorem State.consume_trace (s : State) (n : Nat) : (s.consume n).trace = s.trace := rfl
@[simp] theorem State.seek_cfg (s : State) (t : Nat) : (s.seek t).cfg = s.cfg := rfl
@[simp] theorem State.seek_region (s : State) (t : Nat) : (s.seek t).region = s.region := rfl
@[simp] theorem State.seek_psg0 (s : State) (t : Nat) : (s.seek t).psg0 = s.psg0 := rfl
@[simp] theorem State.seek_psg1 (s : State) (t : Nat) : (s.seek t).psg1 = s.psg1 := rfl
@[simp] theorem State.seek_port0 (s : State) (t : Nat) : (s.seek t).port0 = s.port0 := rfl
@[simp] theorem State.seek_port1 (s : State) (t : Nat) : (s.seek t).port1 = s.port1 := rfl
@[simp] theorem State.seek_pc (s : State) (t : Nat) : (s.seek t).pc = t := rfl
@[simp] theorem State.seek_position (s : State) (t : Nat) : (s.seek t).position = s.position := rfl
@[simp] theorem State.seek_samplesPlayed (s : State) (t : Nat) : (s.seek t).samplesPlayed = s.samplesPlayed := rfl
@[simp] theorem State.seek_loopsPlayed (s : State) (t : Nat) : (s.seek t).loopsPlayed = s.loopsPlayed := rfl
@[simp] theorem State.seek_endOfStream (s : State) (t : Nat) : (s.seek t).endOfStream = s.endOfStream := rfl
@[simp] theorem State.seek_fault (s : State) (t : Nat) : (s.seek t).fault = s.fault := rfl
@[simp] theorem State.seek_trace (s : State) (t : Nat) : (s.seek t).trace = s.trace := rfl
@[simp] theorem State.raise_cfg (s : State) (e : Error) : (s.raise e).cfg = s.cfg := rfl
@[simp] theorem State.raise_region (s : State) (e : Error) : (s.raise e).region = s.region := rfl
@[simp] theorem State.raise_psg0 (s : State) (e : Error) : (s.raise e).psg0 = s.psg0 := rfl
@[simp] theorem State.raise_psg1 (s : State) (e : Error) : (s.raise e).psg1 = s.psg1 := rfl
@[simp] theorem State.raise_port0 (s : State) (e : Error) : (s.raise e).port0 = s.port0 := rfl
@[simp] theorem State.raise_port1 (s : State) (e : Error) : (s.raise e).port1 = s.port1 := rfl
@[simp] theorem State.raise_pc (s : State) (e : Error) : (s.raise e).pc = s.pc := rfl
@[simp] theorem State.raise_position (s : State) (e : Error) : (s.raise e).position = s.position := rfl
@[simp] theorem State.raise_samplesPlayed (s : State) (e : Error) : (s.raise e).samplesPlayed = s.samplesPlayed := rfl
@[simp] theorem State.raise_loopsPlayed (s : State) (e : Error) : (s.raise e).loopsPlayed = s.loopsPlayed := rfl
@[simp] theorem State.raise_endOfStream (s : State) (e : Error) : (s.raise e).endOfStream = s.endOfStream := rfl
@[simp] theorem State.raise_fault (s : State) (e : Error) : (s.raise e).fault = some e := rfl
@[simp] theorem State.raise_trace (s : State) (e : Error) : (s.raise e).trace = s.trace := rfl
@[simp] theorem emitSample_cfg (s : State) : (emitSample s).cfg = s.cfg := rfl
@[simp] theorem emitSample_region (s : State) : (emitSample s).region = s.region := rfl
@[simp] theorem emitSample_psg0 (s : State) : (emitSample s).psg0 = s.psg0 := rfl
@[simp] theorem emitSample_psg1 (s : State) : (emitSample s).psg1 = s.psg1 := rfl
@[simp] theorem emitSample_port0 (s : State) : (emitSample s).port0 = s.port0 := rfl
@[simp] theorem emitSample_port1 (s : State) : (emitSample s).port1 = s.port1 := rfl
@[simp] theorem emitSample_pc (s : State) : (emitSample s).pc = s.pc := rfl
@[simp] theorem emitSample_position (s : State) : (emitSample s).position = s.position := rfl
@[simp] theorem emitSample_samplesPlayed (s : State) : (emitSample s).samplesPlayed = s.samplesPlayed := rfl
@[simp] theorem emitSample_loopsPlayed (s : State) : (emitSample s).loopsPlayed = s.loopsPlayed := rfl
@[simp] theorem emitSample_endOfStream (s : State) : (emitSample s).endOfStream = s.endOfStream := rfl
@[simp] theorem emitSample_fault (s : State) : (emitSample s).fault = s.fault := rfl
@[simp] theorem emitSample_trace (s : State) : (emitSample s).trace = s.trace ++ [sampleEvent s] := rfl
@[simp] theorem countSample_cfg (s : State) : (countSample s).cfg = s.cfg := rfl
@[simp] theorem countSample_region (s : State) : (countSample s).region = s.region := rfl
@[simp] theorem countSample_psg0 (s : State) : (countSample s).psg0 = s.psg0 := rfl
@[simp] theorem countSample_psg1 (s : State) : (countSample s).psg1 = s.psg1 := rfl
@[simp] theorem countSample_port0 (s : State) : (countSample s).port0 = s.port0 := rfl
@[simp] theorem countSample_port1 (s : State) : (countSample s).port1 = s.port1 := rfl
@[simp] theorem countSample_pc (s : State) : (countSample s).pc = s.pc := rfl
@[simp] theorem countSample_position (s : State) : (countSample s).position = s.position + 1 := rfl
@[simp] theorem countSample_samplesPlayed (s : State) : (countSample s).samplesPlayed = s.samplesPlayed + 1 := rfl
@[simp] theorem countSample_loopsPlayed (s : State) : (countSample s).loopsPlayed = s.loopsPlayed := rfl
@[simp] theorem countSample_endOfStream (s : State) : (countSample s).endOfStream = s.endOfStream := rfl
@[simp] theorem countSample_fault (s : State) : (countSample s).fault = s.fault := rfl
@[simp] theorem countSample_trace (s : State) : (countSample s).trace = s.trace := rfl
@[simp] theorem finish_cfg (s : State) : (finish s).cfg = s.cfg := rfl
@[simp] theorem finish_region (s : State) : (finish s).region = s.region := rfl
@[simp] theorem finish_psg0 (s : State) : (finish s).psg0 = s.psg0 := rfl
@[simp] theorem finish_psg1 (s : State) : (finish s).psg1 = s.psg1 := rfl
@[simp] theorem finish_port0 (s : State) : (finish s).port0 = s.port0 := rfl
@[simp] theorem finish_port1 (s : State) : (finish s).port1 = s.port1 := rfl
@[simp] theorem finish_pc (s : State) : (finish s).pc = s.pc := rfl
@[simp] theorem finish_position (s : State) : (finish s).position = s.position := rfl
@[simp] theorem finish_samplesPlayed (s : State) : (finish s).samplesPlayed = s.samplesPlayed := rfl
@[simp] theorem finish_loopsPlayed (s : State) : (finish s).loopsPlayed = s.loopsPlayed := rfl
@[simp] theorem finish_endOfStream (s : State) : (finish s).endOfStream = true := rfl
@[simp] theorem finish_fault (s : State) : (finish s).fault = s.fault := rfl
@[simp] theorem finish_trace (s : State) : (finish s).trace = s.trace := rfl
@[simp] theorem loopBack_cfg (s : State) : (loopBack s).cfg = s.cfg := rfl
@[simp] theorem loopBack_region (s : State) : (loopBack s).region = s.region := rfl
@[simp] theorem loopBack_psg0 (s : State) : (loopBack s).psg0 = s.psg0 := rfl
@[simp] theorem loopBack_psg1 (s : State) : (loopBack s).psg1 = s.psg1 := rfl
@[simp] theorem loopBack_port0 (s : State) : (loopBack s).port0 = s.port0 := rfl
@[simp] theorem loopBack_port1 (s : State) : (loopBack s).port1 = s.port1 := rfl
@[simp] theorem loopBack_pc (s : State) : (loopBack s).pc = loopTarget s.cfg := rfl
@[simp] theorem loopBack_position (s : State) : (loopBack s).position = s.cfg.totalSamples - s.cfg.loopSamples := rfl
@[simp] theorem loopBack_samplesPlayed (s : State) : (loopBack s).samplesPlayed = s.samplesPlayed := rfl
@[simp] theorem loopBack_loopsPlayed (s : State) : (loopBack s).loopsPlayed = s.loopsPlayed + 1 := rfl
@[simp] theorem loopBack_endOfStream (s : State) : (loopBack s).endOfStream = s.endOfStream := rfl
@[simp] theorem loopBack_fault (s : State) : (loopBack s).fault = s.fault := rfl
@[simp] theorem loopBack_trace (s : State) : (loopBack s).trace = s.trace := rfl

/-! ### Replacing a chip or a port -/

@[simp] theorem State.setChip_cfg (s : State) (k : ChipId) (c : Chip) :
    (s.setChip k c).cfg = s.cfg := by cases k <;> rfl
@[simp] theorem State.setChip_region (s : State) (k : ChipId) (c : Chip) :
    (s.setChip k c).region = s.region := by cases k <;> rfl
@[simp] theorem State.setChip_c0_psg0 (s : State) (c : Chip) :
    (s.setChip .c0 c).psg0 = c := rfl
@[simp] theorem State.setChip_c1_psg0 (s : State) (c : Chip) :
    (s.setChip .c1 c).psg0 = s.psg0 := rfl
@[simp] theorem State.setChip_c0_psg1 (s : State) (c : Chip) :
    (s.setChip .c0 c).psg1 = s.psg1 := rfl
@[simp] theorem State.setChip_c1_psg1 (s : State) (c : Chip) :
    (s.setChip .c1 c).psg1 = c := rfl
@[simp] theorem State.setChip_port0 (s : State) (k : ChipId) (c : Chip) :
    (s.setChip k c).port0 = s.port0 := by cases k <;> rfl
@[simp] theorem State.setChip_port1 (s : State) (k : ChipId) (c : Chip) :
    (s.setChip k c).port1 = s.port1 := by cases k <;> rfl
@[simp] theorem State.setChip_pc (s : State) (k : ChipId) (c : Chip) :
    (s.setChip k c).pc = s.pc := by cases k <;> rfl
@[simp] theorem State.setChip_position (s : State) (k : ChipId) (c : Chip) :
    (s.setChip k c).position = s.position := by cases k <;> rfl
@[simp] theorem State.setChip_samplesPlayed (s : State) (k : ChipId) (c : Chip) :
    (s.setChip k c).samplesPlayed = s.samplesPlayed := by cases k <;> rfl
@[simp] theorem State.setChip_loopsPlayed (s : State) (k : ChipId) (c : Chip) :
    (s.setChip k c).loopsPlayed = s.loopsPlayed := by cases k <;> rfl
@[simp] theorem State.setChip_endOfStream (s : State) (k : ChipId) (c : Chip) :
    (s.setChip k c).endOfStream = s.endOfStream := by cases k <;> rfl
@[simp] theorem State.setChip_fault (s : State) (k : ChipId) (c : Chip) :
    (s.setChip k c).fault = s.fault := by cases k <;> rfl
@[simp] theorem State.setChip_trace (s : State) (k : ChipId) (c : Chip) :
    (s.setChip k c).trace = s.trace := by cases k <;> rfl
@[simp] theorem State.setPort_cfg (s : State) (k : ChipId) (p : Port) :
    (s.setPort k p).cfg = s.cfg := by cases k <;> rfl
@[simp] theorem State.setPort_region (s : State) (k : ChipId) (p : Port) :
    (s.setPort k p).region = s.region := by cases k <;> rfl
@[simp] theorem State.setPort_psg0 (s : State) (k : ChipId) (p : Port) :
    (s.setPort k p).psg0 = s.psg0 := by cases k <;> rfl
@[simp] theorem State.setPort_psg1 (s : State) (k : ChipId) (p : Port) :
    (s.setPort k p).psg1 = s.psg1 := by cases k <;> rfl
@[simp] theorem State.setPort_c0_port0 (s : State) (p : Port) :
    (s.setPort .c0 p).port0 = p := rfl
@[simp] theorem State.setPort_c1_port0 (s : State) (p : Port) :
    (s.setPort .c1 p).port0 = s.port0 := rfl
@[simp] theorem State.setPort_c0_port1 (s : State) (p : Port) :
    (s.setPort .c0 p).port1 = s.port1 := rfl
@[simp] theorem State.setPort_c1_port1 (s : State) (p : Port) :
    (s.setPort .c1 p).port1 = p := rfl
@[simp] theorem State.setPort_pc (s : State) (k : ChipId) (p : Port) :
    (s.setPort k p).pc = s.pc := by cases k <;> rfl
@[simp] theorem State.setPort_position (s : State) (k : ChipId) (p : Port) :
    (s.setPort k p).position = s.position := by cases k <;> rfl
@[simp] theorem State.setPort_samplesPlayed (s : State) (k : ChipId) (p : Port) :
    (s.setPort k p).samplesPlayed = s.samplesPlayed := by cases k <;> rfl
@[simp] theorem State.setPort_loopsPlayed (s : State) (k : ChipId) (p : Port) :
    (s.setPort k p).loopsPlayed = s.loopsPlayed := by cases k <;> rfl
@[simp] theorem State.setPort_endOfStream (s : State) (k : ChipId) (p : Port) :
    (s.setPort k p).endOfStream = s.endOfStream := by cases k <;> rfl
@[simp] theorem State.setPort_fault (s : State) (k : ChipId) (p : Port) :
    (s.setPort k p).fault = s.fault := by cases k <;> rfl
@[simp] theorem State.setPort_trace (s : State) (k : ChipId) (p : Port) :
    (s.setPort k p).trace = s.trace := by cases k <;> rfl

@[simp] theorem State.chip_setChip_same (s : State) (k : ChipId) (c : Chip) :
    (s.setChip k c).chip k = c := by cases k <;> rfl
theorem State.chip_setChip_other (s : State) {k j : ChipId} (h : j ≠ k) (c : Chip) :
    (s.setChip k c).chip j = s.chip j := by cases k <;> cases j <;> first | rfl | exact absurd rfl h
@[simp] theorem State.chip_setPort (s : State) (k j : ChipId) (p : Port) :
    (s.setPort k p).chip j = s.chip j := by cases k <;> cases j <;> rfl
@[simp] theorem State.port_setPort_same (s : State) (k : ChipId) (p : Port) :
    (s.setPort k p).port k = p := by cases k <;> rfl
theorem State.port_setPort_other (s : State) {k j : ChipId} (h : j ≠ k) (p : Port) :
    (s.setPort k p).port j = s.port j := by cases k <;> cases j <;> first | rfl | exact absurd rfl h
@[simp] theorem State.port_setChip (s : State) (k j : ChipId) (c : Chip) :
    (s.setChip k c).port j = s.port j := by cases k <;> cases j <;> rfl
@[simp] theorem State.chip_consume (s : State) (n : Nat) (k : ChipId) :
    (s.consume n).chip k = s.chip k := by cases k <;> rfl
@[simp] theorem State.port_consume (s : State) (n : Nat) (k : ChipId) :
    (s.consume n).port k = s.port k := by cases k <;> rfl
@[simp] theorem State.present_consume (s : State) (n : Nat) (k : ChipId) :
    (s.consume n).present k = s.present k := by cases k <;> rfl
@[simp] theorem State.present_c0 (s : State) : s.present .c0 = true := rfl
@[simp] theorem State.present_c1 (s : State) : s.present .c1 = s.cfg.dual := rfl
@[simp] theorem State.chip_c0 (s : State) : s.chip .c0 = s.psg0 := rfl
@[simp] theorem State.chip_c1 (s : State) : s.chip .c1 = s.psg1 := rfl
@[simp] theorem State.port_c0 (s : State) : s.port .c0 = s.port0 := rfl
@[simp] theorem State.port_c1 (s : State) : s.port .c1 = s.port1 := rfl

/-! ### Updates of a chip -/

@[simp] theorem Chip.withAdr_tone0 (c : Chip) (r : BitVec 3) :
    (c.withAdr r).tone0 = c.tone0 := rfl
@[simp] theorem Chip.withAdr_tone1 (c : Chip) (r : BitVec 3) :
    (c.withAdr r).tone1 = c.tone1 := rfl
@[simp] theorem Chip.withAdr_tone2 (c : Chip) (r : BitVec 3) :
    (c.withAdr r).tone2 = c.tone2 := rfl
@[simp] theorem Chip.withAdr_noiseMode (c : Chip) (r : BitVec 3) :
    (c.withAdr r).noiseMode = c.noiseMode := rfl
@[simp] theorem Chip.withAdr_noiseRef (c : Chip) (r : BitVec 3) :
    (c.withAdr r).noiseRef = c.noiseRef := rfl
@[simp] theorem Chip.withAdr_noiseFreq (c : Chip) (r : BitVec 3) :
    (c.withAdr r).noiseFreq = c.noiseFreq := rfl
@[simp] theorem Chip.withAdr_noiseVolume (c : Chip) (r : BitVec 3) :
    (c.withAdr r).noiseVolume = c.noiseVolume := rfl
@[simp] theorem Chip.withAdr_adr (c : Chip) (r : BitVec 3) :
    (c.withAdr r).adr = r := rfl
@[simp] theorem Chip.withAdr_noiseCount (c : Chip) (r : BitVec 3) :
    (c.withAdr r).noiseCount = c.noiseCount := rfl
@[simp] theorem Chip.withAdr_noiseSeed (c : Chip) (r : BitVec 3) :
    (c.withAdr r).noiseSeed = c.noiseSeed := rfl
@[simp] theorem Chip.withAdr_baseCount (c : Chip) (r : BitVec 3) :
    (c.withAdr r).baseCount = c.baseCount := rfl
@[simp] theorem Chip.withAdr_channels (c : Chip) (r : BitVec 3) :
    (c.withAdr r).channels = c.channels := rfl
@[simp] theorem Chip.withNoiseVolume_tone0 (c : Chip) (v : BitVec 4) :
    (c.withNoiseVolume v).tone0 = c.tone0 := rfl
@[simp] theorem Chip.withNoiseVolume_tone1 (c : Chip) (v : BitVec 4) :
    (c.withNoiseVolume v).tone1 = c.tone1 := rfl
@[simp] theorem Chip.withNoiseVolume_tone2 (c : Chip) (v : BitVec 4) :
    (c.withNoiseVolume v).tone2 = c.tone2 := rfl
@[simp] theorem Chip.withNoiseVolume_noiseMode (c : Chip) (v : BitVec 4) :
    (c.withNoiseVolume v).noiseMode = c.noiseMode := rfl
@[simp] theorem Chip.withNoiseVolume_noiseRef (c : Chip) (v : BitVec 4) :
    (c.withNoiseVolume v).noiseRef = c.noiseRef := rfl
@[simp] theorem Chip.withNoiseVolume_noiseFreq (c : Chip) (v : BitVec 4) :
    (c.withNoiseVolume v).noiseFreq = c.noiseFreq := rfl
@[simp] theorem Chip.withNoiseVolume_noiseVolume (c : Chip) (v : BitVec 4) :
    (c.withNoiseVolume v).noiseVolume = v := rfl
@[simp] theorem Chip.withNoiseVolume_adr (c : Chip) (v : BitVec 4) :
    (c.withNoiseVolume v).adr = c.adr := rfl
@[simp] theorem Chip.withNoiseVolume_noiseCount (c : Chip) (v : BitVec 4) :
    (c.withNoiseVolume v).noiseCount = c.noiseCount := rfl
@[simp] theorem Chip.withNoiseVolume_noiseSeed (c : Chip) (v : BitVec 4) :
    (c.withNoiseVolume v).noiseSeed = c.noiseSeed := rfl
@[simp] theorem Chip.withNoiseVolume_baseCount (c : Chip) (v : BitVec 4) :
    (c.withNoiseVolume v).baseCount = c.baseCount := rfl
@[simp] theorem Chip.withNoiseVolume_channels (c : Chip) (v : BitVec 4) :
    (c.withNoiseVolume v).channels = c.channels := rfl
@[simp] theorem Chip.withNoiseControl_tone0 (c : Chip) (m : NoiseMode) (ref : Bool) (f : BitVec 16) :
    (c.withNoiseControl m ref f).tone0 = c.tone0 := rfl
@[simp] theorem Chip.withNoiseControl_tone1 (c : Chip) (m : NoiseMode) (ref : Bool) (f : BitVec 16) :
    (c.withNoiseControl m ref f).tone1 = c.tone1 := rfl
@[simp] theorem Chip.withNoiseControl_tone2 (c : Chip) (m : NoiseMode) (ref : Bool) (f : BitVec 16) :
    (c.withNoiseControl m ref f).tone2 = c.tone2 := rfl
@[simp] theorem Chip.withNoiseControl_noiseMode (c : Chip) (m : NoiseMode) (ref : Bool) (f : BitVec 16) :
    (c.withNoiseControl m ref f).noiseMode = m := rfl
@[simp] theorem Chip.withNoiseControl_noiseRef (c : Chip) (m : NoiseMode) (ref : Bool) (f : BitVec 16) :
    (c.withNoiseControl m ref f).noiseRef = ref := rfl
@[simp] theorem Chip.withNoiseControl_noiseFreq (c : Chip) (m : NoiseMode) (ref : Bool) (f : BitVec 16) :
    (c.withNoiseControl m ref f).noiseFreq = f := rfl
@[simp] theorem Chip.withNoiseControl_noiseVolume (c : Chip) (m : NoiseMode) (ref : Bool) (f : BitVec 16) :
    (c.withNoiseControl m ref f).noiseVolume = c.noiseVolume := rfl
@[simp] theorem Chip.withNoiseControl_adr (c : Chip) (m : NoiseMode) (ref : Bool) (f : BitVec 16) :
    (c.withNoiseControl m ref f).adr = c.adr := rfl
@[simp] theorem Chip.withNoiseControl_noiseCount (c : Chip) (m : NoiseMode) (ref : Bool) (f : BitVec 16) :
    (c.withNoiseControl m ref f).noiseCount = c.noiseCount := rfl
@[simp] theorem Chip.withNoiseControl_noiseSeed (c : Chip) (m : NoiseMode) (ref : Bool) (f : BitVec 16) :
    (c.withNoiseControl m ref f).noiseSeed = c.noiseSeed := rfl
@[simp] theorem Chip.withNoiseControl_baseCount (c : Chip) (m : NoiseMode) (ref : Bool) (f : BitVec 16) :
    (c.withNoiseControl m ref f).baseCount = c.baseCount := rfl
@[simp] theorem Chip.withNoiseControl_channels (c : Chip) (m : NoiseMode) (ref : Bool) (f : BitVec 16) :
    (c.withNoiseControl m ref f).channels = c.channels := rfl
@[simp] theorem Chip.withSeed_tone0 (c : Chip) (v : BitVec 16) :
    (c.withSeed v).tone0 = c.tone0 := rfl
@[simp] theorem Chip.withSeed_tone1 (c : Chip) (v : BitVec 16) :
    (c.withSeed v).tone1 = c.tone1 := rfl
@[simp] theorem Chip.withSeed_tone2 (c : Chip) (v : BitVec 16) :
    (c.withSeed v).tone2 = c.tone2 := rfl
@[simp] theorem Chip.withSeed_noiseMode (c : Chip) (v : BitVec 16) :
    (c.withSeed v).noiseMode = c.noiseMode := rfl
@[simp] theorem Chip.withSeed_noiseRef (c : Chip) (v : BitVec 16) :
    (c.withSeed v).noiseRef = c.noiseRef := rfl
@[simp] theorem Chip.withSeed_noiseFreq (c : Chip) (v : BitVec 16) :
    (c.withSeed v).noiseFreq = c.noiseFreq := rfl
@[simp] theorem Chip.withSeed_noiseVolume (c : Chip) (v : BitVec 16) :
    (c.withSeed v).noiseVolume = c.noiseVolume := rfl
@[simp] theorem Chip.withSeed_adr (c : Chip) (v : BitVec 16) :
    (c.withSeed v).adr = c.adr := rfl
@[simp] theorem Chip.withSeed_noiseCount (c : Chip) (v : BitVec 16) :
    (c.withSeed v).noiseCount = c.noiseCount := rfl
@[simp] theorem Chip.withSeed_noiseSeed (c : Chip) (v : BitVec 16) :
    (c.withSeed v).noiseSeed = v := rfl
@[simp] theorem Chip.withSeed_baseCount (c : Chip) (v : BitVec 16) :
    (c.withSeed v).baseCount = c.baseCount := rfl
@[simp] theorem Chip.withSeed_channels (c : Chip) (v : BitVec 16) :
    (c.withSeed v).channels = c.channels := rfl
@[simp] theorem Chip.withNoiseCount_tone0 (c : Chip) (v : Word32) :
    (c.withNoiseCount v).tone0 = c.tone0 := rfl
@[simp] theorem Chip.withNoiseCount_tone1 (c : Chip) (v : Word32) :
    (c.withNoiseCount v).tone1 = c.tone1 := rfl
@[simp] theorem Chip.withNoiseCount_tone2 (c : Chip) (v : Word32) :
    (c.withNoiseCount v).tone2 = c.tone2 := rfl
@[simp] theorem Chip.withNoiseCount_noiseMode (c : Chip) (v : Word32) :
    (c.withNoiseCount v).noiseMode = c.noiseMode := rfl
@[simp] theorem Chip.withNoiseCount_noiseRef (c : Chip) (v : Word32) :
    (c.withNoiseCount v).noiseRef = c.noiseRef := rfl
@[simp] theorem Chip.withNoiseCount_noiseFreq (c : Chip) (v : Word32) :
    (c.withNoiseCount v).noiseFreq = c.noiseFreq := rfl
@[simp] theorem Chip.withNoiseCount_noiseVolume (c : Chip) (v : Word32) :
    (c.withNoiseCount v).noiseVolume = c.noiseVolume := rfl
@[simp] theorem Chip.withNoiseCount_adr (c : Chip) (v : Word32) :
    (c.withNoiseCount v).adr = c.adr := rfl
@[simp] theorem Chip.withNoiseCount_noiseCount (c : Chip) (v : Word32) :
    (c.withNoiseCount v).noiseCount = v := rfl
@[simp] theorem Chip.withNoiseCount_noiseSeed (c : Chip) (v : Word32) :
    (c.withNoiseCount v).noiseSeed = c.noiseSeed := rfl
@[simp] theorem Chip.withNoiseCount_baseCount (c : Chip) (v : Word32) :
    (c.withNoiseCount v).baseCount = c.baseCount := rfl
@[simp] theorem Chip.withNoiseCount_channels (c : Chip) (v : Word32) :
    (c.withNoiseCount v).channels = c.channels := rfl
@[simp] theorem Chip.withBase_tone0 (c : Chip) (v : Word32) :
    (c.withBase v).tone0 = c.tone0 := rfl
@[simp] theorem Chip.withBase_tone1 (c : Chip) (v : Word32) :
    (c.withBase v).tone1 = c.tone1 := rfl
@[simp] theorem Chip.withBase_tone2 (c : Chip) (v : Word32) :
    (c.withBase v).tone2 = c.tone2 := rfl
@[simp] theorem Chip.withBase_noiseMode (c : Chip) (v : Word32) :
    (c.withBase v).noiseMode = c.noiseMode := rfl
@[simp] theorem Chip.withBase_noiseRef (c : Chip) (v : Word32) :
    (c.withBase v).noiseRef = c.noiseRef := rfl
@[simp] theorem Chip.withBase_noiseFreq (c : Chip) (v : Word32) :
    (c.withBase v).noiseFreq = c.noiseFreq := rfl
@[simp] theorem Chip.withBase_noiseVolume (c : Chip) (v : Word32) :
    (c.withBase v).noiseVolume = c.noiseVolume := rfl
@[simp] theorem Chip.withBase_adr (c : Chip) (v : Word32) :
    (c.withBase v).adr = c.adr := rfl
@[simp] theorem Chip.withBase_noiseCount (c : Chip) (v : Word32) :
    (c.withBase v).noiseCount = c.noiseCount := rfl
@[simp] theorem Chip.withBase_noiseSeed (c : Chip) (v : Word32) :
    (c.withBase v).noiseSeed = c.noiseSeed := rfl
@[simp] theorem Chip.withBase_baseCount (c : Chip) (v : Word32) :
    (c.withBase v).baseCount = v := rfl
@[simp] theorem Chip.withBase_channels (c : Chip) (v : Word32) :
    (c.withBase v).channels = c.channels := rfl
@[simp] theorem Chip.withChannels_tone0 (c : Chip) (q : Quad) :
    (c.withChannels q).tone0 = c.tone0 := rfl
@[simp] theorem Chip.withChannels_tone1 (c : Chip) (q : Quad) :
    (c.withChannels q).tone1 = c.tone1 := rfl
@[simp] theorem Chip.withChannels_tone2 (c : Chip) (q : Quad) :
    (c.withChannels q).tone2 = c.tone2 := rfl
@[simp] theorem Chip.withChannels_noiseMode (c : Chip) (q : Quad) :
    (c.withChannels q).noiseMode = c.noiseMode := rfl
@[simp] theorem Chip.withChannels_noiseRef (c : Chip) (q : Quad) :
    (c.withChannels q).noiseRef = c.noiseRef := rfl
@[simp] theorem Chip.withChannels_noiseFreq (c : Chip) (q : Quad) :
    (c.withChannels q).noiseFreq = c.noiseFreq := rfl
@[simp] theorem Chip.withChannels_noiseVolume (c : Chip) (q : Quad) :
    (c.withChannels q).noiseVolume = c.noiseVolume := rfl
@[simp] theorem Chip.withChannels_adr (c : Chip) (q : Quad) :
    (c.withChannels q).adr = c.adr := rfl
@[simp] theorem Chip.withChannels_noiseCount (c : Chip) (q : Quad) :
    (c.withChannels q).noiseCount = c.noiseCount := rfl
@[simp] theorem Chip.withChannels_noiseSeed (c : Chip) (q : Quad) :
    (c.withChannels q).noiseSeed = c.noiseSeed := rfl
@[simp] theorem Chip.withChannels_baseCount (c : Chip) (q : Quad) :
    (c.withChannels q).baseCount = c.baseCount := rfl
@[simp] theorem Chip.withChannels_channels (c : Chip) (q : Quad) :
    (c.withChannels q).channels = q := rfl
@[simp] theorem Chip.setTone_noiseMode (c : Chip) (i : ToneId) (t : Tone) :
    (c.setTone i t).noiseMode = c.noiseMode := by cases i <;> rfl
@[simp] theorem Chip.setTone_noiseRef (c : Chip) (i : ToneId) (t : Tone) :
    (c.setTone i t).noiseRef = c.noiseRef := by cases i <;> rfl
@[simp] theorem Chip.setTone_noiseFreq (c : Chip) (i : ToneId) (t : Tone) :
    (c.setTone i t).noiseFreq = c.noiseFreq := by cases i <;> rfl
@[simp] theorem Chip.setTone_noiseVolume (c : Chip) (i : ToneId) (t : Tone) :
    (c.setTone i t).noiseVolume = c.noiseVolume := by cases i <;> rfl
@[simp] theorem Chip.setTone_adr (c : Chip) (i : ToneId) (t : Tone) :
    (c.setTone i t).adr = c.adr := by cases i <;> rfl
@[simp] theorem Chip.setTone_noiseCount (c : Chip) (i : ToneId) (t : Tone) :
    (c.setTone i t).noiseCount = c.noiseCount := by cases i <;> rfl
@[simp] theorem Chip.setTone_noiseSeed (c : Chip) (i : ToneId) (t : Tone) :
    (c.setTone i t).noiseSeed = c.noiseSeed := by cases i <;> rfl
@[simp] theorem Chip.setTone_baseCount (c : Chip) (i : ToneId) (t : Tone) :
    (c.setTone i t).baseCount = c.baseCount := by cases i <;> rfl
@[simp] theorem Chip.setTone_channels (c : Chip) (i : ToneId) (t : Tone) :
    (c.setTone i t).channels = c.channels := by cases i <;> rfl

@[simp] theorem Chip.tone_setTone_same (c : Chip) (i : ToneId) (t : Tone) :
    (c.setTone i t).tone i = t := by cases i <;> rfl
theorem Chip.tone_setTone_other (c : Chip) {i j : ToneId} (h : j ≠ i) (t : Tone) :
    (c.setTone i t).tone j = c.tone j := by cases i <;> cases j <;> first | rfl | exact absurd rfl h
@[simp] theorem Chip.tone_t0 (c : Chip) : c.tone .t0 = c.tone0 := rfl
@[simp] theorem Chip.tone_t1 (c : Chip) : c.tone .t1 = c.tone1 := rfl
@[simp] theorem Chip.tone_t2 (c : Chip) : c.tone .t2 = c.tone2 := rfl
@[simp] theorem Chip.tone_withAdr (c : Chip) (v : BitVec 3) (i : ToneId) :
    (c.withAdr v).tone i = c.tone i := by cases i <;> rfl
@[simp] theorem Chip.tone_withNoiseVolume (c : Chip) (v : BitVec 4) (i : ToneId) :
    (c.withNoiseVolume v).tone i = c.tone i := by cases i <;> rfl
@[simp] theorem Chip.tone_withSeed (c : Chip) (v : BitVec 16) (i : ToneId) :
    (c.withSeed v).tone i = c.tone i := by cases i <;> rfl
@[simp] theorem Chip.tone_withNoiseCount (c : Chip) (v : Word32) (i : ToneId) :
    (c.withNoiseCount v).tone i = c.tone i := by cases i <;> rfl
@[simp] theorem Chip.tone_withBase (c : Chip) (v : Word32) (i : ToneId) :
    (c.withBase v).tone i = c.tone i := by cases i <;> rfl
@[simp] theorem Chip.tone_withChannels (c : Chip) (q : Quad) (i : ToneId) :
    (c.withChannels q).tone i = c.tone i := by cases i <;> rfl
@[simp] theorem Chip.tone_withNoiseControl (c : Chip) (m : NoiseMode) (ref : Bool) (f : BitVec 16)
    (i : ToneId) : (c.withNoiseControl m ref f).tone i = c.tone i := by cases i <;> rfl
@[simp] theorem Chip.setTone_t0_tone0 (c : Chip) (t : Tone) :
    (c.setTone .t0 t).tone0 = t := rfl
@[simp] theorem Chip.setTone_t0_tone1 (c : Chip) (t : Tone) :
    (c.setTone .t0 t).tone1 = c.tone1 := rfl
@[simp] theorem Chip.setTone_t0_tone2 (c : Chip) (t : Tone) :
    (c.setTone .t0 t).tone2 = c.tone2 := rfl
@[simp] theorem Chip.setTone_t1_tone0 (c : Chip) (t : Tone) :
    (c.setTone .t1 t).tone0 = c.tone0 := rfl
@[simp] theorem Chip.setTone_t1_tone1 (c : Chip) (t : Tone) :
    (c.setTone .t1 t).tone1 = t := rfl
@[simp] theorem Chip.setTone_t1_tone2 (c : Chip) (t : Tone) :
    (c.setTone .t1 t).tone2 = c.tone2 := rfl
@[simp] theorem Chip.setTone_t2_tone0 (c : Chip) (t : Tone) :
    (c.setTone .t2 t).tone0 = c.tone0 := rfl
@[simp] theorem Chip.setTone_t2_tone1 (c : Chip) (t : Tone) :
    (c.setTone .t2 t).tone1 = c.tone1 := rfl
@[simp] theorem Chip.setTone_t2_tone2 (c : Chip) (t : Tone) :
    (c.setTone .t2 t).tone2 = t := rfl

/-! ### Updates of a tone, a port, four values -/

@[simp] theorem Tone.withFreq_freq (t : Tone) (f : BitVec 10) :
    (t.withFreq f).freq = f := rfl
@[simp] theorem Tone.withFreq_volume (t : Tone) (f : BitVec 10) :
    (t.withFreq f).volume = t.volume := rfl
@[simp] theorem Tone.withFreq_count (t : Tone) (f : BitVec 10) :
    (t.withFreq f).count = t.count := rfl
@[simp] theorem Tone.withFreq_edge (t : Tone) (f : BitVec 10) :
    (t.withFreq f).edge = t.edge := rfl
@[simp] theorem Tone.withFreq_mute (t : Tone) (f : BitVec 10) :
    (t.withFreq f).mute = t.mute := rfl
@[simp] theorem Tone.withVolume_freq (t : Tone) (v : BitVec 4) :
    (t.withVolume v).freq = t.freq := rfl
@[simp] theorem Tone.withVolume_volume (t : Tone) (v : BitVec 4) :
    (t.withVolume v).volume = v := rfl
@[simp] theorem Tone.withVolume_count (t : Tone) (v : BitVec 4) :
    (t.withVolume v).count = t.count := rfl
@[simp] theorem Tone.withVolume_edge (t : Tone) (v : BitVec 4) :
    (t.withVolume v).edge = t.edge := rfl
@[simp] theorem Tone.withVolume_mute (t : Tone) (v : BitVec 4) :
    (t.withVolume v).mute = t.mute := rfl
@[simp] theorem Tone.withRun_freq (t : Tone) (n : Word32) (e : Bool) :
    (t.withRun n e).freq = t.freq := rfl
@[simp] theorem Tone.withRun_volume (t : Tone) (n : Word32) (e : Bool) :
    (t.withRun n e).volume = t.volume := rfl
@[simp] theorem Tone.withRun_count (t : Tone) (n : Word32) (e : Bool) :
    (t.withRun n e).count = n := rfl
@[simp] theorem Tone.withRun_edge (t : Tone) (n : Word32) (e : Bool) :
    (t.withRun n e).edge = e := rfl
@[simp] theorem Tone.withRun_mute (t : Tone) (n : Word32) (e : Bool) :
    (t.withRun n e).mute = t.mute := rfl
@[simp] theorem Port.withMask_ggStereo (p : Port) (m : Byte) :
    (p.withMask m).ggStereo = m := rfl
@[simp] theorem Port.withMask_left (p : Port) (m : Byte) :
    (p.withMask m).left = p.left := rfl
@[simp] theorem Port.withMask_right (p : Port) (m : Byte) :
    (p.withMask m).right = p.right := rfl
@[simp] theorem Port.withSides_ggStereo (p : Port) (l r : Quad) :
    (p.withSides l r).ggStereo = p.ggStereo := rfl
@[simp] theorem Port.withSides_left (p : Port) (l r : Quad) :
    (p.withSides l r).left = l := rfl
@[simp] theorem Port.withSides_right (p : Port) (l r : Quad) :
    (p.withSides l r).right = r := rfl
@[simp] theorem Quad.setNoise_ch0 (q : Quad) (v : F32) :
    (q.setNoise v).ch0 = q.ch0 := rfl
@[simp] theorem Quad.setNoise_ch1 (q : Quad) (v : F32) :
    (q.setNoise v).ch1 = q.ch1 := rfl
@[simp] theorem Quad.setNoise_ch2 (q : Quad) (v : F32) :
    (q.setNoise v).ch2 = q.ch2 := rfl
@[simp] theorem Quad.setNoise_ch3 (q : Quad) (v : F32) :
    (q.setNoise v).ch3 = v := rfl
@[simp] theorem Quad.setTone_t0_ch0 (q : Quad) (v : F32) :
    (q.setTone .t0 v).ch0 = v := rfl
@[simp] theorem Quad.setTone_t0_ch1 (q : Quad) (v : F32) :
    (q.setTone .t0 v).ch1 = q.ch1 := rfl
@[simp] theorem Quad.setTone_t0_ch2 (q : Quad) (v : F32) :
    (q.setTone .t0 v).ch2 = q.ch2 := rfl
@[simp] theorem Quad.setTone_t0_ch3 (q : Quad) (v : F32) :
    (q.setTone .t0 v).ch3 = q.ch3 := rfl
@[simp] theorem Quad.setTone_t1_ch0 (q : Quad) (v : F32) :
    (q.setTone .t1 v).ch0 = q.ch0 := rfl
@[simp] theorem Quad.setTone_t1_ch1 (q : Quad) (v : F32) :
    (q.setTone .t1 v).ch1 = v := rfl
@[simp] theorem Quad.setTone_t1_ch2 (q : Quad) (v : F32) :
    (q.setTone .t1 v).ch2 = q.ch2 := rfl
@[simp] theorem Quad.setTone_t1_ch3 (q : Quad) (v : F32) :
    (q.setTone .t1 v).ch3 = q.ch3 := rfl
@[simp] theorem Quad.setTone_t2_ch0 (q : Quad) (v : F32) :
    (q.setTone .t2 v).ch0 = q.ch0 := rfl
@[simp] theorem Quad.setTone_t2_ch1 (q : Quad) (v : F32) :
    (q.setTone .t2 v).ch1 = q.ch1 := rfl
@[simp] theorem Quad.setTone_t2_ch2 (q : Quad) (v : F32) :
    (q.setTone .t2 v).ch2 = v := rfl
@[simp] theorem Quad.setTone_t2_ch3 (q : Quad) (v : F32) :
    (q.setTone .t2 v).ch3 = q.ch3 := rfl

end Sys2Proof.Machine
end

