-- ==== Sys2Proof/Machine/Boot.lean ====
section
/-!
DEFINITION. Construction of the block (spec/70_reset_and_hazards.md R240, R241) with what it turns
down, and the handler table and emulator list with `install` (spec/43_dispatcher.md R171,
spec/10_state.md R45, R46).
-/

namespace Sys2Proof.Machine

/-- Construction from the header reader's parameters and region: the reset state (R51), unless the
parameters are turned down (`configStop`). -/
def construct (c : Config) (r : Region) : Result :=
  match configStop c with
  | some stop => stop
  | none => .next (State.initial c r)

/-- A handler table: opcodes with the name of the command each one runs (R45). -/
abbrev HandlerTable := List (Byte × String)

/-- The four built-ins "registered at construction" (R45). -/
def builtinEntries : HandlerTable :=
  [(0x61#8, "WAIT"), (0x62#8, "WAIT60"), (0x63#8, "WAIT50"), (0x66#8, "END")]

/-- The driver's "exactly these entries" (R141). -/
def driverEntries : HandlerTable :=
  [(0x50#8, "PSGW1"), (0x30#8, "PSGW2"), (0x4F#8, "GGST1"), (0x3F#8, "GGST2")]

/-- The opcode has a handler. -/
def registered (t : HandlerTable) (op : Byte) : Bool := t.any fun e => e.1 == op

/-- The block's table after step 4 of R240. -/
def handlerTable : HandlerTable := builtinEntries ++ driverEntries

/-- What a handle stands for: the PSG driver, or an emulator this block does not have (R46, D17). -/
inductive Emulator where
  | psgDriver
  | other (name : String)
  deriving DecidableEq, Repr

/-- An `EmulatorHandle` (R150). Its `advance_sample` and channel views are the emulator's: for the driver
`driverAdvance`, `leftChannels` and `rightChannels` (R147, R149). -/
structure Handle where
  emulator : Emulator
  entries : HandlerTable
  deriving DecidableEq, Repr

/-- The PSG driver as a handle (R141). -/
def driverHandle : Handle := ⟨.psgDriver, driverEntries⟩

/-- The configuration part of the dispatcher: `handlers` (R45), `emulators` in installation order (R46),
and whether a `next()` has been called (R171, R251). -/
structure Setup where
  handlers : HandlerTable
  emulators : List Handle
  started : Bool
  deriving DecidableEq, Repr

/-- The dispatcher as constructed: its built-ins and no emulator (R240, step 3). -/
def Setup.initial : Setup := ⟨builtinEntries, [], false⟩

/-- The dispatcher of the block before the first `next()` (R240, step 4). -/
def Setup.block : Setup := ⟨handlerTable, [driverHandle], false⟩

/-- A setup of which a `next()` has been called. -/
def Setup.start (d : Setup) : Setup := { d with started := true }

/-- The handle appended to the emulator list and its entries merged (R171). -/
def Setup.add (d : Setup) (h : Handle) : Setup :=
  { d with handlers := d.handlers ++ h.entries, emulators := d.emulators ++ [h] }

/-- `install(handle)` (R171): refused after the first `next()` (U5, R251); DuplicateHandler, nothing
registered then (R207), where an opcode of the handle is already registered; otherwise the handle is
appended and its entries merged. DESIGN CHOICE (log 15): where several are registered, the error
carries the first of them in the handle's list. -/
def install (h : Handle) (d : Setup) : Host.Outcome Setup Fault Refusal :=
  if d.started then .refused .lateInstall
  else
    match h.entries.find? fun e => registered d.handlers e.1 with
    | some e => .fault (.duplicateHandler e.1)
    | none => .next (d.add h)

end Sys2Proof.Machine
end

