-- ==== Sys2Proof/Machine/Float.lean ====
section
/-!
DEFINITION. The binary32 arithmetic of the mixing view (spec/44_mixing.md R194): addition and
division by a power of two, each computed exactly on integers and rounded once to nearest even.
Values are integers in units of 2^-149, the weight of the last fraction bit of the smallest binade.
-/

namespace Sys2Proof.Machine

/-- The sign bit. -/
def f32Neg (x : F32) : Bool := x.getLsbD 31

/-- The biased exponent field. -/
def f32Exp (x : F32) : Nat := (x.extractLsb' 23 8).toNat

/-- The fraction field. -/
def f32Frac (x : F32) : Nat := (x.extractLsb' 0 23).toNat

/-- Neither an infinity nor a NaN. -/
def f32Finite (x : F32) : Bool := f32Exp x != 255

/-- The magnitude of a finite value, in units of 2^-149. -/
def f32Mag (x : F32) : Nat :=
  if f32Exp x = 0 then f32Frac x else (2 ^ 23 + f32Frac x) * 2 ^ (f32Exp x - 1)

/-- A finite value in units of 2^-149. -/
def f32Units (x : F32) : Int := if f32Neg x then -(f32Mag x : Int) else (f32Mag x : Int)

/-- How many low bits of a magnitude in units of 2^-(149+shift) do not fit a binary32 significand. -/
def f32Drop (m shift : Nat) : Nat := max shift (Nat.log2 m + 1 - 24)

/-- `m` divided by 2^`drop`, rounded to nearest, ties to even. -/
def roundEven (m drop : Nat) : Nat :=
  let q := m / 2 ^ drop
  let r := m % 2 ^ drop
  if 2 ^ drop < 2 * r ∨ (2 * r = 2 ^ drop ∧ q % 2 = 1) then q + 1 else q

/-- The pattern, sign bit clear, of the binary32 value nearest to `m` · 2^-(149+shift); infinity on
overflow. -/
def roundF32 (m shift : Nat) : Nat :=
  let p := (f32Drop m shift - shift) * 2 ^ 23 + roundEven m (f32Drop m shift)
  if 0x7F800000 ≤ p then 0x7F800000 else p

/-- A pattern with the given sign bit. -/
def withSign (neg : Bool) (p : Nat) : F32 :=
  BitVec.ofNat 32 p ||| (if neg then 0x80000000#32 else 0#32)

/-- An exact value in units of 2^-149, rounded to nearest even at `bits` significant bits: what an
accumulator of that precision holds of it. -/
def roundBits (bits : Nat) (z : Int) : Int :=
  let d := Nat.log2 z.natAbs + 1 - bits
  if z < 0 then -((roundEven z.natAbs d * 2 ^ d : Nat) : Int) else ((roundEven z.natAbs d * 2 ^ d : Nat) : Int)

/-- The binary32 value nearest to `z` · 2^-(149+shift), +0.0 for 0. -/
def f32OfUnits (z : Int) (shift : Nat) : F32 := withSign (decide (z < 0)) (roundF32 z.natAbs shift)

/-- The NaN that stands for every NaN result (R12: none arises in the block; log 7). -/
def f32NaN : F32 := 0x7FC00000

/-- Addition where an operand is an infinity or a NaN. -/
def f32AddSpecial (x y : F32) : F32 :=
  if (!f32Finite x && f32Frac x != 0) || (!f32Finite y && f32Frac y != 0) then f32NaN
  else if !f32Finite x && !f32Finite y && f32Neg x != f32Neg y then f32NaN
  else if !f32Finite x then x
  else y

/-- Binary32 addition, round to nearest even. An exact zero is -0.0 only for two negative zeros. -/
def f32Add (x y : F32) : F32 :=
  if f32Finite x && f32Finite y then
    let z := f32Units x + f32Units y
    if z = 0 then withSign (f32Neg x && f32Neg y) 0
    else withSign (decide (z < 0)) (roundF32 z.natAbs 0)
  else f32AddSpecial x y

/-- Binary32 division by 2^`k`, round to nearest even. -/
def f32DivPow2 (x : F32) (k : Nat) : F32 :=
  if f32Finite x then withSign (f32Neg x) (roundF32 (f32Mag x) k)
  else if f32Frac x = 0 then x
  else f32NaN

end Sys2Proof.Machine
end

