-- ==== Sys2Proof/Machine/Mixing.lean ====
section
/-!
DEFINITION. The mixing view (spec/44_mixing.md): derived reads of the output arrays that write no
state, evaluated as the configuration field of R194 says.
-/

namespace Sys2Proof.Machine

/-- R194's sum: in index order from +0.0, rounded after every addition. -/
def sumF32 (xs : List F32) : F32 := xs.foldl f32Add 0

/-- R194's mean of 2^j entries; +0.0 of none (R193). The block's arrays have 4 or 8 entries. -/
def meanF32 (xs : List F32) : F32 :=
  match xs with
  | [] => 0
  | _ :: _ => f32DivPow2 (sumF32 xs) (Nat.log2 xs.length)

/-- The accumulator at position `i` (modulo the number of them), and the others. -/
def takeAt (i : Nat) (xs : List Int) : Int × List Int :=
  (xs.getD (i % xs.length) 0, xs.eraseIdx (i % xs.length))

/-- One addition of another evaluation: two accumulators leave the list, and their sum, rounded to the
accumulator's precision, goes to its front. -/
def mergeStep (bits : Nat) (p : Nat × Nat) (xs : List Int) : List Int :=
  let a := takeAt p.1 xs
  let b := takeAt p.2 a.2
  roundBits bits (a.1 + b.1) :: b.2

/-- The first accumulator after `n` additions. -/
def mergeAll (bits : Nat) : Nat → List (Nat × Nat) → List Int → Int
  | 0, _, xs => xs.headD 0
  | n + 1, ps, xs => mergeAll bits n ps.tail (mergeStep bits (ps.headD (0, 0)) xs)

/-- The sum of the entries of an array under another evaluation, in units of 2^-149. -/
def otherSum (merges : List (Nat × Nat)) (bits : Nat) (xs : List F32) : Int :=
  mergeAll bits (xs.length - 1) merges (xs.map f32Units)

/-- The mean under another evaluation: the sum divided by the number of entries, a power of two, and
rounded to binary32; +0.0 of none (R193). (An array with an infinity or a NaN, which R12 rules out, is
left to R194's own evaluation.) -/
def otherMean (merges : List (Nat × Nat)) (bits : Nat) (xs : List F32) : F32 :=
  if xs.all f32Finite then f32OfUnits (otherSum merges bits xs) (Nat.log2 xs.length) else meanF32 xs

/-- The half sum of two outputs with an accumulator of `bits` bits, rounded to binary32. -/
def otherHalf (bits : Nat) (l r : F32) : F32 :=
  if f32Finite l && f32Finite r then f32OfUnits (roundBits bits (f32Units l + f32Units r)) 1
  else f32DivPow2 (f32Add l r) 1

/-- The mean of an output array under the configured evaluation (R190, R191, R194). -/
def mixMean (c : Config) (xs : List F32) : F32 :=
  match c.mixing with
  | .indexOrder => meanF32 xs
  | .other merges extra => otherMean merges (24 + extra) xs

/-- The half sum of two outputs under the configured evaluation (R192, R194). -/
def mixHalf (c : Config) (l r : F32) : F32 :=
  match c.mixing with
  | .indexOrder => f32DivPow2 (f32Add l r) 1
  | .other _ extra => otherHalf (24 + extra) l r

/-- `left_output` (R190). -/
def leftOutput (s : State) : F32 := mixMean s.cfg (leftChannels s)

/-- `right_output` (R191). -/
def rightOutput (s : State) : F32 := mixMean s.cfg (rightChannels s)

/-- `mono_output` (R192). -/
def monoOutput (s : State) : F32 := mixHalf s.cfg (leftOutput s) (rightOutput s)

end Sys2Proof.Machine
end

