-- ==== Sys2Proof/Machine/HostInterface.lean ====
section
/-!
DEFINITION. The host's side (spec/00_scope.md R9, spec/70_reset_and_hazards.md R247): the context it
reads (R168), the block with its handlers and emulators as the host holds it, and the calls it can make,
the ones the spec leaves without meaning refused by name.
-/

namespace Sys2Proof.Machine

/-- The context's three counters (R168); its `timestamp` has no value (U12). -/
structure Context where
  position : Word32
  samplesPlayed : Word32
  loopsPlayed : Word32
  deriving DecidableEq, Repr

/-- The context as the host and the handlers read it. -/
def context (s : State) : Context := ⟨s.position, s.samplesPlayed, s.loopsPlayed⟩

/-- The block as the host holds it: the dispatcher's handlers and emulators, and the state. -/
structure Session where
  setup : Setup
  state : State
  deriving DecidableEq, Repr

/-- The outcome of a call. -/
abbrev SessionResult := Host.Outcome Session Fault Refusal

/-- Construction of chips, driver and dispatcher (R240, steps 1 to 3). -/
def Session.construct (c : Config) (r : Region) : SessionResult :=
  match Machine.construct c r with
  | .next s => .next ⟨Setup.initial, s⟩
  | .fault f => .fault f
  | .refused f => .refused f

/-- `install(handle)` (R171). -/
def Session.install (h : Handle) (b : Session) : SessionResult :=
  match Machine.install h b.setup with
  | .next d => .next ⟨d, b.state⟩
  | .fault f => .fault f
  | .refused f => .refused f

/-- `next()`: one step of the block whose one handle is the driver; from then on a `next()` has been
called. Any other emulator list is refused (R46, R243, D17: such a block is not this hardware). -/
def Session.next (b : Session) : SessionResult :=
  if b.setup.emulators = [driverHandle] then
    match step b.state with
    | .next s => .next ⟨b.setup.start, s⟩
    | .fault f => .fault f
    | .refused f => .refused f
  else .refused .otherHandles

/-- The calls a host can try. -/
inductive HostCall where
  /-- `next()`. -/
  | next
  /-- `install(handle)` (R171). -/
  | install (h : Handle)
  /-- Any call from inside the sample callback (U6). -/
  | reenter
  /-- A request for the "quality" path (U4). -/
  | qualityMode
  /-- A clock-granular advance (U10). -/
  | advanceClock
  /-- A read of the context's `timestamp` (U12). -/
  | timestamp
  deriving DecidableEq, Repr

/-- What the block answers. -/
def hostCall (c : HostCall) (b : Session) : SessionResult :=
  match c with
  | .next => b.next
  | .install h => b.install h
  | .reenter => .refused .reentry
  | .qualityMode => .refused .qualityMode
  | .advanceClock => .refused .advanceClock
  | .timestamp => .refused .timestampUndefined

end Sys2Proof.Machine
end

