-- ==== Sys2Proof/Safety.lean ====
section
/-!
DEFINITION. What claims about the block are stated in: the invariants of a chip and of the state
(spec/10_state.md R30, R32, R33, R50; spec/41_psg_advance.md R123, R129), the relations between
states that frames use, and the value of a binary32 pattern's magnitude.
-/

namespace Sys2Proof.Machine

/-! ### One chip -/

/-- R33: between samples only the low 24 bits of `base_count` are non-zero. -/
def Chip.fractionOk (c : Chip) : Prop := c.baseCount.toNat < 2 ^ 24

/-- R32: only bits `SR_WIDTH`-1 down to 0 of the seed can be non-zero. -/
def Chip.seedOk (cfg : Config) (c : Chip) : Prop := c.noiseSeed.toNat < 2 ^ cfg.width

/-- R129 (a): in periodic mode the seed has exactly one bit set. -/
def Chip.oneHotOk (cfg : Config) (c : Chip) : Prop :=
  c.noiseMode = .periodic → ∃ j, j < cfg.width ∧ c.noiseSeed = BitVec.ofNat 16 (2 ^ j)

/-- R24, R104: the stored noise period is 32, 64 or 128, or a copy of `tone[2].freq` that is not 0. -/
def Chip.noiseFreqOk (c : Chip) : Prop :=
  if c.noiseRef then 1 ≤ c.noiseFreq.toNat ∧ c.noiseFreq.toNat ≤ 1023
  else c.noiseFreq = 32 ∨ c.noiseFreq = 64 ∨ c.noiseFreq = 128

/-- R30: `mute` keeps its reset value. -/
def Chip.unmuted (c : Chip) : Prop :=
  c.tone0.mute = false ∧ c.tone1.mute = false ∧ c.tone2.mute = false

/-- The magnitude of a binary32 value is at most 1.0 (for a NaN it is not). -/
def f32AtMostOne (x : F32) : Prop := x.toNat % 2 ^ 31 ≤ 0x3F800000

/-- Four values of magnitude at most 1.0. -/
def Quad.atMostOne (q : Quad) : Prop :=
  f32AtMostOne q.ch0 ∧ f32AtMostOne q.ch1 ∧ f32AtMostOne q.ch2 ∧ f32AtMostOne q.ch3

/-- The invariant of one chip. -/
def Chip.Inv (cfg : Config) (c : Chip) : Prop :=
  c.fractionOk ∧ c.seedOk cfg ∧ c.oneHotOk cfg ∧ c.noiseFreqOk ∧ c.unmuted ∧ c.channels.atMostOne

/-! ### The state -/

/-- R146: with `GG_STEREO_OFF` set the masks keep 0xFF. -/
def State.masksOk (s : State) : Prop :=
  s.cfg.ggStereoOff = true → s.port0.ggStereo = 0xFF ∧ s.port1.ggStereo = 0xFF

/-- R174: a looping stream is never `Ended`; without a loop `loops_played` stays 0 and `position`
counts the same samples as `samples_played` (R175 (1)). -/
def State.loopOk (s : State) : Prop :=
  if s.cfg.hasLoop then s.endOfStream = false
  else s.loopsPlayed = 0 ∧ s.position = s.samplesPlayed

/-- Only the four errors a transaction can raise are held in `fault` (R200), UnknownOpcode for a
byte without a handler (R203), DualChipDisabled without a second chip (R204). -/
def State.faultOk (s : State) : Prop :=
  match s.fault with
  | none => True
  | some .prematureEOF => True
  | some .malformedWait => True
  | some (.unknownOpcode b) => registered handlerTable b = false
  | some .dualChipDisabled => s.cfg.dual = false
  | some .alreadyEnded => False
  | some .invalidSetting => False
  | some (.duplicateHandler _) => False

/-- The driver's outputs have magnitude at most 1.0 (R12, R136). -/
def State.outputsOk (s : State) : Prop :=
  s.port0.left.atMostOne ∧ s.port0.right.atMostOne ∧ s.port1.left.atMostOne ∧ s.port1.right.atMostOne

/-- The second chip and its port are in reset state where the block has one chip only (log 5). -/
def State.singleOk (s : State) : Prop :=
  s.cfg.dual = false → s.psg1 = Chip.reset s.cfg ∧ s.port1 = Port.reset

/-- The invariant every step keeps. -/
def State.Inv (s : State) : Prop :=
  s.cfg.legal = true ∧ s.region.wf = true ∧ s.psg0.Inv s.cfg ∧ s.psg1.Inv s.cfg ∧ s.masksOk ∧
    s.loopOk ∧ s.faultOk ∧ s.outputsOk ∧ s.singleOk

/-- The trace numbers its events: there is one per sample (R169, R170), event `j` (from 0) was
emitted at `samples_played` = `j` + 1, and its arrays have 4·N entries (R149). -/
def State.traceOk (s : State) : Prop :=
  s.samplesPlayed = BitVec.ofNat 32 s.trace.length ∧
    ∀ j e, s.trace[j]? = some e →
      e.samplesPlayed = BitVec.ofNat 32 (j + 1) ∧ e.left.length = 4 * s.cfg.chipCount ∧
        e.right.length = 4 * s.cfg.chipCount

/-- A state in which `next()` runs a command: a block that exists, `Running`, not faulted (R160). -/
def State.ready (s : State) : Prop :=
  s.cfg.legal = true ∧ s.fault = none ∧ s.endOfStream = false

/-- The chip a command acts on: chip 0 for `PSGW1` and `GGST1`, chip 1 for `PSGW2` and `GGST2`. -/
def commandChip : Instr → Option ChipId
  | .psgw1 _ => some .c0
  | .ggst1 _ => some .c0
  | .psgw2 _ => some .c1
  | .ggst2 _ => some .c1
  | .wait _ => none
  | .wait60 => none
  | .wait50 => none
  | .endMark => none
  | .t0Flo _ _ => none
  | .t0Vol _ _ => none
  | .t1Flo _ _ => none
  | .t1Vol _ _ => none
  | .t2Flo _ _ => none
  | .t2Vol _ _ => none
  | .nCtl _ _ => none
  | .nVol _ _ => none
  | .data _ _ _ => none

/-! ### Relations for frames -/

/-- The parts of a chip a sample leaves alone: its registers and `adr`, and `mute` (R120, R30). -/
def Chip.sameRegisters (c c' : Chip) : Prop :=
  (∀ i, (c'.tone i).freq = (c.tone i).freq ∧ (c'.tone i).volume = (c.tone i).volume ∧
      (c'.tone i).mute = (c.tone i).mute) ∧
    c'.noiseMode = c.noiseMode ∧ c'.noiseRef = c.noiseRef ∧ c'.noiseFreq = c.noiseFreq ∧
    c'.noiseVolume = c.noiseVolume ∧ c'.adr = c.adr

/-- The parts of a chip a register write leaves alone, but for the seed (R106). -/
def Chip.sameGenerators (c c' : Chip) : Prop :=
  (∀ i, (c'.tone i).count = (c.tone i).count ∧ (c'.tone i).edge = (c.tone i).edge ∧
      (c'.tone i).mute = (c.tone i).mute) ∧
    c'.noiseCount = c.noiseCount ∧ c'.baseCount = c.baseCount ∧ c'.channels = c.channels

/-- Every byte of the region, and the end of it, read as before; the parameters are the same (R72). -/
def State.sameRegion (s s' : State) : Prop :=
  s'.cfg = s.cfg ∧ ∀ a, s'.region.read a = s.region.read a

/-- The largest number of ticks one sample credits, ceiling(`BASE_INCR` / 2^24) (R126 (c), R131). -/
def maxTicks (cfg : Config) : Nat := (baseIncr cfg + (2 ^ 24 - 1)) / 2 ^ 24

/-- The exact sum of finite binary32 values, in units of 2^-149. -/
def unitsSum (xs : List F32) : Int := (xs.map f32Units).sum

/-- Values whose sum no addition can round, in whatever order: multiples of 2^`m` units of 2^-149 whose
magnitudes sum to less than 2^24 times that. -/
def exactSum (m : Nat) (xs : List F32) : Prop :=
  (∀ x ∈ xs, ((2 ^ m : Nat) : Int) ∣ f32Units x) ∧ (xs.map f32Mag).sum < 2 ^ (m + 24)

/-- The number of 1 bits among bits 15..0. -/
def onesCount (v : BitVec 16) : Nat := ((List.range 16).filter fun i => v.getLsbD i).length

/-- `n` successive samples of one chip. -/
def Chip.samples (cfg : Config) : Nat → Chip → Chip
  | 0, c => c
  | n + 1, c => Chip.samples cfg n (c.advance cfg)

/-- The ticks credited over `n` successive samples (R123). -/
def ticksOver (cfg : Config) : Nat → Chip → Nat
  | 0, _ => 0
  | n + 1, c => (tickCount cfg c).toNat + ticksOver cfg n (c.advance cfg)

/-- `n` successive shifts of the LFSR. -/
def lfsrIterate (cfg : Config) (mode : NoiseMode) : Nat → BitVec 16 → BitVec 16
  | 0, s => s
  | n + 1, s => lfsrIterate cfg mode n (lfsrStep cfg mode s)

end Sys2Proof.Machine
end

