-- ==== Sys2Proof/Laws/Advance.lean ====
section
/-!
SUPPORT. What one sample makes of a chip, said once (spec/41_psg_advance.md R120): the new chip field
by field, the counter tests as statements about integers, and the sign and magnitude of an output.
-/

namespace Sys2Proof.Machine

/-! ### The noise step -/

/-- A shift and a subtraction, or neither (R124). -/
theorem Chip.noiseStep_eq (cfg : Config) (incr : Word32) (c : Chip) :
    c.noiseStep cfg incr =
      (c.withSeed (if noiseDue (noiseSum incr c) then lfsrStep cfg c.noiseMode c.noiseSeed
        else c.noiseSeed)).withNoiseCount
        (if noiseDue (noiseSum incr c) then noiseSum incr c - noisePeriod c else noiseSum incr c) := by
  unfold Chip.noiseStep
  split <;> rfl

/-- The accumulator takes no part in the noise step. -/
theorem Chip.noiseStep_withBase (cfg : Config) (n b : Word32) (c : Chip) :
    (c.withBase b).noiseStep cfg n = (c.noiseStep cfg n).withBase b := by
  have e : noiseSum n (c.withBase b) = noiseSum n c := rfl
  unfold Chip.noiseStep
  rw [e]
  cases noiseDue (noiseSum n c)
  · rfl
  · rfl

/-- The noise step writes the noise counter and the seed (R124). -/
theorem Chip.noiseStep_fields (cfg : Config) (n : Word32) (c : Chip) :
    ∃ nc ns, c.noiseStep cfg n = { c with noiseCount := nc, noiseSeed := ns } := by
  unfold Chip.noiseStep
  cases noiseDue (noiseSum n c)
  · exact ⟨_, _, rfl⟩
  · exact ⟨_, _, rfl⟩

/-! ### The sample -/

/-- The three tone channels: every field after them (R130, R132). -/
theorem Chip.tonePart_eq (cfg : Config) (n : Word32) (c : Chip) :
    c.tonePart cfg n =
      { c with
        tone0 := c.tone0.step cfg n
        tone1 := c.tone1.step cfg n
        tone2 := c.tone2.step cfg n
        channels :=
          ⟨toneLevel cfg (c.tone0.step cfg n), toneLevel cfg (c.tone1.step cfg n),
            toneLevel cfg (c.tone2.step cfg n), c.channels.ch3⟩ } := rfl

/-- The noise output after the noise step (R124, R127). -/
theorem Chip.noiseOutput_eq (cfg : Config) (c : Chip) (b nc : Word32) (ns : BitVec 16) :
    Chip.noiseOutput cfg (Chip.withBase { c with noiseCount := nc, noiseSeed := ns } b) =
      { c with
        noiseCount := nc
        noiseSeed := ns
        baseCount := b
        channels := c.channels.setNoise (noiseLevel cfg { c with noiseCount := nc, noiseSeed := ns }) } :=
  rfl

/-- The tone channels after the noise output (R120). -/
theorem Chip.tones_after_noise (cfg : Config) (c : Chip) (n b nc : Word32) (ns : BitVec 16) :
    (Chip.noiseOutput cfg
        (Chip.withBase { c with noiseCount := nc, noiseSeed := ns } b)).tonePart cfg n =
      { c with
        tone0 := c.tone0.step cfg n
        tone1 := c.tone1.step cfg n
        tone2 := c.tone2.step cfg n
        noiseCount := nc
        noiseSeed := ns
        baseCount := b
        channels :=
          ⟨toneLevel cfg (c.tone0.step cfg n), toneLevel cfg (c.tone1.step cfg n),
            toneLevel cfg (c.tone2.step cfg n),
            noiseLevel cfg { c with noiseCount := nc, noiseSeed := ns }⟩ } := by
  rw [Chip.noiseOutput_eq, Chip.tonePart_eq]
  rfl

/-- R120: every field of the chip after a sample. -/
theorem Chip.advance_eq (cfg : Config) (c : Chip) :
    c.advance cfg =
      { c with
        tone0 := c.tone0.step cfg (tickCount cfg c)
        tone1 := c.tone1.step cfg (tickCount cfg c)
        tone2 := c.tone2.step cfg (tickCount cfg c)
        noiseCount := (c.noiseStep cfg (tickCount cfg c)).noiseCount
        noiseSeed := (c.noiseStep cfg (tickCount cfg c)).noiseSeed
        baseCount := rateSum cfg c &&& 0xFFFFFF#32
        channels :=
          ⟨toneLevel cfg (c.tone0.step cfg (tickCount cfg c)),
            toneLevel cfg (c.tone1.step cfg (tickCount cfg c)),
            toneLevel cfg (c.tone2.step cfg (tickCount cfg c)),
            noiseLevel cfg (c.noiseStep cfg (tickCount cfg c))⟩ } := by
  unfold Chip.advance Chip.noisePart Chip.rateStep
  generalize rateSum cfg c &&& 0xFFFFFF#32 = b
  generalize tickCount cfg c = n
  rw [Chip.noiseStep_withBase]
  obtain ⟨nc, ns, e⟩ := Chip.noiseStep_fields cfg n c
  rw [e, Chip.tones_after_noise]

theorem Chip.advance_tone (cfg : Config) (c : Chip) (i : ToneId) :
    (c.advance cfg).tone i = (c.tone i).step cfg (tickCount cfg c) := by
  cases i <;> simp only [Chip.advance_eq, Chip.tone_t0, Chip.tone_t1, Chip.tone_t2]

theorem Chip.advance_channel (cfg : Config) (c : Chip) (i : ToneId) :
    (c.advance cfg).channels.tone i = toneLevel cfg ((c.tone i).step cfg (tickCount cfg c)) := by
  cases i <;> simp only [Chip.advance_eq, Chip.tone_t0, Chip.tone_t1, Chip.tone_t2, Quad.tone]

theorem Chip.advance_noiseSeed (cfg : Config) (c : Chip) :
    (c.advance cfg).noiseSeed =
      if noiseDue (noiseSum (tickCount cfg c) c) then lfsrStep cfg c.noiseMode c.noiseSeed
      else c.noiseSeed := by
  rw [Chip.advance_eq, Chip.noiseStep_eq]; rfl

theorem Chip.advance_noiseCount (cfg : Config) (c : Chip) :
    (c.advance cfg).noiseCount =
      if noiseDue (noiseSum (tickCount cfg c) c) then noiseSum (tickCount cfg c) c - noisePeriod c
      else noiseSum (tickCount cfg c) c := by
  rw [Chip.advance_eq, Chip.noiseStep_eq]; rfl

theorem Chip.advance_baseCount (cfg : Config) (c : Chip) :
    (c.advance cfg).baseCount = rateSum cfg c &&& 0xFFFFFF#32 := by rw [Chip.advance_eq]

theorem Chip.advance_noiseChannel (cfg : Config) (c : Chip) :
    (c.advance cfg).channels.ch3 =
      outputLevel cfg ((c.advance cfg).noiseSeed.getLsbD 0) (cfg.volume c.noiseVolume) := by
  simp only [Chip.advance_eq, Chip.noiseStep_eq, noiseLevel, Chip.withNoiseCount_noiseSeed,
    Chip.withNoiseCount_noiseVolume, Chip.withSeed_noiseVolume]

@[simp] theorem Chip.advance_noiseMode (cfg : Config) (c : Chip) :
    (c.advance cfg).noiseMode = c.noiseMode := by rw [Chip.advance_eq]
@[simp] theorem Chip.advance_noiseRef (cfg : Config) (c : Chip) :
    (c.advance cfg).noiseRef = c.noiseRef := by rw [Chip.advance_eq]
@[simp] theorem Chip.advance_noiseFreq (cfg : Config) (c : Chip) :
    (c.advance cfg).noiseFreq = c.noiseFreq := by rw [Chip.advance_eq]
@[simp] theorem Chip.advance_noiseVolume (cfg : Config) (c : Chip) :
    (c.advance cfg).noiseVolume = c.noiseVolume := by rw [Chip.advance_eq]
@[simp] theorem Chip.advance_adr (cfg : Config) (c : Chip) : (c.advance cfg).adr = c.adr := by
  rw [Chip.advance_eq]

/-! ### One tone -/

@[simp] theorem Tone.step_freq (cfg : Config) (incr : Word32) (t : Tone) :
    (t.step cfg incr).freq = t.freq := by unfold Tone.step; split <;> rfl
@[simp] theorem Tone.step_volume (cfg : Config) (incr : Word32) (t : Tone) :
    (t.step cfg incr).volume = t.volume := by unfold Tone.step; split <;> rfl
@[simp] theorem Tone.step_mute (cfg : Config) (incr : Word32) (t : Tone) :
    (t.step cfg incr).mute = t.mute := by unfold Tone.step; split <;> rfl

theorem Tone.step_count (cfg : Config) (incr : Word32) (t : Tone) :
    (t.step cfg incr).count =
      if toneDue (toneSum incr t) then afterEvent (tonePeriod cfg t.freq) (toneSum incr t)
      else toneSum incr t := by unfold Tone.step; split <;> rfl

theorem Tone.step_edge (cfg : Config) (incr : Word32) (t : Tone) :
    (t.step cfg incr).edge =
      if toneDue (toneSum incr t) then nextEdge (tonePeriod cfg t.freq) t.edge else t.edge := by
  unfold Tone.step; split <;> rfl

/-- The period a tone subtracts (R130, R134). -/
theorem tonePeriod_toNat (cfg : Config) (f : BitVec 10) :
    (tonePeriod cfg f).toNat =
      if cfg.freq0Applies = true ∧ cfg.freq0 = true ∧ f = 0 then 1024 else f.toNat := by
  unfold tonePeriod
  by_cases h : cfg.freq0Applies = true ∧ cfg.freq0 = true ∧ f = 0
  · obtain ⟨h1, h2, h3⟩ := h
    simp [h1, h2, h3]
  · have hc : (cfg.freq0Applies && cfg.freq0 && f == 0) = false := by
      cases h1 : cfg.freq0Applies <;> cases h2 : cfg.freq0 <;> simp_all
    rw [if_neg h, hc]
    have := f.isLt
    simp
    omega

/-! ### The LFSR -/

/-- The parity of 16 bits is the parity of their number of ones (R10). -/
theorem parity_toNat (v : BitVec 16) : (BitVec.ofBool (parity v)).toNat = onesCount v % 2 := by
  have gen : ∀ (l : List Nat) (p : Bool),
      (BitVec.ofBool (l.foldl (fun p i => p ^^ v.getLsbD i) p)).toNat =
        (p.toNat + (l.filter fun i => v.getLsbD i).length) % 2 := by
    intro l
    induction l with
    | nil => intro p; cases p <;> rfl
    | cons a l ih =>
      intro p
      rw [List.foldl_cons, ih]
      cases h : v.getLsbD a <;> cases p <;> simp [h] <;> omega
  simpa [parity, onesCount] using gen (List.range 16) false

/-- A shift right with a bit taken in at the top of a width (R125). -/
theorem shiftIn_toNat {w : Nat} (hw : 1 ≤ w) (hw' : w ≤ 16) {seed : BitVec 16}
    (hs : seed.toNat < 2 ^ w) (fb : Bool) :
    ((seed >>> 1) ||| ((BitVec.ofBool fb).setWidth 16 <<< (w - 1))).toNat =
      seed.toNat / 2 + 2 ^ (w - 1) * (BitVec.ofBool fb).toNat := by
  have hw2 : w - 1 < 16 := by omega
  have h1 : ((BitVec.ofBool fb).setWidth 16 <<< (w - 1)).toNat =
      2 ^ (w - 1) * (BitVec.ofBool fb).toNat := by
    cases fb
    · simp
    · have h : ∀ n < 16, ((BitVec.ofBool true).setWidth 16 <<< n).toNat = 2 ^ n := by decide
      rw [h _ hw2]
      simp
  have h2 : seed.toNat / 2 < 2 ^ (w - 1) := by
    have e : 2 ^ w = 2 * 2 ^ (w - 1) := by rw [← pow_succ']; congr 1; omega
    omega
  rw [BitVec.toNat_or, h1, BitVec.toNat_ushiftRight, Nat.shiftRight_eq_div_pow, Nat.lor_comm,
    ← Nat.two_pow_add_eq_or_of_lt h2]
  simp [Nat.add_comm]

/-- The reload value is the top bit of the width (R32, R104). -/
theorem seedReload_toNat {cfg : Config} (h : cfg.legal = true) :
    (seedReload cfg).toNat = 2 ^ (cfg.width - 1) := by
  have hw := Config.legal_width h
  have hp : ∀ n < 16, (1#16 <<< n).toNat = 2 ^ n := by decide
  exact hp _ (by omega)

/-! ### Outputs -/

/-- The magnitude and the sign of an output (R127, R132, R133). -/
theorem outputLevel_value (cfg : Config) (up : Bool) {v : F32} (hv : v.toNat ≤ 0x3F800000) :
    (outputLevel cfg up v).toNat % 2 ^ 31 = v.toNat ∧
      ((outputLevel cfg up v).getLsbD 31 = true ↔ up = cfg.outputNeg) := by
  have flip : ∀ x : F32, (x ^^^ 0x80000000#32).toNat % 2 ^ 31 = x.toNat % 2 ^ 31 ∧
      (x ^^^ 0x80000000#32).getLsbD 31 = !x.getLsbD 31 := by
    intro x
    constructor
    · rw [BitVec.toNat_xor, Nat.xor_mod_two_pow]; simp
    · rw [BitVec.getLsbD_xor]; simp
  have h31 : v.getLsbD 31 = false := by
    rw [BitVec.getLsbD, Nat.testBit_lt_two_pow]
    omega
  have hm : v.toNat % 2 ^ 31 = v.toNat := Nat.mod_eq_of_lt (by omega)
  unfold outputLevel negF32
  cases up <;> cases cfg.outputNeg <;>
    simp only [flip, h31, hm, if_true, if_false, Bool.false_eq_true, Bool.not_false, Bool.not_true,
      true_and, iff_self, reduceCtorEq]

/-! ### Counter tests -/

/-- A bit of a wrapped sum is that bit of the exact sum's two's complement pattern. -/
theorem getLsbD_add_iff (a b : Word32) (k : Nat) (hk : k < 32) :
    (a + b).getLsbD k = true ↔ (a.toInt + b.toInt) / 2 ^ k % 2 = 1 := by
  have h1 : (2 ^ 32 : Int) ∣ ((a + b).toNat : Int) - (a.toInt + b.toInt) := by
    have e : ((a + b).toNat : Int) = a.toNat + b.toNat ∨
        ((a + b).toNat : Int) = a.toNat + b.toNat - 2 ^ 32 := by
      rw [BitVec.toNat_add]; omega
    have ha : a.toInt = a.toNat ∨ a.toInt = a.toNat - 2 ^ 32 := by
      rw [BitVec.toInt_eq_toNat_cond]; split <;> simp
    have hb : b.toInt = b.toNat ∨ b.toInt = b.toNat - 2 ^ 32 := by
      rw [BitVec.toInt_eq_toNat_cond]; split <;> simp
    omega
  obtain ⟨q, hq⟩ := h1
  have p : (2 : Int) ^ 32 = 2 ^ k * (2 * 2 ^ (31 - k)) := by
    rw [← pow_succ', ← pow_add]; congr 1; omega
  have e : ((a + b).toNat : Int) = (a.toInt + b.toInt) + 2 ^ k * (2 * (2 ^ (31 - k) * q)) := by
    rw [p] at hq
    linear_combination hq
  have h2 : ((a + b).toNat : Int) / 2 ^ k % 2 = (a.toInt + b.toInt) / 2 ^ k % 2 := by
    rw [e, Int.add_mul_ediv_left _ _ (by positivity)]
    omega
  rw [← h2, BitVec.getLsbD, Nat.testBit_eq_decide_div_mod_eq, decide_eq_true_iff]
  exact_mod_cast Iff.rfl

end Sys2Proof.Machine
end

