-- ==== Sys2Proof/Laws/Boot.lean ====
section
/-!
SUPPORT. What `install` and the host's calls can do to the handlers and emulators, said once
(spec/43_dispatcher.md R171, spec/70_reset_and_hazards.md R251).
-/

namespace Sys2Proof.Machine

@[simp] theorem Setup.add_handlers (d : Setup) (h : Handle) :
    (d.add h).handlers = d.handlers ++ h.entries := rfl
@[simp] theorem Setup.add_emulators (d : Setup) (h : Handle) :
    (d.add h).emulators = d.emulators ++ [h] := rfl
@[simp] theorem Setup.add_started (d : Setup) (h : Handle) : (d.add h).started = d.started := rfl
@[simp] theorem Setup.start_handlers (d : Setup) : d.start.handlers = d.handlers := rfl
@[simp] theorem Setup.start_emulators (d : Setup) : d.start.emulators = d.emulators := rfl
@[simp] theorem Setup.start_started (d : Setup) : d.start.started = true := rfl

/-- An installation completes exactly before the first `next()` and with no opcode registered, and then
adds the handle. -/
theorem install_next (h : Handle) (d d' : Setup) :
    install h d = .next d' ↔
      d.started = false ∧ (∀ e ∈ h.entries, registered d.handlers e.1 = false) ∧ d' = d.add h := by
  unfold install
  cases d.started
  · cases hf : h.entries.find? fun e => registered d.handlers e.1 with
    | some e =>
      have he : registered d.handlers e.1 = true := by simpa using List.find?_some hf
      have hm := List.mem_of_find?_eq_some hf
      constructor
      · intro hn
        cases hn
      · rintro ⟨-, hn, -⟩
        rw [hn e hm] at he
        cases he
    | none =>
      have hn : ∀ e ∈ h.entries, registered d.handlers e.1 = false := by
        simpa using List.find?_eq_none.1 hf
      constructor
      · intro h'
        cases h'
        exact ⟨rfl, hn, rfl⟩
      · rintro ⟨-, -, rfl⟩
        rfl
  · constructor
    · intro hn
      cases hn
    · rintro ⟨hn, -⟩
      cases hn

/-- A completed `next()` is one step of the block with the driver, and is remembered. -/
theorem Session.next_next (b b' : Session) :
    b.next = .next b' ↔
      b.setup.emulators = [driverHandle] ∧ step b.state = .next b'.state ∧
        b'.setup = b.setup.start := by
  unfold Session.next
  by_cases he : b.setup.emulators = [driverHandle]
  · rw [if_pos he]
    cases hs : step b.state <;> constructor
    · intro h
      cases h
      exact ⟨he, rfl, rfl⟩
    · rintro ⟨-, h, hb⟩
      cases h
      rw [← hb]
    all_goals intro h
    · cases h
    · cases h.2.1
    · cases h
    · cases h.2.1
  · rw [if_neg he]
    constructor
    · intro h
      cases h
    · intro h
      exact absurd h.1 he

end Sys2Proof.Machine
end

