-- ==== Sys2Proof/Laws/Decode.lean ====
section
/-!
SUPPORT. The small lemmas of the decoder: operands read back from their bytes, and the fields of a
latch byte and of a data byte.
-/

namespace Sys2Proof

@[simp] theorem operand8_byte (b : Byte) (rest : List Byte) :
    operand8 (b :: rest) = (.byte b, rest) := rfl

@[simp] theorem operand16_word (aa bb : Byte) (rest : List Byte) :
    operand16 (aa :: bb :: rest) = (.word (bb ++ aa), rest) := rfl

/-- A 16-bit count is put together again from its two bytes (R83). -/
theorem word_of_halves (n : BitVec 16) :
    (n.extractLsb' 8 8 ++ n.extractLsb' 0 8 : BitVec 16) = n := by
  ext i hi
  simp only [BitVec.getElem_append, BitVec.getElem_extractLsb']
  split
  · simp [BitVec.getLsbD_eq_getElem hi]
  · rename_i h
    have e : 8 + (i - 8) = i := by omega
    simp [e, BitVec.getLsbD_eq_getElem hi]

/-- The fields of a latch byte (R86, R87). -/
theorem latch_fields : ∀ (r : BitVec 3) (d : BitVec 4),
    (1#1 ++ r ++ d : Byte).getLsbD 7 = true ∧ (1#1 ++ r ++ d : Byte).extractLsb' 4 3 = r ∧
      (1#1 ++ r ++ d : Byte).extractLsb' 0 4 = d := by decide

/-- The fields of a data byte (R88). -/
theorem data_fields : ∀ (x : BitVec 1) (d6 : BitVec 6),
    (0#1 ++ x ++ d6 : Byte).getLsbD 7 = false ∧ (0#1 ++ x ++ d6 : Byte).extractLsb' 6 1 = x ∧
      (0#1 ++ x ++ d6 : Byte).extractLsb' 0 6 = d6 := by decide

/-- A latch byte selects by its register field (R87). -/
theorem decodeWriteByte_latch (k : ChipId) (r : BitVec 3) (d : BitVec 4) :
    decodeWriteByte k (1#1 ++ r ++ d) = decodeLatch k r d := by
  obtain ⟨h7, hr, hd⟩ := latch_fields r d
  simp only [decodeWriteByte, h7, hr, hd, if_true]

/-- A data byte keeps its seven bits (R88). -/
theorem decodeWriteByte_data (k : ChipId) (x : BitVec 1) (d6 : BitVec 6) :
    decodeWriteByte k (0#1 ++ x ++ d6) = .data k x d6 := by
  obtain ⟨h7, hx, hd⟩ := data_fields x d6
  simp only [decodeWriteByte, h7, hx, hd, Bool.false_eq_true, if_false]

/-- The two bytes of a 16-bit count (R64, R83). -/
theorem halves_of_word (aa bb : Byte) :
    (bb ++ aa : BitVec 16).extractLsb' 0 8 = aa ∧ (bb ++ aa : BitVec 16).extractLsb' 8 8 = bb := by
  constructor
  · ext i hi
    rw [BitVec.getElem_extractLsb', BitVec.getLsbD_append, if_pos (by omega),
      BitVec.getLsbD_eq_getElem (by omega)]
    simp
  · ext i hi
    rw [BitVec.getElem_extractLsb', BitVec.getLsbD_append, if_neg (by omega),
      BitVec.getLsbD_eq_getElem (by omega)]
    simp

/-- An operand's bytes are the bytes read for it (R80). -/
theorem operand8_bytes (bs : List Byte) : (operand8 bs).1.bytes ++ (operand8 bs).2 = bs := by
  cases bs <;> rfl

theorem operand16_bytes (bs : List Byte) : (operand16 bs).1.bytes ++ (operand16 bs).2 = bs := by
  match bs with
  | [] => rfl
  | [_] => rfl
  | aa :: bb :: rest =>
    simp only [operand16, Operand16.bytes, (halves_of_word aa bb).1, (halves_of_word aa bb).2]
    rfl

/-- A byte is put together again from the fields it is read into (R86). -/
theorem byte_of_fields : ∀ b : Byte,
    (b.getLsbD 7 = true → 1#1 ++ b.extractLsb' 4 3 ++ b.extractLsb' 0 4 = b) ∧
      (b.getLsbD 7 = false → 0#1 ++ b.extractLsb' 6 1 ++ b.extractLsb' 0 6 = b) := by decide

/-- The opcode bytes with a handler are the eight of R81. -/
theorem decodeCommand_error (op : Byte) (rest : List Byte) :
    (∃ e, decodeCommand op rest = .error e) ↔
      ¬ (op = 0x30#8 ∨ op = 0x3F#8 ∨ op = 0x4F#8 ∨ op = 0x50#8 ∨ op = 0x61#8 ∨ op = 0x62#8 ∨
        op = 0x63#8 ∨ op = 0x66#8) := by
  unfold decodeCommand
  split_ifs <;> simp_all

end Sys2Proof
end

