-- ==== Sys2Proof/Laws/Float.lean ====
section
/-!
SUPPORT. The value of a binary32 pattern and of a rounded magnitude, said once
(spec/44_mixing.md R194).
-/

namespace Sys2Proof.Machine

/-- The fields of a pattern. -/
theorem f32_fields (x : F32) :
    f32Exp x = x.toNat / 2 ^ 23 % 256 ∧ f32Frac x = x.toNat % 2 ^ 23 ∧
      f32Neg x = decide (x.toNat / 2 ^ 31 % 2 = 1) := by
  refine ⟨?_, ?_, ?_⟩
  · simp only [f32Exp, BitVec.extractLsb'_toNat, Nat.shiftRight_eq_div_pow]
  · simp only [f32Frac, BitVec.extractLsb'_toNat, Nat.shiftRight_eq_div_pow]
    omega
  · simp only [f32Neg, BitVec.getLsbD, Nat.testBit_eq_decide_div_mod_eq]

theorem f32Units_natAbs (x : F32) : (f32Units x).natAbs = f32Mag x := by
  unfold f32Units
  split <;> simp

/-- A significand `q` at binade `e`, laid out as a pattern, has the magnitude `q` · 2^`e`. -/
theorem f32Mag_pattern (e q : Nat) (hq : q ≤ 2 ^ 24) (h : e = 0 ∨ 2 ^ 23 ≤ q)
    (hp : e * 2 ^ 23 + q < 255 * 2 ^ 23) :
    f32Mag (BitVec.ofNat 32 (e * 2 ^ 23 + q)) = q * 2 ^ e ∧
      f32Finite (BitVec.ofNat 32 (e * 2 ^ 23 + q)) = true := by
  have ht : (BitVec.ofNat 32 (e * 2 ^ 23 + q)).toNat = e * 2 ^ 23 + q := by
    rw [BitVec.toNat_ofNat]; omega
  have hf : f32Exp (BitVec.ofNat 32 (e * 2 ^ 23 + q)) = (e * 2 ^ 23 + q) / 2 ^ 23 := by
    rw [(f32_fields _).1, ht]; omega
  constructor
  · unfold f32Mag
    rw [hf, (f32_fields _).2.1, ht]
    by_cases h1 : q < 2 ^ 23
    · have he : e = 0 := by omega
      subst he
      rw [if_pos (by omega)]
      simp
      omega
    · by_cases h2 : q < 2 ^ 24
      · have e1 : (e * 2 ^ 23 + q) / 2 ^ 23 = e + 1 := by omega
        have e2 : (e * 2 ^ 23 + q) % 2 ^ 23 = q - 2 ^ 23 := by omega
        rw [e1, e2, if_neg (by omega), show 2 ^ 23 + (q - 2 ^ 23) = q by omega]
        rfl
      · have hq' : q = 2 ^ 24 := by omega
        subst hq'
        have e1 : (e * 2 ^ 23 + 2 ^ 24) / 2 ^ 23 = e + 2 := by omega
        have e2 : (e * 2 ^ 23 + 2 ^ 24) % 2 ^ 23 = 0 := by omega
        rw [e1, e2, if_neg (by omega), show e + 2 - 1 = e + 1 by omega, pow_succ]
        ring
  · unfold f32Finite
    rw [hf]
    simp only [bne_iff_ne]
    omega

/-- A sign bit changes neither the exponent nor the fraction. -/
theorem withSign_fields (n : Bool) (p : Nat) (hp : p < 2 ^ 31) :
    f32Exp (withSign n p) = f32Exp (BitVec.ofNat 32 p) ∧
      f32Frac (withSign n p) = f32Frac (BitVec.ofNat 32 p) ∧ f32Neg (withSign n p) = n := by
  have t : (withSign n p).toNat = p + (if n then 2 ^ 31 else 0) := by
    unfold withSign
    cases n
    · simp
      omega
    · rw [BitVec.toNat_or, Nat.lor_comm, BitVec.toNat_ofNat]
      have h := Nat.two_pow_add_eq_or_of_lt hp 1
      simp only [if_true]
      rw [show (0x80000000#32).toNat = 2 ^ 31 * 1 from rfl, show p % 2 ^ 32 = p by omega, ← h]
      omega
  have ep : (BitVec.ofNat 32 p).toNat = p := by simp; omega
  rw [(f32_fields _).1, (f32_fields _).2.1, (f32_fields _).2.2, (f32_fields (BitVec.ofNat 32 p)).1,
    (f32_fields (BitVec.ofNat 32 p)).2.1, t, ep]
  cases n <;> simp <;> omega

/-! ### Rounding -/

theorem roundEven_le {m d n : Nat} (h : m ≤ n * 2 ^ d) : roundEven m d ≤ n := by
  unfold roundEven
  have hp : 0 < 2 ^ d := by positivity
  have hd := Nat.div_add_mod m (2 ^ d)
  have hq : m / 2 ^ d ≤ n := by rw [Nat.div_le_iff_le_mul_add_pred hp]; nlinarith
  dsimp only
  split
  · rename_i hc
    have hne : m / 2 ^ d ≠ n := by
      intro he
      rw [he] at hd
      have e := Nat.mul_comm (2 ^ d) n
      have hz : m % 2 ^ d = 0 := by omega
      rw [hz] at hc
      rcases hc with hc | hc <;> omega
    omega
  · exact hq

theorem roundEven_ge (m d : Nat) : m / 2 ^ d ≤ roundEven m d := by
  unfold roundEven
  dsimp only
  split <;> omega

/-- Rounding moves a magnitude by at most half a unit. -/
theorem roundEven_error (m d : Nat) :
    2 * ((roundEven m d * 2 ^ d : Nat) - (m : Int)).natAbs ≤ 2 ^ d := by
  have hp : 0 < 2 ^ d := by positivity
  have hd := Nat.div_add_mod m (2 ^ d)
  have hr := Nat.mod_lt m hp
  unfold roundEven
  dsimp only
  generalize m / 2 ^ d = q at *
  generalize m % 2 ^ d = r at *
  generalize 2 ^ d = D at *
  split
  · rename_i hc
    have e : (((q + 1) * D : Nat) : Int) - m = D - r := by rw [← hd]; push_cast; ring
    rw [e]
    omega
  · rename_i hc
    have e : ((q * D : Nat) : Int) - m = -r := by rw [← hd]; push_cast; ring
    rw [e]
    omega

/-- The pattern `roundF32` gives, where nothing overflows: its magnitude, and that it is finite. -/
theorem roundF32_value (m shift : Nat) (h : m < 2 ^ (276 + shift)) :
    f32Mag (BitVec.ofNat 32 (roundF32 m shift)) =
        roundEven m (f32Drop m shift) * 2 ^ (f32Drop m shift - shift) ∧
      f32Finite (BitVec.ofNat 32 (roundF32 m shift)) = true ∧ roundF32 m shift < 2 ^ 31 := by
  have hd1 : f32Drop m shift ≤ 252 + shift := by
    unfold f32Drop
    by_cases h0 : m = 0
    · subst h0
      simp
    · have hl := (Nat.log2_lt h0).2 h
      omega
  have hm : m < 2 ^ (f32Drop m shift + 24) := by
    by_cases h0 : m = 0
    · subst h0
      positivity
    · rw [← Nat.log2_lt h0]
      unfold f32Drop
      omega
  have hq : roundEven m (f32Drop m shift) ≤ 2 ^ 24 := by
    apply roundEven_le
    rw [← pow_add, Nat.add_comm 24]
    omega
  have hlow : f32Drop m shift - shift = 0 ∨ 2 ^ 23 ≤ roundEven m (f32Drop m shift) := by
    by_cases hc : f32Drop m shift - shift = 0
    · exact Or.inl hc
    · right
      have h0 : m ≠ 0 := by
        rintro rfl
        apply hc
        unfold f32Drop
        simp
      have hdd : f32Drop m shift = Nat.log2 m + 1 - 24 := by unfold f32Drop at hc ⊢; omega
      have hl : 2 ^ Nat.log2 m ≤ m := Nat.log2_self_le h0
      have e : 2 ^ Nat.log2 m = 2 ^ 23 * 2 ^ f32Drop m shift := by rw [← pow_add]; congr 1; omega
      refine le_trans ?_ (roundEven_ge m _)
      rw [Nat.le_div_iff_mul_le (by positivity)]
      omega
  have hp : (f32Drop m shift - shift) * 2 ^ 23 + roundEven m (f32Drop m shift) < 255 * 2 ^ 23 := by
    omega
  have hr : roundF32 m shift =
      (f32Drop m shift - shift) * 2 ^ 23 + roundEven m (f32Drop m shift) := by
    unfold roundF32
    dsimp only
    rw [if_neg (by omega)]
  have hv := f32Mag_pattern _ _ hq hlow hp
  rw [hr]
  exact ⟨hv.1, hv.2, by omega⟩

/-- A magnitude that its dropped bits divide is not rounded. -/
theorem roundEven_of_dvd {m d : Nat} (h : 2 ^ d ∣ m) : roundEven m d * 2 ^ d = m := by
  have hp : 0 < 2 ^ d := by positivity
  unfold roundEven
  dsimp only
  rw [Nat.mod_eq_zero_of_dvd h, if_neg (by omega)]
  exact Nat.div_mul_cancel h

theorem log2_lt_of_le {m b : Nat} (h : m < 2 ^ b) (hb : 0 < b) : Nat.log2 m < b := by
  by_cases h0 : m = 0
  · subst h0
    simpa using hb
  · exact (Nat.log2_lt h0).2 h

/-! ### An accumulator of at least 24 bits -/

theorem roundBits_natAbs (bits : Nat) (z : Int) :
    (roundBits bits z).natAbs =
      roundEven z.natAbs (Nat.log2 z.natAbs + 1 - bits) * 2 ^ (Nat.log2 z.natAbs + 1 - bits) := by
  unfold roundBits
  dsimp only
  split <;> omega

/-- Rounding moves a value of magnitude at most 2^`b` by at most 2^(`b`-24). -/
theorem roundBits_error {bits b : Nat} {z : Int} (hz : z.natAbs ≤ 2 ^ b) (hbits : 24 ≤ bits)
    (hb : 24 ≤ b) : (roundBits bits z - z).natAbs ≤ 2 ^ (b - 24) := by
  have hl : Nat.log2 z.natAbs < b + 1 :=
    log2_lt_of_le (lt_of_le_of_lt hz (Nat.pow_lt_pow_right (by omega) (by omega))) (by omega)
  have he := roundEven_error z.natAbs (Nat.log2 z.natAbs + 1 - bits)
  have hd : 2 ^ (Nat.log2 z.natAbs + 1 - bits) ≤ 2 ^ (b - 24 + 1) :=
    Nat.pow_le_pow_right (by omega) (by omega)
  rw [pow_succ] at hd
  unfold roundBits
  dsimp only
  generalize roundEven z.natAbs (Nat.log2 z.natAbs + 1 - bits) *
    2 ^ (Nat.log2 z.natAbs + 1 - bits) = R at *
  generalize 2 ^ (Nat.log2 z.natAbs + 1 - bits) = D at *
  generalize 2 ^ (b - 24) = B at *
  split <;> omega

/-- Rounding does not pass a multiple of 2^`t` that needs at most 24 bits. -/
theorem roundBits_le {bits n t : Nat} {z : Int} (hz : z.natAbs ≤ n * 2 ^ t) (hn : n < 2 ^ 24)
    (hbits : 24 ≤ bits) : (roundBits bits z).natAbs ≤ n * 2 ^ t := by
  have hlt : z.natAbs < 2 ^ (24 + t) := by
    rw [pow_add]
    exact lt_of_le_of_lt hz (Nat.mul_lt_mul_of_pos_right hn (by positivity))
  have hl := log2_lt_of_le hlt (by omega)
  rw [roundBits_natAbs]
  generalize hd : Nat.log2 z.natAbs + 1 - bits = d
  have e : n * 2 ^ t = n * 2 ^ (t - d) * 2 ^ d := by
    rw [Nat.mul_assoc, ← pow_add]
    congr 2
    omega
  rw [e] at hz ⊢
  exact Nat.mul_le_mul_right _ (roundEven_le hz)

/-- A value of at most 24 significant bits is not rounded. -/
theorem roundBits_exact {bits m : Nat} {z : Int} (hm : ((2 ^ m : Nat) : Int) ∣ z)
    (hz : z.natAbs < 2 ^ (m + 24)) (hbits : 24 ≤ bits) : roundBits bits z = z := by
  have hl := log2_lt_of_le hz (by omega)
  have hd : 2 ^ (Nat.log2 z.natAbs + 1 - bits) ∣ z.natAbs :=
    (Nat.pow_dvd_pow 2 (by omega)).trans (Int.natCast_dvd.1 hm)
  have he := roundEven_of_dvd hd
  unfold roundBits
  dsimp only
  rw [he]
  split <;> omega

/-- The value `f32OfUnits` gives, where nothing overflows. -/
theorem f32OfUnits_value {z : Int} {shift : Nat} (h : z.natAbs < 2 ^ (276 + shift)) :
    f32Finite (f32OfUnits z shift) = true ∧
      f32Units (f32OfUnits z shift) =
        (if z < 0 then -1 else 1) * ((roundEven z.natAbs (f32Drop z.natAbs shift) *
          2 ^ (f32Drop z.natAbs shift - shift) : Nat) : Int) := by
  obtain ⟨r1, r2, r3⟩ := roundF32_value z.natAbs shift h
  have sf := withSign_fields (decide (z < 0)) _ r3
  have hm : f32Mag (f32OfUnits z shift) = f32Mag (BitVec.ofNat 32 (roundF32 z.natAbs shift)) := by
    unfold f32Mag f32OfUnits
    rw [sf.1, sf.2.1]
  constructor
  · unfold f32Finite f32OfUnits at *
    rw [sf.1]
    exact r2
  · rw [f32Units, hm, r1, f32OfUnits, sf.2.2]
    by_cases hn : z < 0 <;> simp [hn]

end Sys2Proof.Machine
end

