-- ==== Sys2Proof/Laws/Mixing.lean ====
section
/-!
SUPPORT. What the mixing view gives under each evaluation of its configuration field, said once
(spec/44_mixing.md R190 to R194).
-/

namespace Sys2Proof.Machine

/-! ### R194's own evaluation -/

theorem mixMean_indexOrder {c : Config} (h : c.mixing = .indexOrder) (xs : List F32) :
    mixMean c xs = meanF32 xs := by
  simp [mixMean, h]

theorem mixHalf_indexOrder {c : Config} (h : c.mixing = .indexOrder) (l r : F32) :
    mixHalf c l r = f32DivPow2 (f32Add l r) 1 := by
  simp [mixHalf, h]

/-- The mean of 2^`k` entries is the sum divided by 2^`k`. -/
theorem meanF32_of_length {xs : List F32} {k : Nat} (h : xs.length = 2 ^ k) :
    meanF32 xs = f32DivPow2 (xs.foldl f32Add 0) k := by
  cases xs with
  | nil => exact absurd h (Nat.ne_of_lt (by positivity))
  | cons x xs => rw [meanF32, h, Nat.log2_two_pow, sumF32]

/-! ### Another evaluation -/

theorem mixMean_other {c : Config} {ps : List (Nat × Nat)} {e : Nat} (h : c.mixing = .other ps e)
    (xs : List F32) : mixMean c xs = otherMean ps (24 + e) xs := by
  simp [mixMean, h]

theorem mixHalf_other {c : Config} {ps : List (Nat × Nat)} {e : Nat} (h : c.mixing = .other ps e)
    (l r : F32) : mixHalf c l r = otherHalf (24 + e) l r := by
  simp [mixHalf, h]

/-- Of two or more accumulators an addition takes two, wherever they stand, and puts their rounded sum
at the front of the others. -/
theorem mergeStep_perm (bits : Nat) (p : Nat × Nat) {xs : List Int} (h : 2 ≤ xs.length) :
    ∃ a b rest, xs.Perm (a :: b :: rest) ∧ mergeStep bits p xs = roundBits bits (a + b) :: rest := by
  have take : ∀ (i : Nat) (ys : List Int), ys ≠ [] →
      ys.Perm ((takeAt i ys).1 :: (takeAt i ys).2) := by
    intro i ys hy
    have hi : i % ys.length < ys.length := Nat.mod_lt _ (List.length_pos_of_ne_nil hy)
    rw [takeAt, List.getD_eq_getElem _ _ hi]
    exact (List.getElem_cons_eraseIdx_perm hi).symm
  have h1 := take p.1 xs (by rintro rfl; simp at h)
  have hne : (takeAt p.1 xs).2 ≠ [] := by
    intro hn
    have := h1.length_eq
    rw [hn] at this
    simp at this
    omega
  exact ⟨_, _, _, h1.trans ((take p.2 _ hne).cons _), rfl⟩

/-- With no additions listed the first two accumulators are added. -/
theorem mergeStep_front (bits : Nat) (a b : Int) (rest : List Int) :
    mergeStep bits (0, 0) (a :: b :: rest) = roundBits bits (a + b) :: rest := by
  simp [mergeStep, takeAt]

/-- With no additions listed the sum is taken in index order, rounded after every addition. -/
theorem mergeAll_front (bits : Nat) (xs : List Int) (a : Int) :
    mergeAll bits xs.length [] (a :: xs) = xs.foldl (fun s x => roundBits bits (s + x)) a := by
  induction xs generalizing a with
  | nil => rfl
  | cons b xs ih =>
    rw [List.length_cons, mergeAll, List.headD_nil, mergeStep_front, List.tail_nil, ih]
    rfl

end Sys2Proof.Machine
end

