-- ==== Sys2Proof/Laws/Ops.lean ====
section
/-!
SUPPORT. What each shared operation can do, said once: fetching, operands, register writes, the
sample loop, and the inversion lemmas of `exec` and `step`.
-/

namespace Sys2Proof.Machine

/-! ### Fetching -/

theorem State.fetch_some {s : State} {b : Byte} (h : s.region.read s.pc = some b) :
    s.fetch = (some b, s.consume 1) := by simp only [State.fetch, h]

theorem State.fetch_none {s : State} (h : s.region.read s.pc = none) : s.fetch = (none, s) := by
  simp only [State.fetch, h]

theorem State.lookahead_cons {s : State} {b : Byte} (h : s.region.read s.pc = some b) (n : Nat) :
    s.lookahead (n + 1) = b :: (s.consume 1).lookahead n := by
  simp only [State.lookahead, State.fetch_some h]

theorem State.lookahead_end {s : State} (h : s.region.read s.pc = none) (n : Nat) :
    s.lookahead n = [] := by
  cases n with
  | zero => rfl
  | succ n => simp only [State.lookahead, State.fetch_none h]

theorem State.consume_zero (s : State) : s.consume 0 = s := rfl

theorem State.consume_consume (s : State) (m n : Nat) : (s.consume m).consume n = s.consume (m + n) := by
  simp only [State.consume, Nat.add_assoc]

/-! ### Operands and register writes -/

@[simp] theorem withByte_byte (b : Byte) (s : State) (k : Byte → State → Result) :
    withByte (.byte b) s k = k b (s.consume 1) := rfl
@[simp] theorem withByte_absent (s : State) (k : Byte → State → Result) :
    withByte .absent s k = .next (s.raise .prematureEOF) := rfl
@[simp] theorem withWord_word (n : BitVec 16) (s : State) (k : BitVec 16 → State → Result) :
    withWord (.word n) s k = k n (s.consume 2) := rfl
@[simp] theorem withWord_absent (s : State) (k : BitVec 16 → State → Result) :
    withWord .absent s k = .next (s.raise .malformedWait) := rfl
@[simp] theorem withWord_highAbsent (aa : Byte) (s : State) (k : BitVec 16 → State → Result) :
    withWord (.highAbsent aa) s k = .next ((s.consume 1).raise .malformedWait) := rfl

theorem writeChip_present {k : ChipId} {c : Chip} {s : State} (h : s.present k = true) :
    writeChip k c s = .next (s.setChip k c) := by simp only [writeChip, h, if_true]

theorem writeChip_missing {k : ChipId} {c : Chip} {s : State} (h : s.present k = false) :
    writeChip k c s = .next (s.raise .dualChipDisabled) := by
  simp [writeChip, h]

/-- What one register-write byte can make of a chip (R100 to R109). -/
inductive ChipWrite (cfg : Config) (c : Chip) : Chip → Prop
  | freqLow (r : BitVec 3) (i : ToneId) (d : BitVec 4) : ChipWrite cfg c ((c.withAdr r).writeFreqLow i d)
  | volume (r : BitVec 3) (i : ToneId) (d : BitVec 4) : ChipWrite cfg c ((c.withAdr r).writeVolume i d)
  | noiseControl (d : BitVec 4) : ChipWrite cfg c ((c.withAdr 6).writeNoiseControl cfg d)
  | noiseVolume (d : BitVec 4) : ChipWrite cfg c ((c.withAdr 7).withNoiseVolume d)
  | data (d6 : BitVec 6) : ChipWrite cfg c (c.writeData d6)

/-- A register-write byte at chip `k` makes one of the writes, or raises DualChipDisabled. -/
theorem psgWrite_cases (k : ChipId) (val : Byte) (s : State) :
    (s.present k = true ∧
        ∃ c, ChipWrite s.cfg (s.chip k) c ∧ psgWrite k val s = .next (s.setChip k c)) ∨
      (s.present k = false ∧ psgWrite k val s = .next (s.raise .dualChipDisabled)) := by
  by_cases hp : s.present k = true
  · refine Or.inl ⟨hp, ?_⟩
    unfold psgWrite
    split
    · unfold psgLatch
      split; exact ⟨_, .freqLow _ _ _, writeChip_present hp⟩
      split; exact ⟨_, .volume _ _ _, writeChip_present hp⟩
      split; exact ⟨_, .freqLow _ _ _, writeChip_present hp⟩
      split; exact ⟨_, .volume _ _ _, writeChip_present hp⟩
      split; exact ⟨_, .freqLow _ _ _, writeChip_present hp⟩
      split; exact ⟨_, .volume _ _ _, writeChip_present hp⟩
      split; exact ⟨_, .noiseControl _, writeChip_present hp⟩
      exact ⟨_, .noiseVolume _, writeChip_present hp⟩
    · exact ⟨_, .data _, writeChip_present hp⟩
  · have hp' : s.present k = false := by simpa using hp
    refine Or.inr ⟨hp', ?_⟩
    unfold psgWrite psgLatch
    split
    · repeat' split
      all_goals exact writeChip_missing hp'
    · exact writeChip_missing hp'

/-! ### Samples -/

@[simp] theorem gate_cfg (k : ChipId) (s : State) : (gate k s).cfg = s.cfg := by
  cases k <;> rfl
@[simp] theorem gate_region (k : ChipId) (s : State) : (gate k s).region = s.region := by
  cases k <;> rfl
@[simp] theorem gate_pc (k : ChipId) (s : State) : (gate k s).pc = s.pc := by
  cases k <;> rfl
@[simp] theorem gate_position (k : ChipId) (s : State) : (gate k s).position = s.position := by
  cases k <;> rfl
@[simp] theorem gate_samplesPlayed (k : ChipId) (s : State) : (gate k s).samplesPlayed = s.samplesPlayed := by
  cases k <;> rfl
@[simp] theorem gate_loopsPlayed (k : ChipId) (s : State) : (gate k s).loopsPlayed = s.loopsPlayed := by
  cases k <;> rfl
@[simp] theorem gate_endOfStream (k : ChipId) (s : State) : (gate k s).endOfStream = s.endOfStream := by
  cases k <;> rfl
@[simp] theorem gate_fault (k : ChipId) (s : State) : (gate k s).fault = s.fault := by
  cases k <;> rfl
@[simp] theorem gate_trace (k : ChipId) (s : State) : (gate k s).trace = s.trace := by
  cases k <;> rfl
@[simp] theorem advanceChip_cfg (k : ChipId) (s : State) : (advanceChip k s).cfg = s.cfg := by
  simp only [advanceChip, gate_cfg, State.setChip_cfg]
@[simp] theorem advanceChip_region (k : ChipId) (s : State) : (advanceChip k s).region = s.region := by
  simp only [advanceChip, gate_region, State.setChip_region]
@[simp] theorem advanceChip_pc (k : ChipId) (s : State) : (advanceChip k s).pc = s.pc := by
  simp only [advanceChip, gate_pc, State.setChip_pc]
@[simp] theorem advanceChip_position (k : ChipId) (s : State) : (advanceChip k s).position = s.position := by
  simp only [advanceChip, gate_position, State.setChip_position]
@[simp] theorem advanceChip_samplesPlayed (k : ChipId) (s : State) : (advanceChip k s).samplesPlayed = s.samplesPlayed := by
  simp only [advanceChip, gate_samplesPlayed, State.setChip_samplesPlayed]
@[simp] theorem advanceChip_loopsPlayed (k : ChipId) (s : State) : (advanceChip k s).loopsPlayed = s.loopsPlayed := by
  simp only [advanceChip, gate_loopsPlayed, State.setChip_loopsPlayed]
@[simp] theorem advanceChip_endOfStream (k : ChipId) (s : State) : (advanceChip k s).endOfStream = s.endOfStream := by
  simp only [advanceChip, gate_endOfStream, State.setChip_endOfStream]
@[simp] theorem advanceChip_fault (k : ChipId) (s : State) : (advanceChip k s).fault = s.fault := by
  simp only [advanceChip, gate_fault, State.setChip_fault]
@[simp] theorem advanceChip_trace (k : ChipId) (s : State) : (advanceChip k s).trace = s.trace := by
  simp only [advanceChip, gate_trace, State.setChip_trace]
@[simp] theorem driverSample_cfg (s : State) : (driverSample s).cfg = s.cfg := by
  unfold driverSample; split <;> simp only [advanceChip_cfg]
@[simp] theorem driverSample_region (s : State) : (driverSample s).region = s.region := by
  unfold driverSample; split <;> simp only [advanceChip_region]
@[simp] theorem driverSample_pc (s : State) : (driverSample s).pc = s.pc := by
  unfold driverSample; split <;> simp only [advanceChip_pc]
@[simp] theorem driverSample_position (s : State) : (driverSample s).position = s.position := by
  unfold driverSample; split <;> simp only [advanceChip_position]
@[simp] theorem driverSample_samplesPlayed (s : State) : (driverSample s).samplesPlayed = s.samplesPlayed := by
  unfold driverSample; split <;> simp only [advanceChip_samplesPlayed]
@[simp] theorem driverSample_loopsPlayed (s : State) : (driverSample s).loopsPlayed = s.loopsPlayed := by
  unfold driverSample; split <;> simp only [advanceChip_loopsPlayed]
@[simp] theorem driverSample_endOfStream (s : State) : (driverSample s).endOfStream = s.endOfStream := by
  unfold driverSample; split <;> simp only [advanceChip_endOfStream]
@[simp] theorem driverSample_fault (s : State) : (driverSample s).fault = s.fault := by
  unfold driverSample; split <;> simp only [advanceChip_fault]
@[simp] theorem driverSample_trace (s : State) : (driverSample s).trace = s.trace := by
  unfold driverSample; split <;> simp only [advanceChip_trace]
@[simp] theorem oneSample_cfg (s : State) : (oneSample s).cfg = s.cfg := by
  simp only [oneSample, driverAdvance, emitSample_cfg, driverSample_cfg, countSample_cfg]
@[simp] theorem oneSample_region (s : State) : (oneSample s).region = s.region := by
  simp only [oneSample, driverAdvance, emitSample_region, driverSample_region, countSample_region]
@[simp] theorem oneSample_pc (s : State) : (oneSample s).pc = s.pc := by
  simp only [oneSample, driverAdvance, emitSample_pc, driverSample_pc, countSample_pc]
@[simp] theorem oneSample_position (s : State) : (oneSample s).position = s.position + 1 := by
  simp only [oneSample, driverAdvance, emitSample_position, driverSample_position, countSample_position]
@[simp] theorem oneSample_samplesPlayed (s : State) : (oneSample s).samplesPlayed = s.samplesPlayed + 1 := by
  simp only [oneSample, driverAdvance, emitSample_samplesPlayed, driverSample_samplesPlayed, countSample_samplesPlayed]
@[simp] theorem oneSample_loopsPlayed (s : State) : (oneSample s).loopsPlayed = s.loopsPlayed := by
  simp only [oneSample, driverAdvance, emitSample_loopsPlayed, driverSample_loopsPlayed, countSample_loopsPlayed]
@[simp] theorem oneSample_endOfStream (s : State) : (oneSample s).endOfStream = s.endOfStream := by
  simp only [oneSample, driverAdvance, emitSample_endOfStream, driverSample_endOfStream, countSample_endOfStream]
@[simp] theorem oneSample_fault (s : State) : (oneSample s).fault = s.fault := by
  simp only [oneSample, driverAdvance, emitSample_fault, driverSample_fault, countSample_fault]
@[simp] theorem advanceSamples_cfg (n : Nat) (s : State) :
    (advanceSamples n s).cfg = s.cfg := by
  induction n generalizing s with
  | zero => rfl
  | succ n ih => simp only [advanceSamples, ih, oneSample_cfg]
@[simp] theorem advanceSamples_region (n : Nat) (s : State) :
    (advanceSamples n s).region = s.region := by
  induction n generalizing s with
  | zero => rfl
  | succ n ih => simp only [advanceSamples, ih, oneSample_region]
@[simp] theorem advanceSamples_pc (n : Nat) (s : State) :
    (advanceSamples n s).pc = s.pc := by
  induction n generalizing s with
  | zero => rfl
  | succ n ih => simp only [advanceSamples, ih, oneSample_pc]
@[simp] theorem advanceSamples_loopsPlayed (n : Nat) (s : State) :
    (advanceSamples n s).loopsPlayed = s.loopsPlayed := by
  induction n generalizing s with
  | zero => rfl
  | succ n ih => simp only [advanceSamples, ih, oneSample_loopsPlayed]
@[simp] theorem advanceSamples_endOfStream (n : Nat) (s : State) :
    (advanceSamples n s).endOfStream = s.endOfStream := by
  induction n generalizing s with
  | zero => rfl
  | succ n ih => simp only [advanceSamples, ih, oneSample_endOfStream]
@[simp] theorem advanceSamples_fault (n : Nat) (s : State) :
    (advanceSamples n s).fault = s.fault := by
  induction n generalizing s with
  | zero => rfl
  | succ n ih => simp only [advanceSamples, ih, oneSample_fault]

/-- What every sample keeps, any number of samples keeps. -/
theorem advanceSamples_induct {P : State → Prop} (hstep : ∀ s, P s → P (oneSample s)) (n : Nat) :
    ∀ s, P s → P (advanceSamples n s) := by
  induction n with
  | zero => exact fun _ h => h
  | succ n ih => exact fun s h => ih _ (hstep s h)

/-- A sample appends one event, that of the state the host then sees (R170). -/
theorem oneSample_trace (s : State) :
    (oneSample s).trace = s.trace ++ [sampleEvent (oneSample s)] := by
  simp only [oneSample, driverAdvance, emitSample_trace, driverSample_trace, countSample_trace]
  rfl

theorem advanceSamples_samplesPlayed (n : Nat) (s : State) :
    (advanceSamples n s).samplesPlayed = s.samplesPlayed + BitVec.ofNat 32 n := by
  induction n generalizing s with
  | zero => simp [advanceSamples]
  | succ n ih =>
    rw [advanceSamples, ih, oneSample_samplesPlayed, BitVec.ofNat_add, BitVec.add_assoc,
      BitVec.add_comm (BitVec.ofNat 32 n)]
    rfl

theorem advanceSamples_position (n : Nat) (s : State) :
    (advanceSamples n s).position = s.position + BitVec.ofNat 32 n := by
  induction n generalizing s with
  | zero => simp [advanceSamples]
  | succ n ih =>
    rw [advanceSamples, ih, oneSample_position, BitVec.ofNat_add, BitVec.add_assoc,
      BitVec.add_comm (BitVec.ofNat 32 n)]
    rfl

theorem advanceSamples_trace_length (n : Nat) (s : State) :
    (advanceSamples n s).trace.length = s.trace.length + n := by
  induction n generalizing s with
  | zero => rfl
  | succ n ih => rw [advanceSamples, ih, oneSample_trace, List.length_append]; simp; omega

/-- The last sample may be taken off as well as the first. -/
theorem advanceSamples_succ (n : Nat) (s : State) :
    advanceSamples (n + 1) s = oneSample (advanceSamples n s) := by
  induction n generalizing s with
  | zero => rfl
  | succ n ih => rw [advanceSamples, ih, ← advanceSamples]

theorem advanceSamples_add (n m : Nat) (s : State) :
    advanceSamples (n + m) s = advanceSamples m (advanceSamples n s) := by
  induction n generalizing s with
  | zero => rw [Nat.zero_add]; rfl
  | succ n ih => rw [show n + 1 + m = n + m + 1 by omega, advanceSamples, ih, advanceSamples]

/-- What a sample makes of one chip and its port (R147, R148). -/
theorem oneSample_chip (k : ChipId) (s : State) :
    (oneSample s).chip k = (if s.present k then (s.chip k).advance s.cfg else s.chip k) ∧
      (oneSample s).port k =
        if s.present k then
          (s.port k).withSides
            (gatedQuad (s.port k).ggStereo 4 ((s.chip k).advance s.cfg).channels)
            (gatedQuad (s.port k).ggStereo 0 ((s.chip k).advance s.cfg).channels)
        else s.port k := by
  unfold oneSample driverAdvance driverAdvance driverSample
  rw [countSample_cfg]
  cases k
  · cases s.cfg.dual <;> exact ⟨rfl, rfl⟩
  · cases h : s.cfg.dual <;> simp only [State.present, h] <;> exact ⟨rfl, rfl⟩

/-- The cursor takes no part in a sample. -/
theorem oneSample_consume (s : State) (m : Nat) :
    oneSample (s.consume m) = (oneSample s).consume m := by
  have hd : driverSample (countSample (s.consume m)) = (driverSample (countSample s)).consume m := by
    unfold driverSample
    by_cases h : s.cfg.dual = true
    · rw [if_pos (c := (countSample (s.consume m)).cfg.dual = true) h,
        if_pos (c := (countSample s).cfg.dual = true) h]
      rfl
    · rw [if_neg (c := (countSample (s.consume m)).cfg.dual = true) h,
        if_neg (c := (countSample s).cfg.dual = true) h]
      rfl
  unfold oneSample driverAdvance driverAdvance
  rw [hd]
  rfl

theorem advanceSamples_consume (n : Nat) (s : State) (m : Nat) :
    advanceSamples n (s.consume m) = (advanceSamples n s).consume m := by
  induction n generalizing s with
  | zero => rfl
  | succ n ih => rw [advanceSamples, advanceSamples, oneSample_consume, ih]

/-! ### What an instruction can do -/

/-- The outcomes of an instruction that answers a next state (R142 to R145, R164 to R167, R110 to
R118): an error behind some fetched bytes, a register write, a mask write or none, a wait, the end,
or the loop. -/
inductive Effect (s : State) : State → Prop
  | raised (n : Nat) (e : Error) (h : e = .prematureEOF ∨ e = .malformedWait ∨
      (e = .dualChipDisabled ∧ s.cfg.dual = false)) : Effect s ((s.consume n).raise e)
  | wrote (n : Nat) (k : ChipId) (c : Chip) (hk : s.present k = true)
      (h : ChipWrite s.cfg (s.chip k) c) : Effect s ((s.consume n).setChip k c)
  | masked (k : ChipId) (mm : Byte) (hk : s.present k = true)
      (h : s.cfg.ggStereoOff = false) : Effect s ((s.consume 1).setPort k ((s.port k).withMask mm))
  | discarded (h : s.cfg.ggStereoOff = true) : Effect s (s.consume 1)
  | waited (m n : Nat) (h : n ≤ 65535) : Effect s (advanceSamples n (s.consume m))
  | finished (h : s.cfg.hasLoop = false) : Effect s (finish s)
  | looped (h : s.cfg.hasLoop = true) (hl : s.cfg.loopLegal = true) : Effect s (loopBack s)

theorem Effect.of_waited {s : State} (n : Nat) (h : n ≤ 65535) : Effect s (advanceSamples n s) := by
  have e := Effect.waited (s := s) 0 n h
  rwa [State.consume_zero] at e

theorem effect_of_psgWrite {k : ChipId} {val : Byte} {s t : State} (n : Nat)
    (h : psgWrite k val (s.consume n) = .next t) : Effect s t := by
  rcases psgWrite_cases k val (s.consume n) with ⟨hp, c, hc, he⟩ | ⟨hp, he⟩
  · rw [he] at h
    cases h
    exact .wrote n k c (by simpa using hp) (by simpa using hc)
  · rw [he] at h
    cases h
    cases k with
    | c0 => exact absurd hp (by simp)
    | c1 => exact .raised n _ (Or.inr (Or.inr ⟨rfl, by simpa using hp⟩))

theorem effect_of_write {k : ChipId} {c : Chip} {s t : State} (hc : ChipWrite s.cfg (s.chip k) c)
    (h : writeChip k c s = .next t) : Effect s t := by
  by_cases hp : s.present k = true
  · rw [writeChip_present hp] at h
    cases h
    exact Effect.wrote 0 k c hp hc
  · have hp' : s.present k = false := by simpa using hp
    rw [writeChip_missing hp'] at h
    cases h
    cases k with
    | c0 => exact absurd hp' (by simp)
    | c1 => exact Effect.raised 0 .dualChipDisabled (Or.inr (Or.inr ⟨rfl, by simpa using hp'⟩))

theorem effect_of_setMask {k : ChipId} (mm : Byte) {s : State} (hk : s.present k = true) :
    Effect s (setMask k mm (s.consume 1)) := by
  unfold setMask
  split
  · rename_i h
    exact .discarded (by simpa using h)
  · rename_i h
    simp only [State.port_consume]
    exact .masked k mm hk (by simpa using h)

theorem effect_of_streamEnd {s t : State} (h : streamEnd s = .next t) : Effect s t := by
  unfold streamEnd at h
  split at h
  · rename_i hl
    cases h
    exact .finished (by simpa using hl)
  · rename_i hl
    split at h
    · rename_i hg
      cases h
      exact .looped (by simpa using hl) hg
    · cases h

/-- The inversion lemma of `exec`. -/
theorem exec_effect {i : Instr} {s t : State} (h : exec i s = .next t) : Effect s t := by
  cases i with
  | psgw2 dd =>
    simp only [exec, execPsgw2, requireDual] at h
    split at h
    · cases dd with
      | byte b => exact effect_of_psgWrite 1 h
      | absent => cases h; exact Effect.raised 0 .prematureEOF (Or.inl rfl)
    · rename_i hd
      cases h
      exact Effect.raised 0 .dualChipDisabled (Or.inr (Or.inr ⟨rfl, by simpa using hd⟩))
  | ggst2 mm =>
    simp only [exec, execGgst2, requireDual] at h
    split at h
    · rename_i hd
      cases mm with
      | byte b => cases h; exact effect_of_setMask (k := .c1) b hd
      | absent => cases h; exact Effect.raised 0 .prematureEOF (Or.inl rfl)
    · rename_i hd
      cases h
      exact Effect.raised 0 .dualChipDisabled (Or.inr (Or.inr ⟨rfl, by simpa using hd⟩))
  | ggst1 mm =>
    cases mm with
    | byte b => cases h; exact effect_of_setMask (k := .c0) b rfl
    | absent => cases h; exact Effect.raised 0 .prematureEOF (Or.inl rfl)
  | psgw1 dd =>
    cases dd with
    | byte b => exact effect_of_psgWrite 1 h
    | absent => cases h; exact Effect.raised 0 .prematureEOF (Or.inl rfl)
  | wait n =>
    cases n with
    | word w => cases h; exact Effect.waited 2 _ (by omega)
    | absent => cases h; exact Effect.raised 0 .malformedWait (Or.inr (Or.inl rfl))
    | highAbsent aa => cases h; exact Effect.raised 1 .malformedWait (Or.inr (Or.inl rfl))
  | wait60 =>
    have e := Host.Outcome.next.inj h
    rw [← e]
    exact Effect.of_waited 735 (by omega)
  | wait50 =>
    have e := Host.Outcome.next.inj h
    rw [← e]
    exact Effect.of_waited 882 (by omega)
  | endMark => exact effect_of_streamEnd h
  | t0Flo k d => exact effect_of_write (.freqLow _ _ _) h
  | t0Vol k d => exact effect_of_write (.volume _ _ _) h
  | t1Flo k d => exact effect_of_write (.freqLow _ _ _) h
  | t1Vol k d => exact effect_of_write (.volume _ _ _) h
  | t2Flo k d => exact effect_of_write (.freqLow _ _ _) h
  | t2Vol k d => exact effect_of_write (.volume _ _ _) h
  | nCtl k d => exact effect_of_write (.noiseControl _) h
  | nVol k d => exact effect_of_write (.noiseVolume _) h
  | data k x d6 => exact effect_of_write (.data _) h

/-! ### What a step can do -/

/-- Legal parameters stop nothing (R241, U8, U9, U2), and only they. -/
theorem configStop_none (c : Config) : configStop c = none ↔ c.legal = true := by
  unfold configStop Config.legal
  cases c.widthLegal <;> cases c.clockLegal <;> cases c.loopLegal <;>
    cases Config.voltabLegal c.voltab <;> simp

theorem blocked_none (s : State) :
    blocked s = none ↔ s.cfg.legal = true ∧ s.fault = none ∧ s.endOfStream = false := by
  unfold blocked
  cases hc : configStop s.cfg with
  | some r =>
    have : s.cfg.legal ≠ true := fun h => by rw [(configStop_none _).2 h] at hc; cases hc
    simp [this]
  | none =>
    have hl := (configStop_none _).1 hc
    cases hf : s.fault with
    | some e => simp
    | none => simp [running, hl]

theorem step_of_ready {s : State} (h : blocked s = none) :
    step s =
      match fetchInstr s with
      | .error e => onReject e s
      | .ok (i, _) => exec i (s.consume 1) := by
  unfold step
  split
  · next hb => rw [h] at hb; cases hb
  · rfl

theorem configStop_not_next {c : Config} {t : State} {r : Result} (h : configStop c = some r) :
    r ≠ .next t := by
  unfold configStop at h
  split_ifs at h <;> (cases h; simp)

/-- Nothing that blocks a call answers a next state. -/
theorem blocked_not_next {s t : State} {r : Result} (h : blocked s = some r) : r ≠ .next t := by
  unfold blocked at h
  cases hc : configStop s.cfg with
  | some stop =>
    rw [hc] at h
    cases h
    exact configStop_not_next hc
  | none =>
    rw [hc] at h
    cases hf : s.fault with
    | some e => rw [hf] at h; cases h; simp
    | none =>
      simp only [hf] at h
      split at h
      · cases h
      · cases h; simp

/-- The inversion lemma of `step`: from a ready state, the end of data, an unknown opcode, or one
instruction. -/
theorem step_cases {s t : State} (h : step s = .next t) :
    blocked s = none ∧
      ((fetchInstr s = .error .endOfData ∧ streamEnd s = .next t) ∨
        (∃ b, fetchInstr s = .error (.unknownOpcode b) ∧
          t = (s.consume 1).raise (.unknownOpcode b)) ∨
        ∃ i rest, fetchInstr s = .ok (i, rest) ∧ exec i (s.consume 1) = .next t) := by
  cases hb : blocked s with
  | some r =>
    simp only [step, hb] at h
    exact absurd h (blocked_not_next hb)
  | none =>
    refine ⟨rfl, ?_⟩
    rw [step_of_ready hb] at h
    cases hf : fetchInstr s with
    | error e =>
      rw [hf] at h
      cases e with
      | endOfData => exact Or.inl ⟨rfl, h⟩
      | unknownOpcode b => cases h; exact Or.inr (Or.inl ⟨b, rfl, rfl⟩)
    | ok p =>
      obtain ⟨i, rest⟩ := p
      rw [hf] at h
      exact Or.inr (Or.inr ⟨i, rest, rfl, h⟩)

end Sys2Proof.Machine
end

