-- ==== Sys2Proof/Laws/PerInstr.lean ====
section
/-!
SUPPORT. Statements about every instruction as syntax, one lemma per constructor.
-/

namespace Sys2Proof.Laws

/-- The fixed bits of each row of spec/opcode_table.json: its match and its mask. -/
def tableMatch : Instr → Byte × Byte
  | .psgw2 _ => (0x30#8, 0xFF#8)
  | .ggst2 _ => (0x3F#8, 0xFF#8)
  | .ggst1 _ => (0x4F#8, 0xFF#8)
  | .psgw1 _ => (0x50#8, 0xFF#8)
  | .wait _ => (0x61#8, 0xFF#8)
  | .wait60 => (0x62#8, 0xFF#8)
  | .wait50 => (0x63#8, 0xFF#8)
  | .endMark => (0x66#8, 0xFF#8)
  | .t0Flo _ _ => (0x80#8, 0xF0#8)
  | .t0Vol _ _ => (0x90#8, 0xF0#8)
  | .t1Flo _ _ => (0xA0#8, 0xF0#8)
  | .t1Vol _ _ => (0xB0#8, 0xF0#8)
  | .t2Flo _ _ => (0xC0#8, 0xF0#8)
  | .t2Vol _ _ => (0xD0#8, 0xF0#8)
  | .nCtl _ _ => (0xE0#8, 0xF0#8)
  | .nVol _ _ => (0xF0#8, 0xF0#8)
  | .data _ _ _ => (0x00#8, 0x80#8)

/-- A complete instruction has the length its row gives (R80, R82). -/
def EncodeLength.Statement (i : Instr) : Prop :=
  i.wellFormed = true → (encode i).length = i.lengthBytes

/-- The first byte of an instruction carries the fixed bits of its row (R81, R87, R88). -/
def FixedBits.Statement (i : Instr) : Prop :=
  ∃ b rest, encode i = b :: rest ∧ b &&& (tableMatch i).2 = (tableMatch i).1

end Sys2Proof.Laws

namespace Sys2Proof.Laws.EncodeLength

theorem psgw2 (dd : Operand8) : Statement (.psgw2 dd) := by
  intro h; cases dd <;> first | rfl | cases h
theorem ggst2 (mm : Operand8) : Statement (.ggst2 mm) := by
  intro h; cases mm <;> first | rfl | cases h
theorem ggst1 (mm : Operand8) : Statement (.ggst1 mm) := by
  intro h; cases mm <;> first | rfl | cases h
theorem psgw1 (dd : Operand8) : Statement (.psgw1 dd) := by
  intro h; cases dd <;> first | rfl | cases h
theorem wait (n : Operand16) : Statement (.wait n) := by
  intro h; cases n <;> first | rfl | cases h
theorem wait60 : Statement .wait60 := fun _ => rfl
theorem wait50 : Statement .wait50 := fun _ => rfl
theorem endMark : Statement .endMark := fun _ => rfl
theorem t0Flo (k : ChipId) (d : BitVec 4) : Statement (.t0Flo k d) := fun _ => rfl
theorem t0Vol (k : ChipId) (d : BitVec 4) : Statement (.t0Vol k d) := fun _ => rfl
theorem t1Flo (k : ChipId) (d : BitVec 4) : Statement (.t1Flo k d) := fun _ => rfl
theorem t1Vol (k : ChipId) (d : BitVec 4) : Statement (.t1Vol k d) := fun _ => rfl
theorem t2Flo (k : ChipId) (d : BitVec 4) : Statement (.t2Flo k d) := fun _ => rfl
theorem t2Vol (k : ChipId) (d : BitVec 4) : Statement (.t2Vol k d) := fun _ => rfl
theorem nCtl (k : ChipId) (d : BitVec 4) : Statement (.nCtl k d) := fun _ => rfl
theorem nVol (k : ChipId) (d : BitVec 4) : Statement (.nVol k d) := fun _ => rfl
theorem data (k : ChipId) (x : BitVec 1) (d6 : BitVec 6) : Statement (.data k x d6) := fun _ => rfl

end Sys2Proof.Laws.EncodeLength

namespace Sys2Proof.Laws.FixedBits

theorem psgw2 (dd : Operand8) : Statement (.psgw2 dd) :=
  ⟨_, _, rfl, (by decide : (0x30#8 &&& 0xFF#8) = 0x30#8)⟩
theorem ggst2 (mm : Operand8) : Statement (.ggst2 mm) :=
  ⟨_, _, rfl, (by decide : (0x3F#8 &&& 0xFF#8) = 0x3F#8)⟩
theorem ggst1 (mm : Operand8) : Statement (.ggst1 mm) :=
  ⟨_, _, rfl, (by decide : (0x4F#8 &&& 0xFF#8) = 0x4F#8)⟩
theorem psgw1 (dd : Operand8) : Statement (.psgw1 dd) :=
  ⟨_, _, rfl, (by decide : (0x50#8 &&& 0xFF#8) = 0x50#8)⟩
theorem wait (n : Operand16) : Statement (.wait n) :=
  ⟨_, _, rfl, (by decide : (0x61#8 &&& 0xFF#8) = 0x61#8)⟩
theorem wait60 : Statement .wait60 := ⟨_, _, rfl, by decide⟩
theorem wait50 : Statement .wait50 := ⟨_, _, rfl, by decide⟩
theorem endMark : Statement .endMark := ⟨_, _, rfl, by decide⟩
theorem t0Flo (k : ChipId) (d : BitVec 4) : Statement (.t0Flo k d) :=
  ⟨_, _, rfl, (by decide : ∀ d : BitVec 4, ((8#4 ++ d : Byte) &&& 0xF0#8) = 0x80#8) d⟩
theorem t0Vol (k : ChipId) (d : BitVec 4) : Statement (.t0Vol k d) :=
  ⟨_, _, rfl, (by decide : ∀ d : BitVec 4, ((9#4 ++ d : Byte) &&& 0xF0#8) = 0x90#8) d⟩
theorem t1Flo (k : ChipId) (d : BitVec 4) : Statement (.t1Flo k d) :=
  ⟨_, _, rfl, (by decide : ∀ d : BitVec 4, ((10#4 ++ d : Byte) &&& 0xF0#8) = 0xA0#8) d⟩
theorem t1Vol (k : ChipId) (d : BitVec 4) : Statement (.t1Vol k d) :=
  ⟨_, _, rfl, (by decide : ∀ d : BitVec 4, ((11#4 ++ d : Byte) &&& 0xF0#8) = 0xB0#8) d⟩
theorem t2Flo (k : ChipId) (d : BitVec 4) : Statement (.t2Flo k d) :=
  ⟨_, _, rfl, (by decide : ∀ d : BitVec 4, ((12#4 ++ d : Byte) &&& 0xF0#8) = 0xC0#8) d⟩
theorem t2Vol (k : ChipId) (d : BitVec 4) : Statement (.t2Vol k d) :=
  ⟨_, _, rfl, (by decide : ∀ d : BitVec 4, ((13#4 ++ d : Byte) &&& 0xF0#8) = 0xD0#8) d⟩
theorem nCtl (k : ChipId) (d : BitVec 4) : Statement (.nCtl k d) :=
  ⟨_, _, rfl, (by decide : ∀ d : BitVec 4, ((14#4 ++ d : Byte) &&& 0xF0#8) = 0xE0#8) d⟩
theorem nVol (k : ChipId) (d : BitVec 4) : Statement (.nVol k d) :=
  ⟨_, _, rfl, (by decide : ∀ d : BitVec 4, ((15#4 ++ d : Byte) &&& 0xF0#8) = 0xF0#8) d⟩
theorem data (k : ChipId) (x : BitVec 1) (d6 : BitVec 6) : Statement (.data k x d6) :=
  ⟨_, _, rfl, (by decide :
    ∀ (x : BitVec 1) (d6 : BitVec 6), ((0#1 ++ x ++ d6 : Byte) &&& 0x80#8) = 0x00#8) x d6⟩

end Sys2Proof.Laws.FixedBits
end

