-- ==== Sys2Proof/Laws/Region.lean ====
section
/-!
SUPPORT. The laws of the music-data region: reading after setting a byte, and the canonical form,
which every operation on a region keeps.
-/

namespace Sys2Proof.Machine

theorem cellsGet_set_same (cs : List Host.Cell) {hi lo : Nat} (h : cellsWf hi lo cs = true) (x : Nat)
    (v : Byte) : cellsGet (cellsSet cs x v) x = v := by
  induction cs generalizing lo with
  | nil => unfold cellsSet; split <;> simp_all [cellsGet]
  | cons c rest ih =>
    obtain ⟨a, b⟩ := c
    simp only [cellsWf, Bool.and_eq_true, decide_eq_true_eq] at h
    have hr := h.2
    have below : ∀ (cs : List Host.Cell) (l : Nat), cellsWf hi l cs = true → ∀ y < l, cellsGet cs y = 0 := by
      intro cs
      induction cs with
      | nil => intros; rfl
      | cons d ds ihd =>
        intro l hd y hy
        simp only [cellsWf, Bool.and_eq_true, decide_eq_true_eq] at hd
        have hne : d.1 ≠ y := by omega
        simp only [cellsGet, if_neg hne]
        exact ihd _ hd.2 y (by omega)
    unfold cellsSet
    split
    · rename_i hlt
      have hne : a ≠ x := by omega
      simp only [cellsGet, if_neg hne]
      exact ih hr
    · split
      · rename_i heq
        split
        · rename_i hv
          rw [hv]
          exact below rest (a + 1) hr x (by omega)
        · simp [cellsGet]
      · rename_i hne
        split
        · rename_i hv
          simp only [cellsGet, if_neg hne, hv]
          exact below rest (a + 1) hr x (by omega)
        · simp [cellsGet]

theorem cellsGet_set_other (cs : List Host.Cell) {x y : Nat} (h : y ≠ x) (v : Byte) :
    cellsGet (cellsSet cs x v) y = cellsGet cs y := by
  have hxy : x ≠ y := fun e => h e.symm
  induction cs with
  | nil => unfold cellsSet; split <;> simp [cellsGet, hxy]
  | cons c rest ih =>
    obtain ⟨a, b⟩ := c
    unfold cellsSet
    split
    · simp only [cellsGet, ih]
    · split
      · rename_i heq
        subst heq
        split <;> simp [cellsGet, hxy]
      · split
        · rfl
        · simp [cellsGet, hxy]

/-- A higher end and a lower start keep the form. -/
theorem cellsWf_mono {hi hi' lo lo' : Nat} (cs : List Host.Cell) (h : cellsWf hi lo cs = true)
    (hhi : hi ≤ hi') (hlo : lo' ≤ lo) : cellsWf hi' lo' cs = true := by
  induction cs generalizing lo lo' with
  | nil => rfl
  | cons c rest ih =>
    simp only [cellsWf, Bool.and_eq_true, decide_eq_true_eq] at h ⊢
    exact ⟨⟨⟨by omega, by omega⟩, h.1.2⟩, ih h.2 (le_refl _)⟩

theorem cellsWf_set {hi lo x : Nat} (cs : List Host.Cell) (v : Byte) (h : cellsWf hi lo cs = true)
    (hlo : lo ≤ x) (hhi : x < hi) : cellsWf hi lo (cellsSet cs x v) = true := by
  induction cs generalizing lo with
  | nil => unfold cellsSet; split <;> simp_all [cellsWf]
  | cons c rest ih =>
    obtain ⟨a, b⟩ := c
    have h0 := h
    simp only [cellsWf, Bool.and_eq_true, decide_eq_true_eq] at h
    unfold cellsSet
    split
    · rename_i hlt
      simp only [cellsWf, Bool.and_eq_true, decide_eq_true_eq]
      exact ⟨h.1, ih h.2 hlt⟩
    · split
      · rename_i heq
        subst heq
        split
        · exact cellsWf_mono rest h.2 (le_refl _) (by omega)
        · rename_i hv
          simp only [cellsWf, Bool.and_eq_true, decide_eq_true_eq, bne_iff_ne]
          exact ⟨⟨⟨hlo, hhi⟩, hv⟩, h.2⟩
      · split
        · exact h0
        · rename_i hnlt hne hv
          simp only [cellsWf, Bool.and_eq_true, decide_eq_true_eq, bne_iff_ne]
          have hb : b ≠ 0 := by simpa using h.1.2
          exact ⟨⟨⟨hlo, hhi⟩, hv⟩, ⟨⟨by omega, h.1.1.2⟩, hb⟩, h.2⟩

theorem Region.put_wf (r : Region) (a : Nat) (v : Byte) (h : r.wf = true) : (r.put a v).wf = true := by
  have h' : cellsWf r.len 0 r.cells = true := h
  exact cellsWf_set _ _ (cellsWf_mono _ h' (le_max_left _ _) (le_refl _)) (Nat.zero_le _)
    (lt_of_lt_of_le (Nat.lt_succ_self a) (le_max_right _ _))

theorem Region.place_wf (bs : List Byte) (r : Region) (a : Nat) (h : r.wf = true) :
    (r.place a bs).wf = true := by
  induction bs generalizing r a with
  | nil => exact h
  | cons b rest ih => exact ih _ _ (r.put_wf a b h)

theorem Region.ofBytes_wf (bs : List Byte) : (Region.ofBytes bs).wf = true :=
  Region.place_wf bs ⟨[], 0⟩ 0 rfl

theorem Region.read_put_same (r : Region) (a : Nat) (v : Byte) (h : r.wf = true) :
    (r.put a v).read a = some v := by
  have hlt : a < (r.put a v).len := lt_of_lt_of_le (Nat.lt_succ_self a) (le_max_right _ _)
  have hg : cellsGet (cellsSet r.cells a v) a = v := cellsGet_set_same r.cells (hi := r.len) (lo := 0) h a v
  simp only [Region.read, if_pos hlt]
  exact congrArg some hg

/-- Below the old end, every other byte reads as before. -/
theorem Region.read_put_other (r : Region) {a x : Nat} (h : x ≠ a) (hx : x < r.len) (v : Byte) :
    (r.put a v).read x = r.read x := by
  have hlt : x < (r.put a v).len := lt_of_lt_of_le hx (le_max_left _ _)
  have hg : cellsGet (cellsSet r.cells a v) x = cellsGet r.cells x := cellsGet_set_other r.cells h v
  simp only [Region.read, if_pos hlt, if_pos hx]
  exact congrArg some hg

theorem Region.read_eq_none (r : Region) (a : Nat) : r.read a = none ↔ r.len ≤ a := by
  simp [Region.read]

end Sys2Proof.Machine
end

