-- ==== Sys2Proof/Certificates/Slice0/Obligations.lean ====
section
/-!
DEFINITION. The statements for the provers. Each docstring names the rule or section of spec/ it
formalises; where a clause rests on a decision the spec marks as its own (D<n>) or on an entry of
the assumption log, it says so.
-/

open Sys2Proof Sys2Proof.Machine

/-! ### Encoding -/

/-- R80 to R88: for every complete instruction, decoding its bytes, whatever follows them, gives it
back with the bytes that follow. -/
def Obligations.DecodeEncodeRoundTrip : Prop :=
  ∀ (i : Instr) (rest : List Byte), i.wellFormed = true →
    decode i.space (encode i ++ rest) = .ok (i, rest)

/-- R80 to R88: what the decoder reads is of the level asked for, and its encoding is exactly the
bytes read, truncated commands included: no bit is dropped. -/
def Obligations.EncodeDecodeRoundTrip : Prop :=
  ∀ (space : CodeSpace) (bs : List Byte) (i : Instr) (rest : List Byte),
    decode space bs = .ok (i, rest) → i.space = space ∧ encode i ++ rest = bs

/-- R84: exactly the opcode bytes in the ranges it lists have no handler and are refused with their
value, and every other byte has one and starts a command. -/
def Obligations.UndefinedOpcodesRefused : Prop :=
  ∀ (b : Byte) (rest : List Byte),
    let listed := b.toNat ≤ 0x2F ∨ (0x31 ≤ b.toNat ∧ b.toNat ≤ 0x3E) ∨
      (0x40 ≤ b.toNat ∧ b.toNat ≤ 0x4E) ∨ (0x51 ≤ b.toNat ∧ b.toNat ≤ 0x60) ∨
      b.toNat = 0x64 ∨ b.toNat = 0x65 ∨ 0x67 ≤ b.toNat
    (listed → registered handlerTable b = false ∧
        decode .command (b :: rest) = .error (.unknownOpcode b)) ∧
      (¬ listed → registered handlerTable b = true ∧
        ∃ i r, decode .command (b :: rest) = .ok (i, r))

/-- R81, R87, R88: words written out from the tables decode to the instructions they stand for. -/
def Obligations.SpecWordsDecode : Prop :=
  decode .command [0x50, 0x90, 0x66] = .ok (.psgw1 (.byte 0x90), [0x66]) ∧
    decode .command [0x3F, 0xF0] = .ok (.ggst2 (.byte 0xF0), []) ∧
    decode .command [0x61, 0xDF, 0x02] = .ok (.wait (.word 735), []) ∧
    decode .command [0x66] = .ok (.endMark, []) ∧
    decode .command [0x67] = .error (.unknownOpcode 0x67) ∧
    decode (.writePort .c1) [0x8F] = .ok (.t0Flo .c1 15, []) ∧
    decode (.writePort .c0) [0xE4] = .ok (.nCtl .c0 4, []) ∧
    decode (.writePort .c0) [0x3F] = .ok (.data .c0 0 0x3F, [])

/-- R45, R46, R141, R81: installing the driver in the dispatcher as constructed gives the block's handlers
and emulators, and an opcode is registered there exactly when the decoder reads a command from it. -/
def Obligations.HandlerTableIsOpcodeMap : Prop :=
  install driverHandle Setup.initial = .next Setup.block ∧
    ∀ (b : Byte) (rest : List Byte),
      registered Setup.block.handlers b = true ↔ ∃ p, decode .command (b :: rest) = .ok p

/-! ### Register writes -/

/-- R110, R112, R114 (with R102): a low-nibble latch of tone c sets `adr` to 2·c and bits 3:0 of that
tone's `freq`, keeps bits 9:4, and changes nothing else; and the bytes that decode to it. -/
def Obligations.ToneFrequencyLowWrites : Prop :=
  ∀ (k : ChipId) (d : BitVec 4) (s : State), s.present k = true →
    let low := fun (t : Tone) => t.withFreq (BitVec.ofNat 10 (16 * (t.freq.toNat / 16) + d.toNat))
    let c := s.chip k
    exec (.t0Flo k d) s = .next (s.setChip k ((c.withAdr 0).setTone .t0 (low c.tone0))) ∧
      exec (.t1Flo k d) s = .next (s.setChip k ((c.withAdr 2).setTone .t1 (low c.tone1))) ∧
      exec (.t2Flo k d) s = .next (s.setChip k ((c.withAdr 4).setTone .t2 (low c.tone2))) ∧
      decodeWriteByte k (BitVec.ofNat 8 (0x80 + d.toNat)) = .t0Flo k d ∧
      decodeWriteByte k (BitVec.ofNat 8 (0xA0 + d.toNat)) = .t1Flo k d ∧
      decodeWriteByte k (BitVec.ofNat 8 (0xC0 + d.toNat)) = .t2Flo k d

/-- R111, R113, R115 (with R103): a volume latch of tone c sets `adr` to 2·c + 1 and that tone's
`volume`, and changes nothing else; and the bytes that decode to it. -/
def Obligations.ToneVolumeWrites : Prop :=
  ∀ (k : ChipId) (d : BitVec 4) (s : State), s.present k = true →
    let c := s.chip k
    exec (.t0Vol k d) s = .next (s.setChip k ((c.withAdr 1).setTone .t0 (c.tone0.withVolume d))) ∧
      exec (.t1Vol k d) s = .next (s.setChip k ((c.withAdr 3).setTone .t1 (c.tone1.withVolume d))) ∧
      exec (.t2Vol k d) s = .next (s.setChip k ((c.withAdr 5).setTone .t2 (c.tone2.withVolume d))) ∧
      decodeWriteByte k (BitVec.ofNat 8 (0x90 + d.toNat)) = .t0Vol k d ∧
      decodeWriteByte k (BitVec.ofNat 8 (0xB0 + d.toNat)) = .t1Vol k d ∧
      decodeWriteByte k (BitVec.ofNat 8 (0xD0 + d.toNat)) = .t2Vol k d

/-- R116 (with R104): a noise control latch sets `adr` to 6, the mode from bit 2, the reference and
the period from bits 1:0 (0 forced to 1), reloads the seed, ignores bit 3, and changes nothing else;
and the bytes that decode to it. -/
def Obligations.NoiseControlWrite : Prop :=
  ∀ (k : ChipId) (d : BitVec 4) (s : State), s.present k = true →
    let c := s.chip k
    let rate := d.toNat % 4
    exec (.nCtl k d) s =
        .next (s.setChip k
          (((c.withAdr 6).withNoiseControl
              (if d.toNat / 4 % 2 = 1 then .white else .periodic)
              (decide (rate = 3))
              (BitVec.ofNat 16 (if rate = 3 then max 1 c.tone2.freq.toNat else 32 * 2 ^ rate))).withSeed
            (BitVec.ofNat 16 (2 ^ (s.cfg.width - 1))))) ∧
      exec (.nCtl k (d ^^^ 8#4)) s = exec (.nCtl k d) s ∧
      decodeWriteByte k (BitVec.ofNat 8 (0xE0 + d.toNat)) = .nCtl k d

/-- R117 (with R105): a noise volume latch sets `adr` to 7 and `noise_volume`, and changes nothing
else; and the bytes that decode to it. -/
def Obligations.NoiseVolumeWrite : Prop :=
  ∀ (k : ChipId) (d : BitVec 4) (s : State), s.present k = true →
    exec (.nVol k d) s = .next (s.setChip k (((s.chip k).withAdr 7).withNoiseVolume d)) ∧
      decodeWriteByte k (BitVec.ofNat 8 (0xF0 + d.toNat)) = .nVol k d

/-- 40_psg_write.md section 2: a data byte replaces bits 9:4 of the `freq` of the tone
floor(`adr` / 2) (decision D4), keeps bits 3:0 and `adr`, and does nothing when `adr` is 6 or 7
(decision D3); bit 6 of the byte is ignored. -/
def Obligations.DataByteWrites : Prop :=
  ∀ (k : ChipId) (x : BitVec 1) (d6 : BitVec 6) (s : State), s.present k = true →
    let high := fun (t : Tone) => t.withFreq (BitVec.ofNat 10 (16 * d6.toNat + t.freq.toNat % 16))
    let c := s.chip k
    let r := exec (.data k x d6) s
    (c.adr.toNat ≤ 1 → r = .next (s.setChip k (c.setTone .t0 (high c.tone0)))) ∧
      (2 ≤ c.adr.toNat ∧ c.adr.toNat ≤ 3 →
        r = .next (s.setChip k (c.setTone .t1 (high c.tone1)))) ∧
      (4 ≤ c.adr.toNat ∧ c.adr.toNat ≤ 5 →
        r = .next (s.setChip k (c.setTone .t2 (high c.tone2)))) ∧
      (6 ≤ c.adr.toNat → r = .next s)

/-- 40_psg_write.md section 1 (R106 is derived there): a register-write byte at an existing chip
completes, changes no other part of the state than that chip, leaves every generator, `mute` and
`channels` alone, and the seed too unless it is a noise control write. -/
def Obligations.WritesLeaveGeneratorsAlone : Prop :=
  ∀ (i : Instr) (k : ChipId) (s : State), i.space = .writePort k → s.present k = true →
    ∃ t, exec i s = .next t ∧ t = s.setChip k (t.chip k) ∧
      Chip.sameGenerators (s.chip k) (t.chip k) ∧
      ((∀ d, i ≠ .nCtl k d) → (t.chip k).noiseSeed = (s.chip k).noiseSeed)

/-- R100 read through R86 to R88: `PSG.write` of a byte runs the write-byte form it decodes to. -/
def Obligations.PsgWriteRunsTheForm : Prop :=
  ∀ (k : ChipId) (val : Byte) (s : State), psgWrite k val s = exec (decodeWriteByte k val) s

/-- 30_encoding.md section 2 (legality): every write byte completes at an existing chip and raises
nothing; bit 6 of a data byte and bit 3 of a noise control byte make no difference. -/
def Obligations.EveryWriteByteIsLegal : Prop :=
  ∀ (k : ChipId) (val : Byte) (s : State), s.present k = true →
    (∃ t, psgWrite k val s = .next t ∧ t.fault = s.fault) ∧
      (val.getLsbD 7 = false → psgWrite k (val ^^^ 0x40#8) s = psgWrite k val s) ∧
      (val.toNat / 16 = 14 → psgWrite k (val ^^^ 0x08#8) s = psgWrite k val s)

/-- Assumption log 5, the model's choice: a write-byte form at chip 1 of a single-chip block raises
the driver's DualChipDisabled and writes nothing. -/
def Obligations.WriteToMissingChip : Prop :=
  ∀ (i : Instr) (s : State), i.space = .writePort .c1 → s.cfg.dual = false →
    exec i s = .next (s.raise .dualChipDisabled)

/-! ### Driver commands -/

/-- 42_psg_driver.md section 2, `PSGW1`: it raises PrematureEOF without an operand; with one it consumes
it and makes of chip 0 what the write-byte form makes of it, and changes nothing else. The state the
error leaves is log 3 (DEDUCED) over R211, R212 and decision D15. -/
def Obligations.Psgw1Command : Prop :=
  (∀ s : State, exec (.psgw1 .absent) s = .next (s.raise .prematureEOF)) ∧
    ∀ (b : Byte) (s : State), ∃ c, exec (decodeWriteByte .c0 b) s = .next (s.setChip .c0 c) ∧
      exec (.psgw1 (.byte b)) s = .next ((s.consume 1).setChip .c0 c)

/-- 42_psg_driver.md section 2, `PSGW2`: it raises DualChipDisabled in a single-chip block whatever
follows the opcode, and before the operand is consumed; in a dual-chip block it is `PSGW1` against
chip 1. The state an error leaves is log 3 (DEDUCED) over R211, R212 and decision D15. -/
def Obligations.Psgw2Command : Prop :=
  (∀ (dd : Operand8) (s : State), s.cfg.dual = false →
      exec (.psgw2 dd) s = .next (s.raise .dualChipDisabled)) ∧
    (∀ s : State, s.cfg.dual = true → exec (.psgw2 .absent) s = .next (s.raise .prematureEOF)) ∧
    ∀ (b : Byte) (s : State), s.cfg.dual = true →
      ∃ c, exec (decodeWriteByte .c1 b) s = .next (s.setChip .c1 c) ∧
        exec (.psgw2 (.byte b)) s = .next ((s.consume 1).setChip .c1 c)

/-- 42_psg_driver.md section 2, `GGST1`: it raises PrematureEOF without an operand (decision D16); with
one it consumes it, and stores it as chip 0's mask when `GG_STEREO_OFF` is clear, and discards it
otherwise; nothing else changes. The state the error leaves is log 3 (DEDUCED) over R211, R212 and
decision D15. -/
def Obligations.Ggst1Command : Prop :=
  (∀ s : State, exec (.ggst1 .absent) s = .next (s.raise .prematureEOF)) ∧
    ∀ (mm : Byte) (s : State),
      (s.cfg.ggStereoOff = false →
        exec (.ggst1 (.byte mm)) s = .next ((s.consume 1).setPort .c0 (s.port0.withMask mm))) ∧
      (s.cfg.ggStereoOff = true → exec (.ggst1 (.byte mm)) s = .next (s.consume 1))

/-- 42_psg_driver.md section 2, `GGST2` (the check order is decision D16): DualChipDisabled first,
then PrematureEOF, then the mask of chip 1 unless `GG_STEREO_OFF` is set. The state an error leaves
is log 3 (DEDUCED) over R211, R212 and decision D15. -/
def Obligations.Ggst2Command : Prop :=
  (∀ (mm : Operand8) (s : State), s.cfg.dual = false →
      exec (.ggst2 mm) s = .next (s.raise .dualChipDisabled)) ∧
    (∀ s : State, s.cfg.dual = true → exec (.ggst2 .absent) s = .next (s.raise .prematureEOF)) ∧
    ∀ (mm : Byte) (s : State), s.cfg.dual = true →
      (s.cfg.ggStereoOff = false →
        exec (.ggst2 (.byte mm)) s = .next ((s.consume 1).setPort .c1 (s.port1.withMask mm))) ∧
      (s.cfg.ggStereoOff = true → exec (.ggst2 (.byte mm)) s = .next (s.consume 1))

/-- 42_psg_driver.md section 3: after a sample, entry 4k + j of `right` is channel j of chip k where
bit j of its mask is set and +0.0 where it is clear (decision D10), and `left` likewise by bit
j + 4; the arrays have 4·N entries. -/
def Obligations.StereoGating : Prop :=
  ∀ (s : State) (k : ChipId) (j : Nat), s.present k = true → j < 4 →
    let t := driverSample s
    let mask := (s.port k).ggStereo
    let ch := (psgChannels k t).getD j 0
    (rightChannels t)[4 * k.index + j]? = some (if mask.getLsbD j then ch else 0) ∧
      (leftChannels t)[4 * k.index + j]? = some (if mask.getLsbD (j + 4) then ch else 0) ∧
      (rightChannels t).length = 4 * s.cfg.chipCount ∧
      (leftChannels t).length = 4 * s.cfg.chipCount

/-- 42_psg_driver.md section 3 (dual chip) and 10_state.md section 1: the two chips share nothing but
the parameters. What any number of samples, or one of the four driver commands for that chip, makes of
a chip and its port depends on the configuration, that chip and that port alone; and such a command
leaves the other chip and its port as they are. -/
def Obligations.ChipsAreIndependent : Prop :=
  (∀ (n : Nat) (k : ChipId) (s s' : State), s.cfg = s'.cfg → s.chip k = s'.chip k →
      s.port k = s'.port k →
      (advanceSamples n s).chip k = (advanceSamples n s').chip k ∧
        (advanceSamples n s).port k = (advanceSamples n s').port k) ∧
    ∀ (i : Instr) (k : ChipId) (s s' : State), commandChip i = some k → s.cfg = s'.cfg →
      s.chip k = s'.chip k → s.port k = s'.port k →
      ∃ t t', exec i s = .next t ∧ exec i s' = .next t' ∧ t.chip k = t'.chip k ∧
        t.port k = t'.port k ∧ ∀ j, j ≠ k → t.chip j = s.chip j ∧ t.port j = s.port j

/-! ### The sample -/

/-- 41_psg_advance.md section 1: `BASE_INCR` is floor(`CLOCK` · 2^24 / 705,600), at most 2^31 - 2^24
for a legal clock, and depends on `CLOCK` alone (no flag: decision D6). -/
def Obligations.BaseIncrement : Prop :=
  ∀ cfg : Config,
    baseIncr cfg * 705600 ≤ cfg.clock.toNat * 16777216 ∧
      cfg.clock.toNat * 16777216 < (baseIncr cfg + 1) * 705600 ∧
      (cfg.legal = true → baseIncr cfg ≤ 2 ^ 31 - 2 ^ 24) ∧
      ∀ cfg' : Config, cfg'.clock = cfg.clock → baseIncr cfg' = baseIncr cfg

/-- R123: with t the exact sum of the accumulator and `BASE_INCR`, a sample credits floor(t / 2^24)
ticks, 0 to 127, floor or ceiling of `BASE_INCR` / 2^24, and keeps t mod 2^24; over n samples from
an accumulator of 0 the ticks sum to floor(n · `BASE_INCR` / 2^24). -/
def Obligations.RateConverter : Prop :=
  ∀ (cfg : Config) (c : Chip), cfg.legal = true → c.fractionOk →
    let t := c.baseCount.toNat + baseIncr cfg
    t < 2 ^ 31 ∧ (tickCount cfg c).toNat = t / 2 ^ 24 ∧ (tickCount cfg c).toNat ≤ 127 ∧
      ((tickCount cfg c).toNat = baseIncr cfg / 2 ^ 24 ∨ (tickCount cfg c).toNat = maxTicks cfg) ∧
      (c.advance cfg).baseCount.toNat = t % 2 ^ 24 ∧
      (c.baseCount = 0 → ∀ n, ticksOver cfg n c = n * baseIncr cfg / 2 ^ 24)

/-- 41_psg_advance.md section 3: with n the exact sum of `noise_count` and the ticks, bit 8 of its
two's complement pattern decides: the LFSR shifts once and the live period is subtracted, or
neither; `noise_count` wraps in `i32` (decision D7). -/
def Obligations.NoiseGeneratorStep : Prop :=
  ∀ (cfg : Config) (c : Chip),
    let n : Int := c.noiseCount.toInt + (tickCount cfg c).toInt
    let p : Int := if c.noiseRef then (c.tone2.freq.toNat : Int) else (c.noiseFreq.toNat : Int)
    let c' := c.advance cfg
    (n / 256 % 2 = 1 → c'.noiseCount.toInt = Int.bmod (n - p) (2 ^ 32) ∧
        c'.noiseSeed = lfsrStep cfg c.noiseMode c.noiseSeed) ∧
      (n / 256 % 2 = 0 → c'.noiseCount.toInt = Int.bmod n (2 ^ 32) ∧
        c'.noiseSeed = c.noiseSeed)

/-- 41_psg_advance.md section 3: the LFSR shifts right by 1 and takes in at bit `SR_WIDTH`-1 the
parity of `seed & FEEDBACK` in white mode, bit 0 in periodic mode (`XNOR` unread: decision D6); at
width 1 it is 1 (decision D24). -/
def Obligations.LfsrShift : Prop :=
  ∀ (cfg : Config) (seed : BitVec 16), cfg.width ≤ 16 → seed.toNat < 2 ^ cfg.width →
    (2 ≤ cfg.width →
      (lfsrStep cfg .white seed).toNat =
          seed.toNat / 2 + 2 ^ (cfg.width - 1) * (onesCount (seed &&& cfg.feedback) % 2) ∧
        (lfsrStep cfg .periodic seed).toNat =
          seed.toNat / 2 + 2 ^ (cfg.width - 1) * (seed.toNat % 2)) ∧
      (cfg.width = 1 → ∀ mode, lfsrStep cfg mode seed = 1)

/-- 41_psg_advance.md section 3, corner cases (a): in periodic mode the seed returns to the reload
value after exactly `SR_WIDTH` shifts and not before. -/
def Obligations.PeriodicNoiseCycle : Prop :=
  ∀ cfg : Config, cfg.legal = true →
    lfsrIterate cfg .periodic cfg.width (seedReload cfg) = seedReload cfg ∧
      ∀ n, 0 < n → n < cfg.width →
        lfsrIterate cfg .periodic n (seedReload cfg) ≠ seedReload cfg

/-- 41_psg_advance.md section 3, corner cases (c): a seed other than 0 shifts to 0 exactly from 1 in
white mode with bit 0 of `FEEDBACK` clear and a width of 2 or more; from 0 a white shift stays 0. -/
def Obligations.SeedReachesZeroOnlyFromOne : Prop :=
  ∀ (cfg : Config) (mode : NoiseMode) (seed : BitVec 16), 2 ≤ cfg.width → cfg.width ≤ 16 →
    seed.toNat < 2 ^ cfg.width →
    (seed ≠ 0 → (lfsrStep cfg mode seed = 0 ↔
        seed = 1 ∧ mode = .white ∧ cfg.feedback.getLsbD 0 = false)) ∧
      lfsrStep cfg .white 0 = 0

/-- R127: after a sample the noise output has the magnitude `VOLTAB[noise_volume]`, is negative
exactly when the seed's bit 0 is clear (with `OUTPUT_NEG` clear) or set (with it set), and is a zero
only for volume 15. -/
def Obligations.NoiseOutputLevel : Prop :=
  ∀ (cfg : Config) (c : Chip), cfg.legal = true →
    let c' := c.advance cfg
    let out := c'.channels.ch3
    out.toNat % 2 ^ 31 = (cfg.volume c.noiseVolume).toNat ∧
      (out.getLsbD 31 = true ↔ c'.noiseSeed.getLsbD 0 = cfg.outputNeg) ∧
      (out.toNat % 2 ^ 31 = 0 ↔ c.noiseVolume = 15)

/-- 41_psg_advance.md section 4: with n the exact sum of a tone's `count` and the ticks, bit 10 of
its pattern decides: for a period above 1 the edge toggles and the period is subtracted, for 0 and 1
the edge is forced true, otherwise nothing; the period is `freq`, but 0x400 for `freq` 0 where
`FREQ0` and `FREQ0_APPLIES` are set (decision D5); `count` wraps in `i32` (decision D7). -/
def Obligations.ToneGeneratorStep : Prop :=
  ∀ (cfg : Config) (c : Chip) (i : ToneId),
    let t := c.tone i
    let t' := (c.advance cfg).tone i
    let n : Int := t.count.toInt + (tickCount cfg c).toInt
    let p : Nat := if cfg.freq0Applies = true ∧ cfg.freq0 = true ∧ t.freq = 0 then 1024 else t.freq.toNat
    (n / 1024 % 2 = 1 → 1 < p → t'.edge = !t.edge ∧ t'.count.toInt = Int.bmod (n - p) (2 ^ 32)) ∧
      (n / 1024 % 2 = 1 → p ≤ 1 → t'.edge = true ∧ t'.count.toInt = Int.bmod n (2 ^ 32)) ∧
      (n / 1024 % 2 = 0 → t'.edge = t.edge ∧ t'.count.toInt = Int.bmod n (2 ^ 32))

/-- 41_psg_advance.md section 4: after a sample the output of a tone that is not muted has the
magnitude `VOLTAB[volume]` and is negative exactly when its edge is false (with `OUTPUT_NEG` clear)
or true (with it set); a muted tone is +0.0 (decision D11). -/
def Obligations.ToneOutputLevel : Prop :=
  ∀ (cfg : Config) (c : Chip) (i : ToneId), cfg.legal = true →
    let t' := (c.advance cfg).tone i
    let out := (c.advance cfg).channels.tone i
    ((c.tone i).mute = false →
        out.toNat % 2 ^ 31 = (cfg.volume (c.tone i).volume).toNat ∧
          (out.getLsbD 31 = true ↔ t'.edge = cfg.outputNeg)) ∧
      ((c.tone i).mute = true → out = 0)

/-- 41_psg_advance.md section 4 (R131 is derived there): a tone of period at least 2 and at least the
largest tick count keeps its counter in 0 to 1023. -/
def Obligations.ToneCounterBounded : Prop :=
  ∀ (cfg : Config) (c : Chip) (i : ToneId), cfg.legal = true → c.fractionOk →
    2 ≤ (c.tone i).freq.toNat → maxTicks cfg ≤ (c.tone i).freq.toNat →
    (c.tone i).count.toNat ≤ 1023 → ((c.advance cfg).tone i).count.toNat ≤ 1023

/-- 41_psg_advance.md section 3 (R126 (c) is derived there): a live noise period from the largest
tick count to 256 keeps the noise counter in 0 to 255. -/
def Obligations.NoiseCounterBounded : Prop :=
  ∀ (cfg : Config) (c : Chip), cfg.legal = true → c.fractionOk →
    maxTicks cfg ≤ (noisePeriod c).toNat → (noisePeriod c).toNat ≤ 256 →
    c.noiseCount.toNat ≤ 255 → (c.advance cfg).noiseCount.toNat ≤ 255

/-- 41_psg_advance.md section 6, property (4): for any chip state, after a sample every channel's
magnitude is at most `VOLTAB[0]` = 1.0. -/
def Obligations.ChannelsBounded : Prop :=
  ∀ (cfg : Config) (c : Chip), cfg.legal = true →
    cfg.volume 0 = 0x3F800000 ∧ (c.advance cfg).channels.atMostOne

/-- R133: `OUTPUT_NEG` flips the sign of all four outputs of every sample of a chip with no muted
tone (no operation mutes one, R30) and affects nothing else. -/
def Obligations.OutputNegFlipsSignsOnly : Prop :=
  ∀ (cfg : Config) (c : Chip), c.unmuted → cfg.outputNeg = false →
    let plain := c.advance cfg
    let flip := fun (x : F32) => x ^^^ 0x80000000#32
    c.advance { cfg with outputNeg := true } =
      plain.withChannels ⟨flip plain.channels.ch0, flip plain.channels.ch1,
        flip plain.channels.ch2, flip plain.channels.ch3⟩

/-- 41_psg_advance.md section 4, unread flags (decisions D5, D6): `CKDIV_OFF`, `XNOR` and
`GG_STEREO_OFF` make no difference to a sample, and with `FREQ0_APPLIES` clear neither does `FREQ0`. -/
def Obligations.UnreadFlags : Prop :=
  ∀ (cfg : Config) (c : Chip) (f ck xn gg : Bool),
    c.advance { cfg with ckdivOff := ck, xnor := xn, ggStereoOff := gg } = c.advance cfg ∧
      (cfg.freq0Applies = false →
        c.advance { cfg with freq0 := f, ckdivOff := ck, xnor := xn, ggStereoOff := gg } =
          c.advance cfg)

/-- 41_psg_advance.md section 2: a sample writes none of a chip's registers, `adr` and `mute`. -/
def Obligations.AdvanceKeepsRegisters : Prop :=
  ∀ (cfg : Config) (c : Chip), Chip.sameRegisters c (c.advance cfg)

/-! ### Dispatcher commands -/

/-- 43_dispatcher.md section 2, `WAIT` (with R169, whose counters wrap by decision D7): with both operand
bytes it consumes them and produces n samples, each counted once by `samples_played` and `position` and
recorded by one event; without `aa`, or without `bb`, it raises MalformedWait behind what it consumed
and produces none. The state the error leaves is log 3 (DEDUCED) over R211, R212 and decision D15. -/
def Obligations.WaitCommand : Prop :=
  (∀ (n : BitVec 16) (s : State),
      let t := (advanceSamples n.toNat s).consume 2
      exec (.wait (.word n)) s = .next t ∧ t.pc = s.pc + 2 ∧
      t.samplesPlayed = s.samplesPlayed + BitVec.ofNat 32 n.toNat ∧
      t.position = s.position + BitVec.ofNat 32 n.toNat ∧
      t.trace.length = s.trace.length + n.toNat ∧
      (n = 0 → t = s.consume 2) ∧
      t.endOfStream = s.endOfStream ∧ t.fault = s.fault ∧ t.loopsPlayed = s.loopsPlayed) ∧
    (∀ s : State, exec (.wait .absent) s = .next (s.raise .malformedWait)) ∧
    ∀ (aa : Byte) (s : State),
      exec (.wait (.highAbsent aa)) s = .next ((s.consume 1).raise .malformedWait)

/-- R165, R166: `WAIT60` and `WAIT50` complete with 735 and 882 samples, and are in effect `WAIT 735`
and `WAIT 882` from a cursor two bytes further back. -/
def Obligations.FixedWaits : Prop :=
  ∀ s : State,
    (∃ t, t = advanceSamples 735 s ∧ exec .wait60 s = .next t ∧ t.pc = s.pc ∧
        t.trace.length = s.trace.length + 735 ∧
        t.position = s.position + 735 ∧ t.samplesPlayed = s.samplesPlayed + 735 ∧
        exec (.wait (.word 735)) s = .next (t.consume 2)) ∧
      ∃ t, t = advanceSamples 882 s ∧ exec .wait50 s = .next t ∧ t.pc = s.pc ∧
        t.trace.length = s.trace.length + 882 ∧
        t.position = s.position + 882 ∧ t.samplesPlayed = s.samplesPlayed + 882 ∧
        exec (.wait (.word 882)) s = .next (t.consume 2)

/-- 43_dispatcher.md section 3 and 42_psg_driver.md section 3, for the samples of the three waits
(WaitCommand, FixedWaits): n samples advance every chip that exists n times; the j-th (from 0) emits an
event that sees both counters already incremented j + 1 times, `loops_played` as it is, and the arrays
as they stand after that sample: channel c of chip k as it is after j + 1 advances, gated by the chip's
mask (+0.0 where it is clear: decision D10); earlier events stay. -/
def Obligations.WaitEvents : Prop :=
  ∀ (n : Nat) (s : State),
    let t := advanceSamples n s
    (∀ k, s.present k = true → t.chip k = Chip.samples s.cfg n (s.chip k)) ∧
      (∃ es, t.trace = s.trace ++ es ∧ es.length = n) ∧
      ∀ j, j < n → ∃ e, t.trace[s.trace.length + j]? = some e ∧
        e.samplesPlayed = s.samplesPlayed + BitVec.ofNat 32 (j + 1) ∧
        e.position = s.position + BitVec.ofNat 32 (j + 1) ∧ e.loopsPlayed = s.loopsPlayed ∧
        e.left = leftChannels (advanceSamples (j + 1) s) ∧
        e.right = rightChannels (advanceSamples (j + 1) s) ∧
        ∀ (k : ChipId) (c : Nat), s.present k = true → c < 4 →
          let out := (Chip.samples s.cfg (j + 1) (s.chip k)).channels.toList.getD c 0
          let mask := (s.port k).ggStereo
          e.right[4 * k.index + c]? = some (if mask.getLsbD c then out else 0) ∧
            e.left[4 * k.index + c]? = some (if mask.getLsbD (c + 4) then out else 0)

/-- 41_psg_advance.md section 6, "Wait composition": a wait of n samples and then one of m leave the
state a wait of n + m samples leaves, but for the cursor. -/
def Obligations.WaitComposition : Prop :=
  ∀ (n m : Nat) (s : State), n + m < 65536 →
    ∃ t u, exec (.wait (.word (BitVec.ofNat 16 n))) s = .next t ∧
      exec (.wait (.word (BitVec.ofNat 16 m))) t = .next u ∧
      exec (.wait (.word (BitVec.ofNat 16 (n + m)))) (s.consume 2) = .next u

/-- The frame of the three wait commands (43_dispatcher.md section 3, 41_psg_advance.md section 2):
no register, `adr` or `mute` of either chip, no mask, no parameter, no byte of the region, not
`loops_played`, `end_of_stream` or `fault` changes; a chip the block does not have stays as it is. -/
def Obligations.WaitFrame : Prop :=
  ∀ (i : Instr) (s t : State), (∃ n, i = .wait (.word n)) ∨ i = .wait60 ∨ i = .wait50 →
    exec i s = .next t →
    (∀ k, Chip.sameRegisters (s.chip k) (t.chip k) ∧ (t.port k).ggStereo = (s.port k).ggStereo) ∧
      s.sameRegion t ∧ t.loopsPlayed = s.loopsPlayed ∧ t.endOfStream = s.endOfStream ∧
      t.fault = s.fault ∧ (s.cfg.dual = false → t.psg1 = s.psg1 ∧ t.port1 = s.port1)

/-- 43_dispatcher.md section 4, the stream-end routine as `END` runs it: with no loop it sets
`end_of_stream` and nothing else; with one it sets `position` to `TOTAL_SAMPLES` - `LOOP_SAMPLES`
modulo 2^32 (decision D14), the cursor to the loop target and `loops_played` one up, and nothing
else; a negative target is refused (93 U9). -/
def Obligations.EndCommand : Prop :=
  ∀ s : State,
    (s.cfg.hasLoop = false → exec .endMark s = .next { s with endOfStream := true }) ∧
      (s.cfg.hasLoop = true → s.cfg.dataOffset.toNat ≤ s.cfg.loopOffset.toNat →
        ∃ target pos, target + s.cfg.dataOffset.toNat = s.cfg.loopOffset.toNat ∧
          (pos.toNat + s.cfg.loopSamples.toNat) % 2 ^ 32 = s.cfg.totalSamples.toNat ∧
          exec .endMark s =
            .next { s with
              pc := target
              position := pos
              loopsPlayed := BitVec.ofNat 32 (s.loopsPlayed.toNat + 1) }) ∧
      (s.cfg.hasLoop = true → s.cfg.loopOffset.toNat < s.cfg.dataOffset.toNat →
        exec .endMark s = .refused .negativeLoopTarget)

/-! ### `next()` -/

/-- R161: where the bytes at the cursor of a ready block decode to an instruction, the step is that
instruction run from just past the opcode, whatever the instruction makes of it. -/
def Obligations.StepRunsDecoded : Prop :=
  ∀ (s : State) (i : Instr) (rest : List Byte), s.ready →
    decode .command (s.lookahead 3) = .ok (i, rest) → step s = exec i (s.consume 1)

/-- R162: the end of data at the opcode position of a ready block has exactly the effect of an `END`
that occupies no byte; in particular it is not an error. -/
def Obligations.EndOfDataStep : Prop :=
  ∀ s : State, s.ready → s.region.len ≤ s.pc →
    step s = exec .endMark s ∧ ∃ t, step s = .next t ∧ t.fault = none

/-- 43_dispatcher.md section 1, step 3 of `next()`: an opcode byte without a handler is consumed and
raises UnknownOpcode with the byte. That nothing but the cursor and `fault` changes is log 3 (DEDUCED)
over R211, R212 and decision D15. -/
def Obligations.UnknownOpcodeStep : Prop :=
  ∀ (s : State) (b : Byte), s.ready → s.region.read s.pc = some b →
    registered handlerTable b = false →
    step s = .next { s with pc := s.pc + 1, fault := some (.unknownOpcode b) }

/-- 60_exceptions.md sections 1 and 3: at step level, the errors of a command with a missing operand, or
for a missing chip: which one, with the cursor behind exactly what was consumed. That nothing but the
cursor and `fault` changes is log 3 (DEDUCED) over R211, R212 and decision D15. -/
def Obligations.OperandErrorSteps : Prop :=
  ∀ (s : State) (op : Byte), s.ready → s.region.read s.pc = some op →
    ((op = 0x50 ∨ op = 0x4F ∨ (s.cfg.dual = true ∧ (op = 0x30 ∨ op = 0x3F))) →
        s.region.len = s.pc + 1 →
        step s = .next { s with pc := s.region.len, fault := some .prematureEOF }) ∧
      (op = 0x61 → s.region.len ≤ s.pc + 2 →
        step s = .next { s with pc := s.region.len, fault := some .malformedWait }) ∧
      (s.cfg.dual = false → op = 0x30 ∨ op = 0x3F →
        step s = .next { s with pc := s.pc + 1, fault := some .dualChipDisabled })

/-- 60_exceptions.md sections 1 and 3 (decision D15): after the end of the stream a call is answered
AlreadyEnded with no next state; after an error, and for parameters no block has, there is no
transaction. -/
def Obligations.BlockedSteps : Prop :=
  ∀ s : State,
    (s.cfg.legal = true → s.fault = none → s.endOfStream = true → step s = .fault .alreadyEnded) ∧
      (∀ e, s.cfg.legal = true → s.fault = some e → step s = .fault (.noTransaction e)) ∧
      (s.cfg.legal = false → ∀ t, step s ≠ .next t)

/-- 43_dispatcher.md section 1 (R177 is derived there): a complete command other than `END`, with its
chip present, completes with the cursor at its own address plus its length, and raises nothing. -/
def Obligations.CursorAdvance : Prop :=
  ∀ (s : State) (i : Instr) (rest : List Byte), s.ready →
    decode .command (s.lookahead 3) = .ok (i, rest) → i.wellFormed = true → i ≠ .endMark →
    (s.cfg.dual = true ∨ ∀ o, i ≠ .psgw2 o ∧ i ≠ .ggst2 o) →
    ∃ t, step s = .next t ∧ t.pc = s.pc + i.lengthBytes ∧ t.fault = none

/-! ### Whole-machine rules -/

/-- 20_memory.md section 5, 00_scope.md section 4: no instruction and no step changes a parameter or
any byte of the region; every byte reads as before. -/
def Obligations.RegionIsReadOnly : Prop :=
  (∀ (i : Instr) (s t : State), exec i s = .next t → s.sameRegion t) ∧
    ∀ s t : State, step s = .next t → s.sameRegion t

/-- 43_dispatcher.md sections 4 and 6: `loops_played` changes only by one, only when the stream end of
a looping stream is met, and then the cursor is at the loop target and `position` at the loop start. -/
def Obligations.LoopsOnlyAtStreamEnd : Prop :=
  ∀ s t : State, step s = .next t →
    t.loopsPlayed = s.loopsPlayed ∨
      (s.cfg.hasLoop = true ∧ t.loopsPlayed = s.loopsPlayed + 1 ∧
        t.pc + s.cfg.dataOffset.toNat = s.cfg.loopOffset.toNat ∧
        t.position = s.cfg.totalSamples - s.cfg.loopSamples ∧
        t.samplesPlayed = s.samplesPlayed ∧ t.trace = s.trace ∧
        (s.region.read s.pc = none ∨ s.region.read s.pc = some 0x66))

/-- 43_dispatcher.md section 4, 70_reset_and_hazards.md section 2: a step only appends to the trace,
at most 65,535 events, and `samples_played` grows by exactly their number. -/
def Obligations.TraceOnlyGrows : Prop :=
  ∀ s t : State, step s = .next t →
    ∃ es, t.trace = s.trace ++ es ∧ es.length ≤ 65535 ∧
      t.samplesPlayed = s.samplesPlayed + BitVec.ofNat 32 es.length

/-- The invariant of Safety.lean (R30, R32, R33, R24, R129 (a), R146, R174, R175 (1), R200, R136):
every step from any state that meets it gives a state that meets it. -/
def Obligations.StepKeepsInvariant : Prop :=
  ∀ s t : State, s.Inv → step s = .next t → t.Inv

/-- R169, R170, R149: the trace holds one event per sample, numbered by `samples_played`, with arrays
of 4·N entries; every step keeps this. -/
def Obligations.StepKeepsTraceNumbering : Prop :=
  ∀ s t : State, s.traceOk → step s = .next t → t.traceOk

/-- R240: every block construction accepts starts in a state that meets both invariants; State.reset
is one. -/
def Obligations.ResetMeetsInvariants : Prop :=
  (∀ (c : Config) (bs : List Byte) (s : State), construct c (Region.ofBytes bs) = .next s →
      s.Inv ∧ s.traceOk) ∧
    construct Config.default (Region.ofBytes []) = .next State.reset

/-! ### Construction and installation -/

/-- R241: construction raises InvalidSetting exactly for a width out of range, and a legal width has
a seed that is non-zero and fits `SR_WIDTH` bits. -/
def Obligations.ConstructionChecksWidth : Prop :=
  ∀ (c : Config) (r : Region),
    (construct c r = .fault .invalidSetting ↔ c.srWidth ≤ 0 ∨ 16 < c.srWidth) ∧
      (0 < c.srWidth → c.srWidth ≤ 16 →
        (Chip.reset c).noiseSeed ≠ 0 ∧ (Chip.reset c).noiseSeed.toNat < 2 ^ c.width ∧
          (Chip.reset c).noiseSeed.toNat = 2 ^ (c.srWidth.toNat - 1))

/-- 10_state.md section 7: the state after construction. The seed, the edges, the masks and the
cursor are the source's; the rest are the spec's decisions D1, D2, D15, D22 or derived. -/
def Obligations.StateAfterConstruction : Prop :=
  ∀ (c : Config) (r : Region) (s : State), construct c r = .next s →
    s.cfg = c ∧ s.region = r ∧ s.pc = 0 ∧ s.position = 0 ∧ s.samplesPlayed = 0 ∧
      s.loopsPlayed = 0 ∧ s.endOfStream = false ∧ s.fault = none ∧ s.trace = [] ∧
      ∀ k, (s.port k).ggStereo = 0xFF ∧ (s.port k).left = Quad.zero ∧ (s.port k).right = Quad.zero ∧
        (s.chip k).noiseSeed.toNat = 2 ^ (c.srWidth.toNat - 1) ∧ (s.chip k).adr = 0 ∧
        (s.chip k).noiseMode = .periodic ∧ (s.chip k).noiseRef = false ∧
        (s.chip k).noiseFreq = 32 ∧ (s.chip k).noiseVolume = 15 ∧ (s.chip k).noiseCount = 0 ∧
        (s.chip k).baseCount = 0 ∧ (s.chip k).channels = Quad.zero ∧
        ∀ i, (s.chip k).tone i = ⟨0, 15, 0, false, false⟩

/-- 43_dispatcher.md section 5, 60_exceptions.md section 1, 70_reset_and_hazards.md section 3: before the
first `next()`, `install` of a handle with a registered opcode raises DuplicateHandler with one of its
own opcodes that is registered, and registers nothing; otherwise the handle is appended to the emulator
list and all its entries are registered beside the old ones. After a `next()` has completed `install` is
refused (93 U5). It cannot be a duplicate where the block installs the driver, and is one on a second
install; that it then carries 0x50, the first entry of the driver's list, is the model's choice (log 15;
the host's calls: log 8). -/
def Obligations.InstallDuplicates : Prop :=
  ∀ (h : Handle) (d : Setup),
    (d.started = false →
        ((∃ e ∈ h.entries, registered d.handlers e.1 = true) →
            ∃ e ∈ h.entries, registered d.handlers e.1 = true ∧
              install h d = .fault (.duplicateHandler e.1)) ∧
          ((∀ e ∈ h.entries, registered d.handlers e.1 = false) →
            ∃ d', install h d = .next d' ∧ d'.emulators = d.emulators ++ [h] ∧ d'.started = false ∧
              ∀ b, registered d'.handlers b = true ↔
                registered d.handlers b = true ∨ registered h.entries b = true)) ∧
      (d.started = true → install h d = .refused .lateInstall) ∧
      install driverHandle Setup.initial = .next Setup.block ∧
      install driverHandle Setup.block = .fault (.duplicateHandler 0x50) ∧
      ∀ b b' : Session,
        (hostCall .next b = .next b' → step b.state = .next b'.state ∧ b'.setup.started = true ∧
            b'.setup.emulators = b.setup.emulators ∧ b'.setup.handlers = b.setup.handlers ∧
            hostCall (.install h) b' = .refused .lateInstall) ∧
          (hostCall (.install h) b = .next b' → b'.state = b.state ∧
            install h b.setup = .next b'.setup) ∧
          (∀ t, b.setup.emulators = [driverHandle] → step b.state = .next t →
            hostCall .next b = .next ⟨b.setup.start, t⟩)

/-! ### Mixing -/

/-- 44_mixing.md (evaluation: decision D12): the sum of two finite binary32 values is the exact sum,
rounded by at most half a unit in the last place of the result's binade, where that does not
overflow. -/
def Obligations.AdditionRoundsOnce : Prop :=
  ∀ x y : F32, f32Finite x = true → f32Finite y = true →
    let z := f32Units x + f32Units y
    z.natAbs < 2 ^ 276 →
      f32Finite (f32Add x y) = true ∧
        2 * (f32Units (f32Add x y) - z).natAbs ≤ 2 ^ f32Drop z.natAbs 0

/-- 44_mixing.md (decision D12): dividing a finite binary32 value by 2^k, as the mean of 2^k entries
does, gives the exact quotient rounded by at most half a unit in the last place, and is exact where the
quotient is a zero or a normal number. -/
def Obligations.DivisionRoundsOnce : Prop :=
  ∀ (x : F32) (k : Nat), f32Finite x = true → 1 ≤ k →
    f32Finite (f32DivPow2 x k) = true ∧
      2 * (f32Units (f32DivPow2 x k) * 2 ^ k - f32Units x).natAbs ≤ 2 ^ f32Drop (f32Mag x) k ∧
      (f32Mag x = 0 ∨ 2 ^ (23 + k) ≤ f32Mag x → f32Units (f32DivPow2 x k) * 2 ^ k = f32Units x)

/-- 44_mixing.md, under every evaluation of R194's configuration field: where all entries of the arrays
have magnitude at most 1.0, so have the left, right and mono outputs; where all entries are zeros of
either sign all three outputs are +0.0 (under an evaluation other than R194's own that sign is the
model's choice, log 12). -/
def Obligations.OutputsBounded : Prop :=
  ∀ s : State, (∀ x ∈ leftChannels s ++ rightChannels s, f32AtMostOne x) →
    (f32AtMostOne (leftOutput s) ∧ f32AtMostOne (rightOutput s) ∧ f32AtMostOne (monoOutput s)) ∧
      ((∀ x ∈ leftChannels s ++ rightChannels s, x.toNat % 2 ^ 31 = 0) →
        leftOutput s = 0 ∧ rightOutput s = 0 ∧ monoOutput s = 0)

/-- 44_mixing.md, R190 to R192. Under R194's own evaluation (decision D12) `left_output` is the rounded
sum of `left` in index order divided by 4·N, `right_output` that of `right`, and `mono_output` half
the rounded sum of the two. Under every evaluation of the configuration field, where no entry is above
1.0 in magnitude, they are the mean of `left`, of `right`, and the half sum of the two outputs: up to
the roundings (4·N additions and one division of at most 2^128 units of 2^-149 each, and for mono two
of at most 2^126), and exactly where no addition can round (the summands are multiples of one power of
two, and their magnitudes sum to less than 2^24 times it). -/
def Obligations.MixedOutputsAreMeans : Prop :=
  ∀ s : State,
    let n := 4 * s.cfg.chipCount
    let j := if s.cfg.dual then 3 else 2
    let l := leftChannels s
    let r := rightChannels s
    (s.cfg.mixing = .indexOrder →
        leftOutput s = f32DivPow2 (l.foldl f32Add 0) j ∧
          rightOutput s = f32DivPow2 (r.foldl f32Add 0) j ∧
          monoOutput s = f32DivPow2 (f32Add (leftOutput s) (rightOutput s)) 1) ∧
      ((∀ x ∈ l ++ r, f32AtMostOne x) →
        ((n * f32Units (leftOutput s) - unitsSum l).natAbs ≤ (n + 1) * 2 ^ 128 ∧
          (n * f32Units (rightOutput s) - unitsSum r).natAbs ≤ (n + 1) * 2 ^ 128 ∧
          (2 * f32Units (monoOutput s) - (f32Units (leftOutput s) + f32Units (rightOutput s))).natAbs
            ≤ 2 ^ 127) ∧
        ∀ m : Nat, 3 ≤ m →
          (exactSum m l → n * f32Units (leftOutput s) = unitsSum l) ∧
            (exactSum m r → n * f32Units (rightOutput s) = unitsSum r) ∧
            (exactSum m [leftOutput s, rightOutput s] →
              2 * f32Units (monoOutput s) = f32Units (leftOutput s) + f32Units (rightOutput s)))
end

