-- ==== Sys2Proof/Tests/Slice0.lean ====
section
/-!
SUPPORT. The model's own tests: the WellFormed smoke test, the decoding of one word per form, one or
two single steps per instruction with results from spec/95_test_vectors.md and from the examples of
the rules, and one witness for every obligation with hypotheses.
-/

namespace Sys2Proof.Tests

open Sys2Proof Sys2Proof.Machine

/-! ### Helpers -/

/-- The next state of an outcome. -/
def after : Result → Option State
  | .next s => some s
  | .fault _ => none
  | .refused _ => none

/-- The fault of an outcome. -/
def stopped : Result → Option Fault
  | .next _ => none
  | .fault f => some f
  | .refused _ => none

/-- The refusal of an outcome. -/
def declined : Result → Option Refusal
  | .next _ => none
  | .fault _ => none
  | .refused r => some r

/-- A block right after construction. -/
def block (c : Config) (bs : List Byte) : State := State.initial c (Region.ofBytes bs)

/-- The default setting with a second chip. -/
def dualConfig : Config := { Config.default with dualChip := true }

/-- The default setting with `GG_STEREO_OFF`. -/
def monoConfig : Config := { Config.default with ggStereoOff := true }

/-- The header of scenario S5. -/
def loopConfig : Config :=
  { Config.default with totalSamples := 1470, loopSamples := 735, loopOffset := 0x41 }

/-- A header whose loop target would be negative (U9). -/
def badLoopConfig : Config := { loopConfig with loopOffset := 0x3F }

/-- A chip of the default setting, right after construction. -/
def chip : Chip := Chip.reset Config.default

/-- The reset state with another chip 0. -/
def withChip (c : Chip) : State := State.reset.setChip .c0 c

/-- The reset state with another `adr` of chip 0. -/
def withAdr (a : BitVec 3) : State := withChip (chip.withAdr a)

/-- Chip 0 after one register-write byte. -/
def written (val : Byte) (c : Chip) : Option Chip :=
  (after (psgWrite .c0 val (withChip c))).map (·.psg0)

/-- One step of a fresh block. -/
def first (c : Config) (bs : List Byte) : Option State := after (step (block c bs))

/-! ### WellFormed refuses an ill-formed term of each kind -/

theorem test_illFormed_psgw1 : (Instr.psgw1 .absent).wellFormed = false := by decide
theorem test_illFormed_psgw2 : (Instr.psgw2 .absent).wellFormed = false := by decide
theorem test_illFormed_ggst1 : (Instr.ggst1 .absent).wellFormed = false := by decide
theorem test_illFormed_ggst2 : (Instr.ggst2 .absent).wellFormed = false := by decide
theorem test_illFormed_wait_none : (Instr.wait .absent).wellFormed = false := by decide
theorem test_illFormed_wait_half : (Instr.wait (.highAbsent 0x05)).wellFormed = false := by decide
theorem test_wellFormed :
    (Instr.wait (.word 735)).wellFormed = true ∧ (Instr.psgw1 (.byte 0x90)).wellFormed = true ∧
      (Instr.data .c1 0 0x3F).wellFormed = true := by decide

/-! ### Decoding, one word per form (30_encoding.md R81, R87, R88) -/

theorem test_decode_psgw2 :
    decode .command [0x30, 0x90, 0xAA] = .ok (.psgw2 (.byte 0x90), [0xAA]) := by decide
theorem test_decode_ggst2 : decode .command [0x3F, 0xF0] = .ok (.ggst2 (.byte 0xF0), []) := by decide
theorem test_decode_ggst1 : decode .command [0x4F, 0x11] = .ok (.ggst1 (.byte 0x11), []) := by decide
theorem test_decode_psgw1 : decode .command [0x50, 0x90] = .ok (.psgw1 (.byte 0x90), []) := by decide
theorem test_decode_wait :
    decode .command [0x61, 0xDF, 0x02, 0x66] = .ok (.wait (.word 0x02DF), [0x66]) := by decide
theorem test_decode_wait_short :
    decode .command [0x61, 0x05] = .ok (.wait (.highAbsent 0x05), []) ∧
      decode .command [0x61] = .ok (.wait .absent, []) ∧
      decode .command [0x50] = .ok (.psgw1 .absent, []) := by decide
theorem test_decode_wait60 : decode .command [0x62, 0x66] = .ok (.wait60, [0x66]) := by decide
theorem test_decode_wait50 : decode .command [0x63] = .ok (.wait50, []) := by decide
theorem test_decode_end : decode .command [0x66] = .ok (.endMark, []) := by decide
theorem test_decode_t0Flo : decodeWriteByte .c0 0b10001111 = .t0Flo .c0 15 := by decide
theorem test_decode_t0Vol : decodeWriteByte .c0 0b10010101 = .t0Vol .c0 5 := by decide
theorem test_decode_t1Flo : decodeWriteByte .c1 0b10100101 = .t1Flo .c1 5 := by decide
theorem test_decode_t1Vol : decodeWriteByte .c0 0b10110111 = .t1Vol .c0 7 := by decide
theorem test_decode_t2Flo : decodeWriteByte .c0 0b11000001 = .t2Flo .c0 1 := by decide
theorem test_decode_t2Vol : decodeWriteByte .c0 0b11010011 = .t2Vol .c0 3 := by decide
theorem test_decode_nCtl : decodeWriteByte .c0 0b11101110 = .nCtl .c0 14 := by decide
theorem test_decode_nVol : decodeWriteByte .c1 0b11110100 = .nVol .c1 4 := by decide
theorem test_decode_data :
    decodeWriteByte .c0 0b00111111 = .data .c0 0 0x3F ∧
      decodeWriteByte .c0 0b01100001 = .data .c0 1 0x21 := by decide

/-- 95_test_vectors.md 2.7: neighbours of the legal opcodes are illegal (R84). -/
theorem test_decode_unknown :
    ([0x00, 0x31, 0x3E, 0x40, 0x4E, 0x51, 0x60, 0x64, 0x65, 0x67, 0xFF] : List Byte).all
      (fun b => decode .command [b, 0x00] == .error (.unknownOpcode b)) = true := by decide

theorem test_decode_end_of_data : decode .command [] = .error .endOfData := by decide

theorem test_encode :
    encode (.wait (.word 0x02DF)) = [0x61, 0xDF, 0x02] ∧ encode (.nCtl .c0 4) = [0xE4] ∧
      encode (.data .c0 0 0x20) = [0x20] := by decide

/-! ### Opcode-table words and the host's placing of them -/

theorem test_tableWord :
    decodeTableWord 16 0x9050 = some (.psgw1 (.byte 0x90)) ∧
      decodeTableWord 24 0x02DF61 = some (.wait (.word 735)) ∧
      decodeTableWord 8 0x61 = some (.wait (.word 0)) ∧ decodeTableWord 8 0x66 = some .endMark ∧
      decodeTableWord 8 0x8F = some (.t0Flo .c0 15) ∧ decodeTableWord 8 0xE4 = some (.nCtl .c0 4) ∧
      decodeTableWord 8 0x00 = some (.data .c0 0 0) := by decide

/-- The first step after reset runs a placed command (vector `50 90`). -/
theorem test_withFetchWord_command :
    (after (step (State.reset.withFetchWord 16 0x9050))).map
        (fun s => (s.pc, s.psg0.adr, s.psg0.tone0.volume)) = some (2, 1, 0) := by decide

/-- The first step after reset runs a placed register-write byte (vector 0xB7). -/
theorem test_withFetchWord_writeByte :
    (after (step (State.reset.withFetchWord 8 0xB7))).map
        (fun s => (s.psg0.adr, s.psg0.tone1.volume, s.fault)) = some (3, 7, none) := by decide

/-! ### Driver commands (95_test_vectors.md 2.6) -/

theorem test_psgw1 :
    (first Config.default [0x50, 0x90]).map
        (fun s => (s.pc, s.psg0.adr, s.psg0.tone0.volume, s.position, s.trace)) =
      some (2, 1, 0, 0, []) := by decide
theorem test_psgw1_absent :
    (first Config.default [0x50]).map (fun s => (s.pc, s.fault)) =
      some (1, some .prematureEOF) := by decide
theorem test_psgw2 :
    (first dualConfig [0x30, 0x90]).map
        (fun s => (s.pc, s.psg1.adr, s.psg1.tone0.volume, s.psg0)) = some (2, 1, 0, chip) := by decide
theorem test_psgw2_single :
    (first Config.default [0x30]).map (fun s => (s.pc, s.fault)) =
      some (1, some .dualChipDisabled) := by decide
theorem test_ggst1 :
    (first Config.default [0x4F, 0x11]).map (fun s => (s.pc, s.port0.ggStereo)) =
      some (2, 0x11) := by decide
theorem test_ggst1_off :
    (first monoConfig [0x4F, 0x11]).map (fun s => (s.pc, s.port0.ggStereo)) =
      some (2, 0xFF) := by decide
theorem test_ggst2 :
    (first dualConfig [0x3F, 0xF0]).map (fun s => (s.pc, s.port0.ggStereo, s.port1.ggStereo)) =
      some (2, 0xFF, 0xF0) := by decide
theorem test_ggst2_single :
    (first Config.default [0x3F, 0xF0]).map (fun s => (s.pc, s.fault)) =
      some (1, some .dualChipDisabled) := by decide

/-! ### Dispatcher commands (95_test_vectors.md S1, S3, S5, 2.7) -/

/-- `61 01 00`: one sample, whose event sees `position` 1. -/
theorem test_wait :
    (first Config.default [0x61, 0x01, 0x00]).map
        (fun s => (s.pc, s.trace.map (fun e => (e.position, e.samplesPlayed)))) =
      some (3, [(1, 1)]) := by decide
theorem test_wait_short :
    (first Config.default [0x61, 0x05]).map (fun s => (s.pc, s.fault, s.trace)) =
      some (2, some .malformedWait, []) := by decide
/-- Scenario S2: 735 events, `position` 735. -/
theorem test_wait60 (s : State) (h : s.position = 0) (ht : s.trace = []) :
    (after (exec .wait60 s)).map (fun t => (t.pc, t.position, t.trace.length)) =
      some (s.pc, 735, 735) := by
  have e : exec .wait60 s = .next (advanceSamples 735 s) := rfl
  rw [e]
  generalize hn : (735 : Nat) = n
  simp only [after, Option.map_some, advanceSamples_pc, advanceSamples_position,
    advanceSamples_trace_length, h, ht]
  subst hn
  rfl
/-- `63`: 882 events, `position` 882. -/
theorem test_wait50 (s : State) (h : s.position = 0) (ht : s.trace = []) :
    (after (exec .wait50 s)).map (fun t => (t.pc, t.position, t.trace.length)) =
      some (s.pc, 882, 882) := by
  have e : exec .wait50 s = .next (advanceSamples 882 s) := rfl
  rw [e]
  generalize hn : (882 : Nat) = n
  simp only [after, Option.map_some, advanceSamples_pc, advanceSamples_position,
    advanceSamples_trace_length, h, ht]
  subst hn
  rfl
theorem test_end :
    (first Config.default [0x66]).map
        (fun s => (s.pc, s.endOfStream, s.samplesPlayed, s.loopsPlayed, s.trace)) =
      some (1, true, 0, 0, []) := by decide
/-- Scenario S5 at its first `END`. -/
theorem test_end_loop :
    (after (step { block loopConfig [0x62, 0x62, 0x66] with
        pc := 2, position := 1470, samplesPlayed := 1470 })).map
        (fun s => (s.pc, s.position, s.samplesPlayed, s.loopsPlayed, s.endOfStream)) =
      some (1, 735, 1470, 1, false) := by decide

/-- An empty region ends on the first call; a second call is turned away. -/
theorem test_end_of_data :
    (first Config.default []).map (fun s => (s.pc, s.endOfStream, s.fault)) =
      some (0, true, none) ∧
      (first Config.default []).map (fun s => stopped (step s)) = some (some .alreadyEnded) := by
  decide
theorem test_unknown :
    (first Config.default [0xFF, 0x00]).map (fun s => (s.pc, s.fault)) =
      some (1, some (.unknownOpcode 0xFF)) ∧
      (first Config.default [0xFF, 0x00]).map (fun s => stopped (step s)) =
        some (some (.noTransaction (.unknownOpcode 0xFF))) := by decide

/-! ### Register-write bytes (95_test_vectors.md 2.1) -/

theorem test_t0Flo : (written 0x8F chip).map (fun c => (c.adr, c.tone0.freq, c.tone0.volume)) =
    some (0, 0x00F, 15) := by decide
/-- 0x8A, 0x3F, 0x85: a low-nibble latch keeps bits 9:4. -/
theorem test_t0Flo_keeps :
    (written 0x85 (chip.setTone .t0 (Tone.reset.withFreq 0x3FA))).map (fun c => c.tone0.freq) =
      some 0x3F5 := by decide
theorem test_t0Vol : (written 0x90 chip).map (fun c => (c.adr, c.tone0.volume, c.channels)) =
    some (1, 0, Quad.zero) := by decide
theorem test_t1Flo : (written 0xA5 chip).map (fun c => (c.adr, c.tone1.freq)) =
    some (2, 0x005) := by decide
theorem test_t1Vol : (written 0xB7 chip).map (fun c => (c.adr, c.tone1.volume)) =
    some (3, 7) := by decide
theorem test_t2Flo : (written 0xC1 chip).map (fun c => (c.adr, c.tone2.freq)) =
    some (4, 0x001) := by decide
theorem test_t2Vol : (written 0xD3 chip).map (fun c => (c.adr, c.tone2.volume)) =
    some (5, 3) := by decide
/-- 0xEC is 0xE4: bit 3 is ignored. -/
theorem test_nCtl :
    (written 0xEC (chip.withSeed 0x1234)).map
        (fun c => (c.adr, c.noiseMode, c.noiseRef, c.noiseFreq, c.noiseSeed)) =
      some (6, .white, false, 32, 0x8000) := by decide
/-- 0xE3 with `tone[2].freq` = 0: the stored period is forced to 1. -/
theorem test_nCtl_forced :
    (written 0xE3 chip).map (fun c => (c.noiseMode, c.noiseRef, c.noiseFreq)) =
      some (.periodic, true, 1) := by decide
theorem test_nVol : (written 0xF4 chip).map (fun c => (c.adr, c.noiseVolume)) =
    some (7, 4) := by decide
/-- 0x90, 0x20: after a volume latch the data byte writes the frequency of the same channel. -/
theorem test_data : (written 0x20 (chip.withAdr 1)).map (fun c => (c.adr, c.tone0.freq)) =
    some (1, 0x200) := by decide
/-- 0xE4, 0x3F: a data byte with `adr` 6 changes nothing. -/
theorem test_data_noise : written 0x3F (chip.withAdr 6) = some (chip.withAdr 6) := by decide

/-! ### The sample (95_test_vectors.md 2.2, 2.3, 2.8, 2.9, S3; rule examples) -/

theorem test_baseIncr :
    baseIncr Config.default = 85111677 ∧
      baseIncr { Config.default with clock := 89611200 } = 2130706432 ∧
      baseIncr { Config.default with clock := 1 } = 23 := by decide
theorem test_rate : (tickCount Config.default chip, (chip.advance Config.default).baseCount) =
    (5, 0x12B37D) := by decide
/-- Sample 14 of R123's example. -/
theorem test_rate_carry :
    (tickCount Config.default (chip.withBase 0xF31D59),
      ((chip.withBase 0xF31D59).advance Config.default).baseCount) = (6, 0x05D0D6) := by decide
theorem test_lfsr_white :
    [0x8000, 0x0008, 0x8004, 0x2001, 0x0009, 0xFFFF].map (lfsrStep Config.default .white) =
      [0x4000, 0x8004, 0x4002, 0x9000, 0x0004, 0x7FFF] := by decide
theorem test_lfsr_periodic :
    [0x0001, 0x8000].map (lfsrStep Config.default .periodic) = [0x8000, 0x4000] := by decide
/-- R126 (b): a period of 1023 takes the counter from 251 + 5 to -767 and shifts. -/
theorem test_noise_negative :
    (((chip.withNoiseControl .white true 1).setTone .t2 (Tone.reset.withFreq 1023)).withNoiseCount
        251 |>.advance Config.default |> fun c => (c.noiseCount.toInt, c.noiseSeed)) =
      (-767, 0x4000) := by decide
/-- R130: `freq` 0x200 and `count` 1024 after the addition toggle and leave 512. -/
theorem test_tone_toggle :
    ((chip.setTone .t0 ⟨0x200, 0, 1019, false, false⟩).advance Config.default |>
        fun c => (c.tone0.count, c.tone0.edge, c.channels.ch0)) = (512, true, 0x3F800000) := by decide
/-- R130: `freq` 0 forces the edge and subtracts nothing. -/
theorem test_tone_zero :
    ((chip.setTone .t0 ⟨0, 0, 1019, false, false⟩).advance Config.default |>
        fun c => (c.tone0.count, c.tone0.edge)) = (1024, true) := by decide
/-- S3: one sample leaves `channels` = [-1.0, -0.0, -0.0, -0.0]. -/
theorem test_channels :
    ((chip.setTone .t0 ⟨0x200, 0, 0, false, false⟩).advance Config.default).channels =
      ⟨0xBF800000, 0x80000000, 0x80000000, 0x80000000⟩ := by decide
theorem test_outputNeg :
    ((chip.setTone .t0 ⟨0x200, 0, 0, false, false⟩).advance
        { Config.default with outputNeg := true }).channels = ⟨0x3F800000, 0, 0, 0⟩ := by decide
theorem test_gate :
    (gatedQuad 0x81 4 ⟨1, 2, 3, 4⟩, gatedQuad 0x81 0 ⟨1, 2, 3, 4⟩) =
      ((⟨0, 0, 0, 4⟩, ⟨1, 0, 0, 0⟩) : Quad × Quad) ∧
      (gatedQuad 0x5A 4 ⟨1, 2, 3, 4⟩, gatedQuad 0x5A 0 ⟨1, 2, 3, 4⟩) =
        ((⟨1, 0, 3, 0⟩, ⟨0, 2, 0, 4⟩) : Quad × Quad) := by decide
theorem test_mean :
    meanF32 [0xBF800000, 0x80000000, 0x80000000, 0x80000000] = 0xBE800000 ∧
      meanF32 [0x3F4B5918, 0x3F21866B, 0, 0] = 0x3EB66FC2 ∧
      meanF32 [0x3F4B5918, 0xBF21866B, 0x3E4C5099, 0xBE00E9F8] = 0x3D72B154 := by decide
/-- Another evaluation (R194, its own example of entries whose sum rounds): R190's and R192's exact
examples hold there too. -/
theorem test_otherMean :
    mixMean { Config.default with mixing := .other [(3, 0), (1, 1)] 0 }
        [0xBF800000, 0x80000000, 0x80000000, 0x80000000] = 0xBE800000 ∧
      mixHalf { Config.default with mixing := .other [] 29 } 0xBE800000 0xBE800000 = 0xBE800000 ∧
      mixMean { Config.default with mixing := .other [] 0 } [0x3F4B5918, 0x3F21866B, 0, 0] =
        0x3EB66FC2 := by decide
theorem test_mono :
    f32DivPow2 (f32Add 0x3EB66FC2 0x3E4B5918) 1 = 0x3E8E0E27 := by decide

/-! ### Construction, installation and the host's calls (95_test_vectors.md 2.10, 2.11) -/

theorem test_construct_width :
    stopped (construct { Config.default with srWidth := 0 } ⟨[], 0⟩) = some .invalidSetting ∧
      stopped (construct { Config.default with srWidth := 17 } ⟨[], 0⟩) = some .invalidSetting ∧
      (after (construct { Config.default with srWidth := 15 } ⟨[], 0⟩)).map
        (fun s => s.psg0.noiseSeed) = some 0x4000 := by decide
theorem test_construct_refused :
    declined (construct badLoopConfig ⟨[], 0⟩) = some .negativeLoopTarget ∧
      declined (construct { Config.default with clock := 89611201 } ⟨[], 0⟩) =
        some .clockOutOfRange := by decide
/-- A block as the host holds it: constructed, with the driver installed. -/
def session : Session := ⟨Setup.block, State.reset⟩

/-- A second install of the driver, and one after a `next()`. -/
theorem test_install :
    (match hostCall (.install driverHandle) session with
      | .fault f => f = .duplicateHandler 0x50
      | _ => False) ∧
      (match hostCall .next session with
        | .next b => match hostCall (.install driverHandle) b with
          | .refused r => r = .lateInstall
          | _ => False
        | _ => False) := ⟨rfl, rfl⟩
theorem test_refused_calls :
    hostCall .reenter session = .refused .reentry ∧
      hostCall .timestamp session = .refused .timestampUndefined ∧
      hostCall .next ⟨Setup.initial, State.reset⟩ = .refused .otherHandles := ⟨rfl, rfl, rfl⟩

/-! ### Witnesses: states and operands that meet the hypotheses of the obligations -/

/-- A block with `GG_STEREO_OFF` and two chips. -/
def dualMonoConfig : Config := { dualConfig with ggStereoOff := true }

/-- A ready block whose cursor stands at a command. -/
def ready (bs : List Byte) : State := block Config.default bs

theorem legal_default : Config.default.legal = true := by decide
theorem legal_dual : dualConfig.legal = true := by decide
theorem legal_loop : loopConfig.legal = true := by decide

theorem witness_DecodeEncodeRoundTrip :
    (Instr.wait (.word 0xFFFF)).wellFormed = true ∧ (Instr.psgw2 (.byte 0)).wellFormed = true ∧
      (Instr.nCtl .c1 15).wellFormed = true ∧ (Instr.data .c0 1 0x3F).wellFormed = true := by decide

theorem witness_EncodeDecodeRoundTrip :
    decode .command [0x61, 0xFF] = .ok (.wait (.highAbsent 0xFF), []) ∧
      decode .command [0x30, 0x00, 0x66] = .ok (.psgw2 (.byte 0x00), [0x66]) ∧
      decode (.writePort .c1) [0xFF] = .ok (.nVol .c1 15, []) := by decide

/-- The ends of R84's ranges are listed, the eight opcodes are not. -/
theorem witness_UndefinedOpcodesRefused :
    (([0x00, 0x2F, 0x31, 0x3E, 0x40, 0x4E, 0x51, 0x60, 0x64, 0x65, 0x67, 0xFF] : List Nat).all
      fun b => decide (b ≤ 0x2F ∨ (0x31 ≤ b ∧ b ≤ 0x3E) ∨ (0x40 ≤ b ∧ b ≤ 0x4E) ∨
        (0x51 ≤ b ∧ b ≤ 0x60) ∨ b = 0x64 ∨ b = 0x65 ∨ 0x67 ≤ b)) = true ∧
      (([0x30, 0x3F, 0x4F, 0x50, 0x61, 0x62, 0x63, 0x66] : List Nat).all
        fun b => decide (¬ (b ≤ 0x2F ∨ (0x31 ≤ b ∧ b ≤ 0x3E) ∨ (0x40 ≤ b ∧ b ≤ 0x4E) ∨
          (0x51 ≤ b ∧ b ≤ 0x60) ∨ b = 0x64 ∨ b = 0x65 ∨ 0x67 ≤ b))) = true := by decide

/-- Both chips can be present: the hypothesis of ToneFrequencyLowWrites, ToneVolumeWrites,
NoiseControlWrite and NoiseVolumeWrite. -/
theorem witness_present :
    State.reset.present .c0 = true ∧ (block dualConfig []).present .c1 = true := by decide

/-- `adr` at both ends of every clause of DataByteWrites, and a chip that is present. -/
theorem witness_DataByteWrites :
    (withAdr 0).present .c0 = true ∧ ((withAdr 0).chip .c0).adr.toNat ≤ 1 ∧
      ((withAdr 1).chip .c0).adr.toNat ≤ 1 ∧ 2 ≤ ((withAdr 2).chip .c0).adr.toNat ∧
      ((withAdr 3).chip .c0).adr.toNat ≤ 3 ∧ 4 ≤ ((withAdr 4).chip .c0).adr.toNat ∧
      ((withAdr 5).chip .c0).adr.toNat ≤ 5 ∧ 6 ≤ ((withAdr 6).chip .c0).adr.toNat ∧
      6 ≤ ((withAdr 7).chip .c0).adr.toNat := by decide

theorem witness_WritesLeaveGeneratorsAlone :
    (Instr.data .c1 0 0).space = .writePort .c1 ∧ (block dualConfig []).present .c1 = true ∧
      ∀ d, Instr.data .c1 0 0 ≠ .nCtl .c1 d := by
  refine ⟨by decide, by decide, fun d h => ?_⟩
  cases h

theorem witness_EveryWriteByteIsLegal :
    State.reset.present .c0 = true ∧ (0x00 : Byte).getLsbD 7 = false ∧
      (0x7F : Byte).getLsbD 7 = false ∧ (0xE0 : Byte).toNat / 16 = 14 ∧
      (0xEF : Byte).toNat / 16 = 14 := by decide

theorem witness_WriteToMissingChip :
    (Instr.nCtl .c1 0).space = .writePort .c1 ∧ State.reset.cfg.dual = false := by decide

/-- Psgw2Command and Ggst2Command: a single-chip block, a dual-chip block, with and without
`GG_STEREO_OFF`; Ggst1Command: `GG_STEREO_OFF` clear and set. -/
theorem witness_driver_settings :
    (block Config.default []).cfg.dual = false ∧ (block dualConfig []).cfg.dual = true ∧
      (block dualConfig []).cfg.ggStereoOff = false ∧
      (block dualMonoConfig []).cfg.dual = true ∧
      (block dualMonoConfig []).cfg.ggStereoOff = true ∧
      (block Config.default []).cfg.ggStereoOff = false ∧
      (block monoConfig []).cfg.ggStereoOff = true := by decide

theorem witness_StereoGating :
    State.reset.present .c0 = true ∧ 0 < 4 ∧ (block dualConfig []).present .c1 = true ∧ 3 < 4 := by
  decide

/-- Two blocks that differ in chip 1 only, and a command of each kind. -/
theorem witness_ChipsAreIndependent :
    (block dualConfig []).cfg = ((block dualConfig []).setChip .c1 (chip.withAdr 5)).cfg ∧
      (block dualConfig []).chip .c0 =
        ((block dualConfig []).setChip .c1 (chip.withAdr 5)).chip .c0 ∧
      (block dualConfig []).port .c0 =
        ((block dualConfig []).setChip .c1 (chip.withAdr 5)).port .c0 ∧
      commandChip (.psgw1 (.byte 0x90)) = some .c0 ∧ commandChip (.ggst1 .absent) = some .c0 ∧
      commandChip (.psgw2 .absent) = some .c1 ∧ commandChip (.ggst2 (.byte 0xF0)) = some .c1 := by
  decide

theorem witness_BaseIncrement :
    ({ Config.default with clock := 89611200 } : Config).legal = true ∧
      ({ Config.default with ckdivOff := true } : Config).clock = Config.default.clock := by decide

/-- The largest clock and the largest fraction; and an accumulator of 0. -/
theorem witness_RateConverter :
    ({ Config.default with clock := 89611200 } : Config).legal = true ∧
      (chip.withBase 0xFFFFFF).baseCount.toNat < 2 ^ 24 ∧ Config.default.legal = true ∧
      chip.baseCount = 0 := by decide

/-- 251 + 5 sets bit 8, 250 + 5 does not; -6 + 5 sets it. -/
theorem witness_NoiseGeneratorStep :
    ((chip.withNoiseCount 251).noiseCount.toInt +
        (tickCount Config.default (chip.withNoiseCount 251)).toInt) / 256 % 2 = 1 ∧
      ((chip.withNoiseCount 250).noiseCount.toInt +
        (tickCount Config.default (chip.withNoiseCount 250)).toInt) / 256 % 2 = 0 ∧
      ((chip.withNoiseCount (-6)).noiseCount.toInt +
        (tickCount Config.default (chip.withNoiseCount (-6))).toInt) / 256 % 2 = 1 := by decide

theorem witness_LfsrShift :
    Config.default.width ≤ 16 ∧ (0xFFFF : BitVec 16).toNat < 2 ^ Config.default.width ∧
      ({ Config.default with srWidth := 2 } : Config).width = 2 ∧
      (3 : BitVec 16).toNat < 2 ^ ({ Config.default with srWidth := 2 } : Config).width ∧
      ({ Config.default with srWidth := 1 } : Config).width = 1 ∧
      (1 : BitVec 16).toNat < 2 ^ ({ Config.default with srWidth := 1 } : Config).width := by decide

theorem witness_PeriodicNoiseCycle :
    Config.default.legal = true ∧ 0 < 1 ∧ 1 < Config.default.width ∧ 15 < Config.default.width := by
  decide

theorem witness_SeedReachesZeroOnlyFromOne :
    2 ≤ Config.default.width ∧ Config.default.width ≤ 16 ∧
      (1 : BitVec 16).toNat < 2 ^ Config.default.width ∧ (1 : BitVec 16) ≠ 0 := by decide

/-- NoiseOutputLevel and ChannelsBounded ask for a legal configuration only. -/
theorem witness_legal : Config.default.legal = true := legal_default

/-- Each clause of ToneGeneratorStep: a period of 2, of 1 and of 0, of 0x400 where `FREQ0` applies,
with `count` at 1019 (due after 5 ticks) and at 1018 (not due). -/
theorem witness_ToneGeneratorStep :
    (((⟨2, 0, 1019, false, false⟩ : Tone).count.toInt +
        (tickCount Config.default chip).toInt) / 1024 % 2 = 1 ∧ 1 < (2 : BitVec 10).toNat) ∧
      (1 : BitVec 10).toNat ≤ 1 ∧ (0 : BitVec 10).toNat ≤ 1 ∧
      ({ Config.default with freq0Applies := true } : Config).freq0 = true ∧
      ((⟨2, 0, 1018, false, false⟩ : Tone).count.toInt +
        (tickCount Config.default chip).toInt) / 1024 % 2 = 0 := by decide

theorem witness_ToneOutputLevel :
    Config.default.legal = true ∧ (chip.tone .t0).mute = false ∧
      ((chip.setTone .t0 ⟨0, 0, 0, false, true⟩).tone .t0).mute = true := by decide

/-- At the smallest regular period, 6 for the default clock, and the largest counter. -/
theorem witness_ToneCounterBounded :
    Config.default.legal = true ∧ chip.baseCount.toNat < 2 ^ 24 ∧
      2 ≤ ((chip.setTone .t1 ⟨6, 0, 1023, false, false⟩).tone .t1).freq.toNat ∧
      maxTicks Config.default = 6 ∧
      ((chip.setTone .t1 ⟨6, 0, 1023, false, false⟩).tone .t1).count.toNat ≤ 1023 := by decide

/-- At both ends of the regular noise periods, 6 and 256, and the largest counter. -/
theorem witness_NoiseCounterBounded :
    Config.default.legal = true ∧ maxTicks Config.default = 6 ∧
      (noisePeriod ((chip.withNoiseControl .white true 1).setTone .t2 ⟨6, 0, 0, false, false⟩)).toNat
        = 6 ∧
      (noisePeriod ((chip.withNoiseControl .white true 1).setTone .t2
        ⟨256, 0, 0, false, false⟩)).toNat = 256 ∧
      (chip.withNoiseCount 255).noiseCount.toNat ≤ 255 ∧
      (chip.withNoiseCount 255).baseCount.toNat < 2 ^ 24 := by decide

theorem witness_OutputNegFlipsSignsOnly :
    (chip.tone0.mute = false ∧ chip.tone1.mute = false ∧ chip.tone2.mute = false) ∧
      Config.default.outputNeg = false := by decide

/-- `FREQ0_APPLIES` clear, and set. -/
theorem witness_UnreadFlags :
    Config.default.freq0Applies = false ∧
      ({ Config.default with freq0Applies := true } : Config).freq0Applies = true := by decide

/-- The clause about a wait of 0. -/
theorem witness_WaitCommand : (BitVec.ofNat 16 0) = 0 := by decide

/-- The first and last samples of a wait, and the first and last channels of both chips. -/
theorem witness_WaitEvents :
    (0 < 1 ∧ 734 < 735) ∧ 65534 < 65535 ∧ (State.reset.present .c0 = true ∧ 0 < 4) ∧
      (block dualConfig []).present .c1 = true ∧ 3 < 4 := by decide

theorem witness_WaitComposition : 32768 + 32767 < 65536 ∧ 0 + 65535 < 65536 := by decide

theorem witness_WaitFrame :
    (∃ t, exec (.wait (.word 1)) State.reset = .next t) ∧ (∃ t, exec .wait60 State.reset = .next t) ∧
      (∃ t, exec .wait50 State.reset = .next t) ∧ State.reset.cfg.dual = false :=
  ⟨⟨_, rfl⟩, ⟨_, rfl⟩, ⟨_, rfl⟩, rfl⟩

/-- Without a loop; with one, its target 1 and (at the boundary) 0; with a negative one. -/
theorem witness_EndCommand :
    State.reset.cfg.hasLoop = false ∧ loopConfig.hasLoop = true ∧
      loopConfig.dataOffset.toNat ≤ loopConfig.loopOffset.toNat ∧
      ({ loopConfig with loopOffset := 0x40 } : Config).hasLoop = true ∧
      ({ loopConfig with loopOffset := 0x40 } : Config).dataOffset.toNat ≤
        ({ loopConfig with loopOffset := 0x40 } : Config).loopOffset.toNat ∧
      badLoopConfig.hasLoop = true ∧
      badLoopConfig.loopOffset.toNat < badLoopConfig.dataOffset.toNat := by decide

theorem ready_ready (bs : List Byte) : (ready bs).ready := ⟨legal_default, rfl, rfl⟩

theorem witness_StepRunsDecoded :
    (ready [0x61, 0x01, 0x00]).ready ∧
      decode .command ((ready [0x61, 0x01, 0x00]).lookahead 3) = .ok (.wait (.word 1), []) :=
  ⟨ready_ready _, by decide⟩

theorem witness_EndOfDataStep : (ready []).ready ∧ (ready []).region.len ≤ (ready []).pc :=
  ⟨ready_ready _, by decide⟩

theorem witness_UnknownOpcodeStep :
    (ready [0x67]).ready ∧ (ready [0x67]).region.read (ready [0x67]).pc = some 0x67 ∧
      registered handlerTable 0x67 = false := ⟨ready_ready _, by decide, by decide⟩

/-- Each clause: a missing single operand, a missing first and a missing second byte of `WAIT`, and
both commands of a missing chip. -/
theorem witness_OperandErrorSteps :
    ((ready [0x50]).ready ∧ (ready [0x50]).region.read 0 = some 0x50 ∧
        (ready [0x50]).region.len = (ready [0x50]).pc + 1) ∧
      ((block dualConfig [0x3F]).ready ∧ (block dualConfig [0x3F]).cfg.dual = true ∧
        (block dualConfig [0x3F]).region.read 0 = some 0x3F ∧
        (block dualConfig [0x3F]).region.len = (block dualConfig [0x3F]).pc + 1) ∧
      ((ready [0x61]).ready ∧ (ready [0x61]).region.read 0 = some 0x61 ∧
        (ready [0x61]).region.len ≤ (ready [0x61]).pc + 2) ∧
      ((ready [0x61, 5]).ready ∧ (ready [0x61, 5]).region.len = (ready [0x61, 5]).pc + 2) ∧
      ((ready [0x30]).ready ∧ (ready [0x30]).region.read 0 = some 0x30 ∧
        (ready [0x30]).cfg.dual = false) ∧
      (ready [0x3F]).ready ∧ (ready [0x3F]).region.read 0 = some 0x3F ∧
        (ready [0x3F]).cfg.dual = false :=
  ⟨⟨ready_ready _, by decide, by decide⟩, ⟨⟨legal_dual, rfl, rfl⟩, by decide, by decide, by decide⟩,
    ⟨ready_ready _, by decide, by decide⟩, ⟨ready_ready _, by decide⟩,
    ⟨ready_ready _, by decide, by decide⟩, ready_ready _, by decide, by decide⟩

theorem witness_BlockedSteps :
    ((finish (ready [])).cfg.legal = true ∧ (finish (ready [])).fault = none ∧
        (finish (ready [])).endOfStream = true) ∧
      (((ready []).raise .prematureEOF).cfg.legal = true ∧
        ((ready []).raise .prematureEOF).fault = some .prematureEOF) ∧
      (block badLoopConfig []).cfg.legal = false := by decide

theorem witness_CursorAdvance :
    (ready [0x62]).ready ∧ decode .command ((ready [0x62]).lookahead 3) = .ok (.wait60, []) ∧
      Instr.wait60.wellFormed = true ∧ Instr.wait60 ≠ .endMark ∧
      (∀ o, Instr.wait60 ≠ .psgw2 o ∧ Instr.wait60 ≠ .ggst2 o) ∧
      ((block dualConfig [0x30, 0x90]).ready ∧
        decode .command ((block dualConfig [0x30, 0x90]).lookahead 3) =
          .ok (.psgw2 (.byte 0x90), []) ∧
        (block dualConfig [0x30, 0x90]).cfg.dual = true) :=
  ⟨ready_ready _, by decide, by decide, by decide,
    fun _ => ⟨fun h => (by cases h), fun h => (by cases h)⟩,
    ⟨legal_dual, rfl, rfl⟩, by decide, by decide⟩

/-- A step that completes: RegionIsReadOnly and TraceOnlyGrows. -/
theorem witness_step :
    (∃ t, exec (.psgw1 (.byte 0x90)) State.reset = .next t) ∧
      (∃ t, step (ready [0x50, 0x90]) = .next t) ∧ ∃ t, step (ready [0x61, 0x01, 0x00]) = .next t :=
  ⟨⟨_, rfl⟩, ⟨_, rfl⟩, ⟨_, rfl⟩⟩

/-- Both outcomes of LoopsOnlyAtStreamEnd: `loops_played` as before, and one up. -/
theorem witness_LoopsOnlyAtStreamEnd :
    ((first loopConfig [0x50, 0x90]).map fun t => t.loopsPlayed) = some 0 ∧
      ((first loopConfig [0x66]).map fun t => (t.loopsPlayed, t.pc)) = some (1, 1) ∧
      ((first loopConfig []).map fun t => t.loopsPlayed) = some 1 := by decide

theorem chip_inv : chip.Inv Config.default := by
  refine ⟨?_, ?_, fun _ => ⟨15, by decide, by decide⟩, Or.inl rfl, ⟨rfl, rfl, rfl⟩, ?_⟩
  · unfold Chip.fractionOk; decide
  · unfold Chip.seedOk; decide
  · unfold Quad.atMostOne f32AtMostOne; decide

theorem ready_inv (bs : List Byte) (h : (Region.ofBytes bs).wf = true) : (ready bs).Inv := by
  have z : Quad.zero.atMostOne := by unfold Quad.atMostOne f32AtMostOne; decide
  exact ⟨legal_default, h, chip_inv, chip_inv, fun _ => ⟨rfl, rfl⟩, ⟨rfl, rfl⟩, trivial,
    ⟨z, z, z, z⟩, fun _ => ⟨rfl, rfl⟩⟩

theorem witness_StepKeepsInvariant :
    (ready [0x50, 0x90]).Inv ∧ ∃ t, step (ready [0x50, 0x90]) = .next t :=
  ⟨ready_inv _ (by decide), _, rfl⟩

theorem witness_StepKeepsTraceNumbering :
    (ready [0x61, 0x01, 0x00]).traceOk ∧ ∃ t, step (ready [0x61, 0x01, 0x00]) = .next t :=
  ⟨⟨rfl, fun j e h => by simp [ready, block, State.initial] at h⟩, _, rfl⟩

/-- ResetMeetsInvariants and StateAfterConstruction: a construction that completes. -/
theorem witness_construct :
    ∃ s, construct dualConfig (Region.ofBytes [0x66]) = .next s := ⟨_, rfl⟩

theorem witness_ConstructionChecksWidth :
    (0 < ({ Config.default with srWidth := 1 } : Config).srWidth ∧
        ({ Config.default with srWidth := 1 } : Config).srWidth ≤ 16) ∧
      (0 < Config.default.srWidth ∧ Config.default.srWidth ≤ 16) ∧
      ({ Config.default with srWidth := 0 } : Config).srWidth ≤ 0 ∧
      16 < ({ Config.default with srWidth := 17 } : Config).srWidth := by decide

theorem witness_InstallDuplicates :
    ((∃ e ∈ driverHandle.entries, registered Setup.block.handlers e.1 = true) ∧
        (∀ e ∈ driverHandle.entries, registered Setup.initial.handlers e.1 = false) ∧
        Setup.block.started = false ∧ Setup.initial.started = false ∧
        Setup.block.start.started = true ∧ session.setup.emulators = [driverHandle]) ∧
      (∃ b, hostCall .next session = .next b) ∧
      (∃ b, hostCall (.install driverHandle) ⟨Setup.initial, State.reset⟩ = .next b) ∧
      ∃ t, step session.state = .next t := ⟨by decide, ⟨_, rfl⟩, ⟨_, rfl⟩, ⟨_, rfl⟩⟩

theorem witness_AdditionRoundsOnce :
    f32Finite 0x3F4B5918 = true ∧ f32Finite 0xBF21866B = true ∧
      (f32Units 0x3F4B5918 + f32Units 0xBF21866B).natAbs < 2 ^ 276 := by decide

theorem witness_DivisionRoundsOnce :
    f32Finite 0x7F7FFFFF = true ∧ f32Finite 0x00000001 = true ∧ 1 ≤ 1 ∧
      f32Finite 0x01000000 = true ∧ 2 ^ (23 + 1) ≤ f32Mag 0x01000000 ∧ f32Mag 0x80000000 = 0 := by decide

theorem witness_OutputsBounded :
    (∀ x ∈ leftChannels State.reset ++ rightChannels State.reset, f32AtMostOne x) ∧
      ∀ x ∈ leftChannels State.reset ++ rightChannels State.reset, x.toNat % 2 ^ 31 = 0 := by
  have e : leftChannels State.reset ++ rightChannels State.reset = List.replicate 8 0 := rfl
  rw [e]
  refine ⟨fun x hx => ?_, fun x hx => ?_⟩ <;> rw [List.eq_of_mem_replicate hx]
  · unfold f32AtMostOne
    decide
  · decide

theorem full_scale : f32Mag 0xBF800000 = 2 ^ 149 ∧ f32Mag 0x80000000 = 0 ∧
    f32Mag 0xBE800000 = 2 ^ 147 := by decide

theorem dvd_units {m : Nat} {x : F32} (h : f32Mag x = 0 ∨ f32Mag x = 2 ^ m) :
    ((2 ^ m : Nat) : Int) ∣ f32Units x :=
  Int.natCast_dvd.2 (by rw [f32Units_natAbs]; rcases h with h | h <;> rw [h]; exact dvd_zero _)

/-- R194's evaluation, and an exact sum: R190's example at its largest power of two, R192's example. -/
theorem witness_MixedOutputsAreMeans :
    State.reset.cfg.mixing = .indexOrder ∧ (0xBF800000#32).toNat % 2 ^ 31 ≤ 0x3F800000 ∧
      exactSum 149 [0xBF800000, 0x80000000, 0x80000000, 0x80000000] ∧
      exactSum 147 [0xBE800000, 0xBE800000] := by
  obtain ⟨h1, h2, h3⟩ := full_scale
  refine ⟨rfl, by decide, ⟨fun x hx => dvd_units ?_, ?_⟩, ⟨fun x hx => dvd_units ?_, ?_⟩⟩
  · simp only [List.mem_cons, List.not_mem_nil, or_false] at hx
    rcases hx with rfl | rfl | rfl | rfl
    exacts [.inr h1, .inl h2, .inl h2, .inl h2]
  · simp only [List.map_cons, List.map_nil, h1, h2]
    norm_num
  · simp only [List.mem_cons, List.not_mem_nil, or_false] at hx
    rcases hx with rfl | rfl <;> exact .inr h3
  · simp only [List.map_cons, List.map_nil, h3]
    norm_num

end Sys2Proof.Tests
end

section
/-!
PROOFS, family 30_encoding. The opcode bytes are counted three times: by the block's handler table
(R45, R141), by the decoder (R81) and by the ranges of R84. Each is tied to the eight opcodes here.
-/

namespace Sys2Proof.Machine

/-- R81: the eight opcode bytes. -/
def IsOpcode (b : Byte) : Prop :=
  b = 0x30#8 ∨ b = 0x3F#8 ∨ b = 0x4F#8 ∨ b = 0x50#8 ∨ b = 0x61#8 ∨ b = 0x62#8 ∨ b = 0x63#8 ∨
    b = 0x66#8

/-- R84: the bytes of its ranges. -/
def ListedUndefined (b : Byte) : Prop :=
  b.toNat ≤ 0x2F ∨ (0x31 ≤ b.toNat ∧ b.toNat ≤ 0x3E) ∨ (0x40 ≤ b.toNat ∧ b.toNat ≤ 0x4E) ∨
    (0x51 ≤ b.toNat ∧ b.toNat ≤ 0x60) ∨ b.toNat = 0x64 ∨ b.toNat = 0x65 ∨ 0x67 ≤ b.toNat

/-- The ranges leave exactly the eight gaps. -/
theorem listedUndefined_iff (b : Byte) : ListedUndefined b ↔ ¬ IsOpcode b := by
  simp only [ListedUndefined, IsOpcode, ← BitVec.toNat_inj, BitVec.toNat_ofNat]
  omega

theorem registered_iff (t : HandlerTable) (b : Byte) :
    registered t b = true ↔ ∃ e ∈ t, e.1 = b := by
  simp [registered]

theorem registered_handlerTable (b : Byte) : registered handlerTable b = true ↔ IsOpcode b := by
  simp only [registered_iff, handlerTable, builtinEntries, driverEntries, List.cons_append,
    List.nil_append, List.exists_mem_cons_iff, List.not_mem_nil, false_and, exists_false,
    or_false, IsOpcode, eq_comm (a := b)]
  tauto

/-- The decoder's only error at an opcode position is the byte itself. -/
theorem decodeCommand_error_eq {b : Byte} {rest : List Byte} {e : DecodeError}
    (h : decodeCommand b rest = .error e) : e = .unknownOpcode b := by
  unfold decodeCommand at h
  split_ifs at h
  cases h
  rfl

theorem decode_of_not_isOpcode {b : Byte} (h : ¬ IsOpcode b) (rest : List Byte) :
    decode .command (b :: rest) = .error (.unknownOpcode b) := by
  obtain ⟨e, he⟩ := (decodeCommand_error b rest).2 h
  exact he.trans (congrArg _ (decodeCommand_error_eq he))

theorem decode_of_isOpcode {b : Byte} (h : IsOpcode b) (rest : List Byte) :
    ∃ i r, decode .command (b :: rest) = .ok (i, r) := by
  cases hd : decodeCommand b rest with
  | error e => exact absurd h ((decodeCommand_error b rest).1 ⟨e, hd⟩)
  | ok p => exact ⟨p.1, p.2, hd⟩

/-- Settles O3: R84's ranges are the bytes that are none of the eight opcodes, and the handler table
and the decoder both answer by that. -/
theorem undefinedOpcodesRefused : Obligations.UndefinedOpcodesRefused := by
  intro b rest
  change (ListedUndefined b → _) ∧ (¬ ListedUndefined b → _)
  rw [listedUndefined_iff, not_not, ← Bool.not_eq_true, registered_handlerTable]
  exact ⟨fun h => ⟨h, decode_of_not_isOpcode h rest⟩, fun h => ⟨h, decode_of_isOpcode h rest⟩⟩

end Sys2Proof.Machine
end

section
/-!
PROOFS, family 40_psg_write. Each latch byte form is the fields of its byte (R86, R87), the address
latch and one register write. The masks, shifts and bit tests of R102 and R104 are put into plain
arithmetic once, for any tone and any latch.
-/

namespace Sys2Proof.Machine

/-! ### The bytes -/

/-- The value of a latch byte that selects register `r` with data bits `d` (R87). -/
theorem ofNat_eq_latchByte : ∀ (r : BitVec 3) (d : BitVec 4),
    BitVec.ofNat 8 (0x80 + 16 * r.toNat + d.toNat) = 1#1 ++ r ++ d := by decide

theorem decodeWriteByte_ofNat (k : ChipId) (r : BitVec 3) (d : BitVec 4) :
    decodeWriteByte k (BitVec.ofNat 8 (0x80 + 16 * r.toNat + d.toNat)) = decodeLatch k r d := by
  rw [ofNat_eq_latchByte, decodeWriteByte_latch]

/-! ### Tone frequency -/

/-- The mask of R102 keeps bits 9:4. -/
theorem freqLow_mask : ∀ i < 10, (0x3F0#10).getLsbD i = decide (4 ≤ i) := by decide

/-- R102 puts the data nibble below bits 9:4 of the old value. -/
theorem freqLow_eq_ofNat (f : BitVec 10) (d : BitVec 4) :
    freqLow f d = BitVec.ofNat 10 (16 * (f.toNat / 16) + d.toNat) := by
  apply BitVec.eq_of_getLsbD_eq
  intro i hi
  have hbit : (16 * (f.toNat / 16) + d.toNat).testBit i =
      if i < 4 then d.getLsbD i else (f.toNat / 16).testBit (i - 4) :=
    Nat.testBit_two_pow_mul_add (f.toNat / 16) d.isLt i
  simp only [freqLow, BitVec.getLsbD_or, BitVec.getLsbD_and, BitVec.getLsbD_setWidth,
    BitVec.getLsbD_ofNat, freqLow_mask i hi, hbit, hi, decide_true, Bool.true_and]
  by_cases h4 : i < 4
  · simp [h4]
  · have hf : (f.toNat / 16).testBit (i - 4) = f.getLsbD (i - 4 + 4) :=
      Nat.testBit_div_two_pow (n := 4) f.toNat (i - 4)
    rw [Nat.sub_add_cancel (by omega)] at hf
    simp [h4, hf, Nat.le_of_not_lt h4]

/-- A low-nibble latch, for any register number and tone (R101, R102). -/
theorem writeChip_freqLow {k : ChipId} {s : State} (h : s.present k = true) (r : BitVec 3)
    (i : ToneId) (d : BitVec 4) :
    writeChip k (((s.chip k).withAdr r).writeFreqLow i d) s =
      .next (s.setChip k (((s.chip k).withAdr r).setTone i (((s.chip k).tone i).withFreq
        (BitVec.ofNat 10 (16 * (((s.chip k).tone i).freq.toNat / 16) + d.toNat))))) := by
  rw [writeChip_present h, Chip.writeFreqLow, Chip.tone_withAdr, freqLow_eq_ofNat]

/-- Settles O6: one low-nibble latch (`writeChip_freqLow`), at each of the three tones. -/
theorem toneFrequencyLowWrites : Obligations.ToneFrequencyLowWrites := by
  intro k d s h
  exact ⟨writeChip_freqLow h 0 .t0 d, writeChip_freqLow h 2 .t1 d, writeChip_freqLow h 4 .t2 d,
    decodeWriteByte_ofNat k 0 d, decodeWriteByte_ofNat k 2 d, decodeWriteByte_ofNat k 4 d⟩

/-! ### Volumes -/

/-- A volume latch, for any register number and tone (R101, R103). -/
theorem writeChip_volume {k : ChipId} {s : State} (h : s.present k = true) (r : BitVec 3)
    (i : ToneId) (d : BitVec 4) :
    writeChip k (((s.chip k).withAdr r).writeVolume i d) s =
      .next (s.setChip k (((s.chip k).withAdr r).setTone i (((s.chip k).tone i).withVolume d))) := by
  rw [writeChip_present h, Chip.writeVolume, Chip.tone_withAdr]

/-- Settles O7: one volume latch (`writeChip_volume`), at each of the three tones. -/
theorem toneVolumeWrites : Obligations.ToneVolumeWrites := by
  intro k d s h
  exact ⟨writeChip_volume h 1 .t0 d, writeChip_volume h 3 .t1 d, writeChip_volume h 5 .t2 d,
    decodeWriteByte_ofNat k 1 d, decodeWriteByte_ofNat k 3 d, decodeWriteByte_ofNat k 5 d⟩

/-- Settles O9: the write at an existing chip is R117's, and the byte is the latch of register 7. -/
theorem noiseVolumeWrite : Obligations.NoiseVolumeWrite :=
  fun k d _ h => ⟨writeChip_present h, decodeWriteByte_ofNat k 7 d⟩

/-! ### Noise control -/

/-- The fields of a noise control nibble as numbers: bit 2, and the rate in bits 1:0 (R104). -/
theorem noiseControl_fields (d : BitVec 4) :
    d.getLsbD 2 = decide (d.toNat / 4 % 2 = 1) ∧ (d.extractLsb' 0 2).toNat = d.toNat % 4 := by
  simp [BitVec.getLsbD, Nat.testBit_eq_decide_div_mod_eq]

/-- Bit 3 of a noise control nibble is in neither field (R89). -/
theorem noiseControl_fields_xor : ∀ d : BitVec 4,
    (d ^^^ 8#4).getLsbD 2 = d.getLsbD 2 ∧
      (d ^^^ 8#4).extractLsb' 0 2 = d.extractLsb' 0 2 := by decide

/-- The shifted periods are 32, 64 and 128, so none of them is forced (R104). -/
theorem shiftedPeriod_eq : ∀ rate : BitVec 2, rate.toNat ≠ 3 →
    32#16 <<< rate.toNat = BitVec.ofNat 16 (32 * 2 ^ rate.toNat) ∧ 32#16 <<< rate.toNat ≠ 0 := by
  decide

/-- Forcing 0 to 1 is the maximum with 1 (R104, rate 3). -/
theorem forcedPeriod_eq (f : BitVec 10) :
    (if f.setWidth 16 = 0#16 then 1#16 else f.setWidth 16) = BitVec.ofNat 16 (max 1 f.toNat) := by
  have hf := f.isLt
  apply BitVec.eq_of_toNat_eq
  split_ifs with h0
  all_goals
    simp only [← BitVec.toNat_inj, BitVec.toNat_setWidth, BitVec.toNat_ofNat] at h0 ⊢
    omega

theorem noiseFreqOf_eq_ofNat (rate : BitVec 2) (tone2 : BitVec 10) :
    noiseFreqOf rate tone2 =
      BitVec.ofNat 16 (if rate.toNat = 3 then max 1 tone2.toNat else 32 * 2 ^ rate.toNat) := by
  have hrate : rate = 3#2 ↔ rate.toNat = 3 := BitVec.toNat_inj.symm
  by_cases h3 : rate.toNat = 3
  · simpa [noiseFreqOf, hrate, h3] using forcedPeriod_eq tone2
  · obtain ⟨heq, hne⟩ := shiftedPeriod_eq rate h3
    simp only [noiseFreqOf, hrate, h3, if_false, if_neg hne]
    exact heq

theorem seedReload_eq_ofNat (cfg : Config) :
    seedReload cfg = BitVec.ofNat 16 (2 ^ (cfg.width - 1)) := by
  apply BitVec.eq_of_toNat_eq
  simp [seedReload, Nat.shiftLeft_eq]

/-- R104 in numbers. -/
theorem Chip.writeNoiseControl_eq (cfg : Config) (c : Chip) (d : BitVec 4) :
    c.writeNoiseControl cfg d =
      (c.withNoiseControl (if d.toNat / 4 % 2 = 1 then .white else .periodic)
        (decide (d.toNat % 4 = 3))
        (BitVec.ofNat 16 (if d.toNat % 4 = 3 then max 1 c.tone2.freq.toNat
          else 32 * 2 ^ (d.toNat % 4)))).withSeed (BitVec.ofNat 16 (2 ^ (cfg.width - 1))) := by
  obtain ⟨hmode, hrate⟩ := noiseControl_fields d
  have href : (d.extractLsb' 0 2 == 3#2) = decide (d.toNat % 4 = 3) := by
    rw [← hrate]
    exact decide_eq_decide.2 BitVec.toNat_inj.symm
  simp only [Chip.writeNoiseControl, hmode, href, noiseFreqOf_eq_ofNat, hrate, seedReload_eq_ofNat,
    decide_eq_true_eq]

theorem Chip.writeNoiseControl_xor (cfg : Config) (c : Chip) (d : BitVec 4) :
    c.writeNoiseControl cfg (d ^^^ 8#4) = c.writeNoiseControl cfg d := by
  obtain ⟨hmode, hrate⟩ := noiseControl_fields_xor d
  simp only [Chip.writeNoiseControl, hmode, hrate]

/-- A noise control latch is one register write (R116). -/
theorem exec_nCtl (k : ChipId) (d : BitVec 4) (s : State) :
    exec (.nCtl k d) s = writeChip k (((s.chip k).withAdr 6).writeNoiseControl s.cfg d) s := rfl

/-- Settles O8: R104 in numbers (`writeNoiseControl_eq`), blind to bit 3 (`writeNoiseControl_xor`). -/
theorem noiseControlWrite : Obligations.NoiseControlWrite := by
  intro k d s h
  refine ⟨?_, ?_, decodeWriteByte_ofNat k 6 d⟩
  · rw [exec_nCtl, writeChip_present h, Chip.writeNoiseControl_eq, Chip.withAdr_tone2]
  · rw [exec_nCtl, exec_nCtl, Chip.writeNoiseControl_xor]

end Sys2Proof.Machine
end

section
/-!
PROOFS, family 41_psg_advance. The rate converter never overflows, so its shift and mask are the
quotient and the remainder by 2^24 of an exact sum (R123). `OUTPUT_NEG` is read by the outputs only
(R133).
-/

namespace Sys2Proof.Machine

/-! ### Rate converter -/

/-- The largest legal clock is 127 times the divisor of R122, which leaves room for one fraction. -/
theorem baseIncr_le {cfg : Config} (h : cfg.legal = true) : baseIncr cfg ≤ 2 ^ 31 - 2 ^ 24 := by
  have hclock := Config.legal_clock h
  unfold baseIncr Config.ticksDenominator
  omega

theorem baseCount_add_baseIncr_lt {cfg : Config} {c : Chip} (hl : cfg.legal = true)
    (hf : c.fractionOk) :
    c.baseCount.toNat + baseIncr cfg < 2 ^ 31 := by
  have hincr := baseIncr_le hl
  unfold Chip.fractionOk at hf
  omega

theorem rateSum_toNat {cfg : Config} {c : Chip} (hl : cfg.legal = true) (hf : c.fractionOk) :
    (rateSum cfg c).toNat = c.baseCount.toNat + baseIncr cfg := by
  have hlt := baseCount_add_baseIncr_lt hl hf
  rw [rateSum, BitVec.toNat_add, BitVec.toNat_ofNat, Nat.add_mod_mod]
  exact Nat.mod_eq_of_lt (by omega)

/-- The sum is not negative as an `i32`, so its arithmetic shift is a quotient (R123). -/
theorem tickCount_toNat {cfg : Config} {c : Chip} (hl : cfg.legal = true) (hf : c.fractionOk) :
    (tickCount cfg c).toNat = (c.baseCount.toNat + baseIncr cfg) / 2 ^ 24 := by
  have hsum := rateSum_toNat hl hf
  have hlt := baseCount_add_baseIncr_lt hl hf
  have hmsb : (rateSum cfg c).msb = false := BitVec.msb_eq_false_iff_two_mul_lt.2 (by omega)
  rw [tickCount, BitVec.sshiftRight_eq_of_msb_false hmsb, BitVec.toNat_ushiftRight, hsum,
    Nat.shiftRight_eq_div_pow]

theorem Chip.advance_baseCount_toNat_eq_mod (cfg : Config) (c : Chip) :
    (c.advance cfg).baseCount.toNat = (rateSum cfg c).toNat % 2 ^ 24 := by
  rw [Chip.advance_baseCount, BitVec.toNat_and]
  exact Nat.and_two_pow_sub_one_eq_mod _ 24

theorem Chip.advance_fractionOk (cfg : Config) (c : Chip) : (c.advance cfg).fractionOk := by
  rw [Chip.fractionOk, Chip.advance_baseCount_toNat_eq_mod]
  exact Nat.mod_lt _ (by decide)

/-- A fraction below 2^24 adds at most one tick. -/
theorem tickCount_floor_or_ceil {cfg : Config} {c : Chip} (hl : cfg.legal = true)
    (hf : c.fractionOk) :
    (tickCount cfg c).toNat = baseIncr cfg / 2 ^ 24 ∨ (tickCount cfg c).toNat = maxTicks cfg := by
  rw [tickCount_toNat hl hf, maxTicks]
  unfold Chip.fractionOk at hf
  omega

/-- The fractions telescope: what one sample keeps, the next one adds (R123). -/
theorem ticksOver_eq {cfg : Config} (hl : cfg.legal = true) (n : Nat) :
    ∀ c : Chip, c.fractionOk →
      ticksOver cfg n c = (c.baseCount.toNat + n * baseIncr cfg) / 2 ^ 24 := by
  induction n with
  | zero =>
    intro c hf
    rw [Nat.zero_mul, Nat.add_zero, Nat.div_eq_of_lt hf]
    rfl
  | succ n ih =>
    intro c hf
    rw [ticksOver, ih _ (c.advance_fractionOk cfg), tickCount_toNat hl hf,
      Chip.advance_baseCount_toNat_eq_mod, rateSum_toNat hl hf, Nat.succ_mul]
    omega

/-- Settles O22: quotient (`tickCount_toNat`) and remainder of the exact sum, and the telescoping sum
over n samples (`ticksOver_eq`). -/
theorem rateConverter : Obligations.RateConverter := by
  intro cfg c hl hf
  have hlt := baseCount_add_baseIncr_lt hl hf
  have htick := tickCount_toNat hl hf
  refine ⟨hlt, htick, by omega, tickCount_floor_or_ceil hl hf, ?_, fun h0 n => ?_⟩
  · rw [Chip.advance_baseCount_toNat_eq_mod, rateSum_toNat hl hf]
  · rw [ticksOver_eq hl n c hf, h0]
    simp

/-! ### Noise output -/

/-- Settles O27: the noise channel is an `outputLevel` of the new seed's bit 0, at an entry of the
volume table that is zero exactly at 15. -/
theorem noiseOutputLevel : Obligations.NoiseOutputLevel := by
  intro cfg c hl
  obtain ⟨-, -, hle, hzero⟩ := Config.legal_volume hl
  obtain ⟨hmag, hsign⟩ := outputLevel_value cfg ((c.advance cfg).noiseSeed.getLsbD 0)
    (hle c.noiseVolume)
  rw [← Chip.advance_noiseChannel] at hmag hsign
  exact ⟨hmag, hsign, by rw [hmag, hzero]⟩

/-! ### Output polarity -/

/-- `OUTPUT_NEG` is read by no counter, edge or seed (R133). -/
theorem tickCount_outputNeg (cfg : Config) (b : Bool) (c : Chip) :
    tickCount { cfg with outputNeg := b } c = tickCount cfg c := rfl

theorem rateSum_outputNeg (cfg : Config) (b : Bool) (c : Chip) :
    rateSum { cfg with outputNeg := b } c = rateSum cfg c := rfl

theorem Tone.step_outputNeg (cfg : Config) (b : Bool) (n : Word32) (t : Tone) :
    t.step { cfg with outputNeg := b } n = t.step cfg n := rfl

theorem Chip.noiseStep_outputNeg (cfg : Config) (b : Bool) (n : Word32) (c : Chip) :
    c.noiseStep { cfg with outputNeg := b } n = c.noiseStep cfg n := rfl

/-- Setting `OUTPUT_NEG` multiplies an output by -1.0 (R133). -/
theorem outputLevel_outputNeg {cfg : Config} (h : cfg.outputNeg = false) (up : Bool) (v : F32) :
    outputLevel { cfg with outputNeg := true } up v = negF32 (outputLevel cfg up v) := by
  simp [outputLevel, h]

theorem noiseLevel_outputNeg {cfg : Config} (h : cfg.outputNeg = false) (c : Chip) :
    noiseLevel { cfg with outputNeg := true } c = negF32 (noiseLevel cfg c) :=
  outputLevel_outputNeg h _ _

theorem toneLevel_outputNeg {cfg : Config} (h : cfg.outputNeg = false) {t : Tone}
    (hm : t.mute = false) :
    toneLevel { cfg with outputNeg := true } t = negF32 (toneLevel cfg t) := by
  simp only [toneLevel, hm, Bool.false_eq_true, if_false]
  exact outputLevel_outputNeg h _ _

/-- Settles O33: field by field (`advance_eq`), the four outputs are negated and nothing else reads
the flag. -/
theorem outputNegFlipsSignsOnly : Obligations.OutputNegFlipsSignsOnly := by
  intro cfg c hu h
  obtain ⟨h0, h1, h2⟩ := hu
  have htone : ∀ t : Tone, t.mute = false → ∀ n,
      toneLevel { cfg with outputNeg := true } (t.step cfg n) =
        negF32 (toneLevel cfg (t.step cfg n)) :=
    fun t ht n => toneLevel_outputNeg h ((t.step_mute cfg n).trans ht)
  simp only [Chip.advance_eq, tickCount_outputNeg, rateSum_outputNeg, Tone.step_outputNeg,
    Chip.noiseStep_outputNeg, noiseLevel_outputNeg h, htone _ h0, htone _ h1, htone _ h2]
  rfl

end Sys2Proof.Machine
end

section
/-!
PROOFS, family 43_dispatcher. The fixed waits are `WAIT` with their count and no operand to consume
(R165, R166); the end of data at the opcode position runs the stream-end routine, as `END` does (R162).
-/

namespace Sys2Proof.Machine

/-! ### The three waits -/

theorem exec_wait60 (s : State) : exec .wait60 s = .next (advanceSamples 735 s) := rfl

theorem exec_wait50 (s : State) : exec .wait50 s = .next (advanceSamples 882 s) := rfl

/-- `WAIT` with its operand: no sample sees whether the operand is consumed before it or after (R164). -/
theorem exec_wait_word (w : BitVec 16) (s : State) :
    exec (.wait (.word w)) s = .next ((advanceSamples w.toNat s).consume 2) :=
  congrArg Host.Outcome.next (advanceSamples_consume w.toNat s 2)

/-- An instruction that only produces as many samples as `w` says moves the counters and the trace by
`w`, leaves the cursor, and differs from `WAIT w` by the operand alone (R165, R166). -/
theorem exec_fixedWait {i : Instr} {s : State} (w : BitVec 16)
    (h : exec i s = .next (advanceSamples w.toNat s)) :
    ∃ t, t = advanceSamples w.toNat s ∧ exec i s = .next t ∧ t.pc = s.pc ∧
      t.trace.length = s.trace.length + w.toNat ∧
      t.position = s.position + BitVec.ofNat 32 w.toNat ∧
      t.samplesPlayed = s.samplesPlayed + BitVec.ofNat 32 w.toNat ∧
      exec (.wait (.word w)) s = .next (t.consume 2) :=
  ⟨_, rfl, h, advanceSamples_pc _ s, advanceSamples_trace_length _ s, advanceSamples_position _ s,
    advanceSamples_samplesPlayed _ s, exec_wait_word w s⟩

/-- Settles O37: `WAIT60` and `WAIT50` are fixed waits (`exec_fixedWait`) of 735 and 882 samples. -/
theorem fixedWaits : Obligations.FixedWaits :=
  fun s => ⟨exec_fixedWait 735 (exec_wait60 s), exec_fixedWait 882 (exec_wait50 s)⟩

/-! ### The stream end -/

theorem exec_endMark (s : State) : exec .endMark s = streamEnd s := rfl

theorem streamEnd_of_not_hasLoop {s : State} (h : s.cfg.hasLoop = false) :
    streamEnd s = .next (finish s) := by
  simp [streamEnd, h]

theorem streamEnd_of_hasLoop {s : State} (h : s.cfg.hasLoop = true) (hl : s.cfg.loopLegal = true) :
    streamEnd s = .next (loopBack s) := by
  simp [streamEnd, h, hl]

/-- No block has the one configuration the routine refuses (U9), and neither branch of R172 raises an
error. -/
theorem streamEnd_completes {s : State} (hl : s.cfg.loopLegal = true) :
    ∃ t, streamEnd s = .next t ∧ t.fault = s.fault := by
  cases h : s.cfg.hasLoop with
  | false => exact ⟨finish s, streamEnd_of_not_hasLoop h, finish_fault s⟩
  | true => exact ⟨loopBack s, streamEnd_of_hasLoop h hl, loopBack_fault s⟩

/-- At or beyond the end of the region there is no opcode byte (R61). -/
theorem fetchInstr_of_len_le {s : State} (h : s.region.len ≤ s.pc) :
    fetchInstr s = .error .endOfData := by
  rw [fetchInstr, State.lookahead_end ((Region.read_eq_none _ _).2 h)]
  rfl

/-- R162. -/
theorem step_of_len_le {s : State} (hr : s.ready) (h : s.region.len ≤ s.pc) :
    step s = exec .endMark s := by
  rw [step_of_ready ((blocked_none s).2 hr), fetchInstr_of_len_le h]
  rfl

/-- Settles O43: the step is `END` (`step_of_len_le`), which completes in a legal configuration
(`streamEnd_completes`). -/
theorem endOfDataStep : Obligations.EndOfDataStep := by
  intro s hr h
  have hstep := step_of_len_le hr h
  obtain ⟨hlegal, hfault, -⟩ := hr
  obtain ⟨t, ht, hf⟩ := streamEnd_completes (Config.legal_loop hlegal)
  exact ⟨hstep, t, by rw [hstep, exec_endMark, ht], hf.trans hfault⟩

end Sys2Proof.Machine
end

section
/-!
PROOFS, family 70_reset_and_hazards. Construction checks the width before anything else, and nothing
else it turns down is a fault (R241); the seed of a new chip is the value a noise control write reloads
(R32, R104).
-/

namespace Sys2Proof.Machine

/-! ### What construction raises -/

theorem widthLegal_eq_false {c : Config} :
    c.widthLegal = false ↔ c.srWidth ≤ 0 ∨ 16 < c.srWidth := by
  simp only [Config.widthLegal, Bool.and_eq_false_iff, decide_eq_false_iff_not, not_lt, not_le]

/-- InvalidSetting is the only fault among the ways to stop a construction: the others are refusals. -/
theorem configStop_eq_fault {c : Config} {f : Fault} :
    configStop c = some (.fault f) ↔ c.widthLegal = false ∧ f = .invalidSetting := by
  unfold configStop
  cases c.widthLegal with
  | false => simp [eq_comm]
  | true =>
    simp only [Bool.not_true, Bool.false_eq_true, if_false, Bool.true_eq_false, false_and, iff_false]
    split_ifs <;> nofun

/-- A construction fails as `configStop` says, for it never fails where nothing stops it. -/
theorem construct_eq_fault {c : Config} {r : Region} {f : Fault} :
    construct c r = .fault f ↔ configStop c = some (.fault f) := by
  unfold construct
  cases configStop c with
  | some stop => simp
  | none => exact ⟨nofun, nofun⟩

/-! ### The seed of a new chip -/

theorem Chip.reset_noiseSeed (c : Config) : (Chip.reset c).noiseSeed = seedReload c := rfl

/-- The top bit of a width of at most 16 is not lost in the register, whatever the other parameters. -/
theorem seedReload_toNat_of_width_le {c : Config} (h : c.width ≤ 16) :
    (seedReload c).toNat = 2 ^ (c.width - 1) := by
  rw [seedReload_eq_ofNat, BitVec.toNat_ofNat]
  exact Nat.mod_eq_of_lt (Nat.pow_lt_pow_right (by decide) (by omega))

/-- Settles O54: the width check is the one fault of construction (`construct_eq_fault`,
`configStop_eq_fault`), and the seed is the top bit of the width (`seedReload_toNat_of_width_le`). -/
theorem constructionChecksWidth : Obligations.ConstructionChecksWidth := by
  intro c r
  constructor
  · rw [construct_eq_fault, configStop_eq_fault, widthLegal_eq_false, and_iff_left rfl]
  · intro hpos hle
    have hwidth : 0 < c.width ∧ c.width ≤ 16 := by
      unfold Config.width
      omega
    have hseed : (seedReload c).toNat = 2 ^ (c.width - 1) := seedReload_toNat_of_width_le hwidth.2
    rw [Chip.reset_noiseSeed]
    refine ⟨fun hzero => ?_, ?_, hseed⟩
    · have hbit : 0 < 2 ^ (c.width - 1) := Nat.two_pow_pos _
      rw [← hseed, hzero] at hbit
      exact absurd hbit (by decide)
    · rw [hseed]
      exact Nat.pow_lt_pow_right (by decide) (Nat.sub_one_lt_of_lt hwidth.1)

end Sys2Proof.Machine
end

section
/-!
PROOFS, family 30_encoding, continued. The decoder inverts the encoder one operand format at a time,
and both directions meet in the fields of a byte (R80 to R88).
-/

namespace Sys2Proof.Machine

/-! ### Operands that are present -/

/-- An operand that is present is read back from its bytes (R80). -/
theorem operand8_bytes_append {o : Operand8} (h : o.present = true) (rest : List Byte) :
    operand8 (o.bytes ++ rest) = (o, rest) := by
  cases o with
  | byte b => rfl
  | absent => cases h

theorem operand16_bytes_append {o : Operand16} (h : o.present = true) (rest : List Byte) :
    operand16 (o.bytes ++ rest) = (o, rest) := by
  cases o with
  | word n => exact congrArg (fun w => (Operand16.word w, rest)) (word_of_halves n)
  | absent => cases h
  | highAbsent aa => cases h

/-! ### Write bytes -/

theorem decode_latchByte (k : ChipId) (r : BitVec 3) (d : BitVec 4) (rest : List Byte) :
    decode (.writePort k) ((1#1 ++ r ++ d : Byte) :: rest) = .ok (decodeLatch k r d, rest) :=
  congrArg (fun i => Except.ok (i, rest)) (decodeWriteByte_latch k r d)

theorem decode_dataByte (k : ChipId) (x : BitVec 1) (d6 : BitVec 6) (rest : List Byte) :
    decode (.writePort k) ((0#1 ++ x ++ d6 : Byte) :: rest) = .ok (.data k x d6, rest) :=
  congrArg (fun i => Except.ok (i, rest)) (decodeWriteByte_data k x d6)

theorem decodeLatch_space (k : ChipId) (r : BitVec 3) (d : BitVec 4) :
    (decodeLatch k r d).space = .writePort k := by
  unfold decodeLatch
  split_ifs <;> rfl

/-- The instruction of a latch byte is encoded with the register number it was selected by (R87). -/
theorem encode_decodeLatch (k : ChipId) (r : BitVec 3) (d : BitVec 4) :
    encode (decodeLatch k r d) = [1#1 ++ r ++ d] := by
  revert r d
  cases k <;> decide

theorem decodeWriteByte_space (k : ChipId) (b : Byte) :
    (decodeWriteByte k b).space = .writePort k := by
  unfold decodeWriteByte
  split
  · exact decodeLatch_space k _ _
  · rfl

theorem encode_decodeWriteByte (k : ChipId) (b : Byte) : encode (decodeWriteByte k b) = [b] := by
  obtain ⟨hlatch, hdata⟩ := byte_of_fields b
  cases h7 : b.getLsbD 7 with
  | true => simp only [decodeWriteByte, h7, if_true, encode_decodeLatch, hlatch h7]
  | false => simp only [decodeWriteByte, h7, Bool.false_eq_true, if_false, encode, hdata h7]

/-! ### Both directions -/

/-- Settles O1: a command reads its operand back, a write byte its fields. -/
theorem decodeEncodeRoundTrip : Obligations.DecodeEncodeRoundTrip := by
  intro i rest h
  cases i with
  | psgw2 dd =>
    exact congrArg (fun p => Except.ok (Instr.psgw2 p.1, p.2)) (operand8_bytes_append h rest)
  | ggst2 mm =>
    exact congrArg (fun p => Except.ok (Instr.ggst2 p.1, p.2)) (operand8_bytes_append h rest)
  | ggst1 mm =>
    exact congrArg (fun p => Except.ok (Instr.ggst1 p.1, p.2)) (operand8_bytes_append h rest)
  | psgw1 dd =>
    exact congrArg (fun p => Except.ok (Instr.psgw1 p.1, p.2)) (operand8_bytes_append h rest)
  | wait n =>
    exact congrArg (fun p => Except.ok (Instr.wait p.1, p.2)) (operand16_bytes_append h rest)
  | wait60 => rfl
  | wait50 => rfl
  | endMark => rfl
  | t0Flo k d => exact decode_latchByte k 0 d rest
  | t0Vol k d => exact decode_latchByte k 1 d rest
  | t1Flo k d => exact decode_latchByte k 2 d rest
  | t1Vol k d => exact decode_latchByte k 3 d rest
  | t2Flo k d => exact decode_latchByte k 4 d rest
  | t2Vol k d => exact decode_latchByte k 5 d rest
  | nCtl k d => exact decode_latchByte k 6 d rest
  | nVol k d => exact decode_latchByte k 7 d rest
  | data k x d6 => exact decode_dataByte k x d6 rest

/-- The command the decoder reads is its opcode byte and the bytes of its operand (R81). -/
theorem encode_of_decodeCommand {b : Byte} {bs rest : List Byte} {i : Instr}
    (h : decodeCommand b bs = .ok (i, rest)) : i.space = .command ∧ encode i ++ rest = b :: bs := by
  unfold decodeCommand at h
  split_ifs at h with h30 h3F h4F h50 h61 h62 h63 h66 <;> cases h
  · exact ⟨rfl, by rw [h30]; exact congrArg _ (operand8_bytes bs)⟩
  · exact ⟨rfl, by rw [h3F]; exact congrArg _ (operand8_bytes bs)⟩
  · exact ⟨rfl, by rw [h4F]; exact congrArg _ (operand8_bytes bs)⟩
  · exact ⟨rfl, by rw [h50]; exact congrArg _ (operand8_bytes bs)⟩
  · exact ⟨rfl, by rw [h61]; exact congrArg _ (operand16_bytes bs)⟩
  · exact ⟨rfl, by rw [h62]; rfl⟩
  · exact ⟨rfl, by rw [h63]; rfl⟩
  · exact ⟨rfl, by rw [h66]; rfl⟩

/-- Settles O2: `encode_of_decodeCommand` for a command, `encode_decodeWriteByte` for a write byte. -/
theorem encodeDecodeRoundTrip : Obligations.EncodeDecodeRoundTrip := by
  intro space bs i rest h
  cases bs with
  | nil => cases h
  | cons b bs =>
    cases space with
    | command => exact encode_of_decodeCommand h
    | writePort k =>
      cases h
      exact ⟨decodeWriteByte_space k b, by rw [encode_decodeWriteByte]; rfl⟩

/-- Settles O4: each word is decoded in the kernel. -/
theorem specWordsDecode : Obligations.SpecWordsDecode := by
  unfold Obligations.SpecWordsDecode
  decide

/-- Settles O5: the handler table and the decoder both know exactly the eight opcodes
(`registered_handlerTable`, `decode_of_isOpcode`, `decode_of_not_isOpcode`). -/
theorem handlerTableIsOpcodeMap : Obligations.HandlerTableIsOpcodeMap := by
  refine ⟨rfl, fun b rest => (registered_handlerTable b).trans ⟨fun h => ?_, ?_⟩⟩
  · obtain ⟨i, r, hd⟩ := decode_of_isOpcode h rest
    exact ⟨(i, r), hd⟩
  · rintro ⟨p, hp⟩
    by_contra h
    rw [decode_of_not_isOpcode h] at hp
    cases hp

end Sys2Proof.Machine
end

section
/-!
PROOFS, family 40_psg_write, continued. A write form is `writeChip` of one `ChipWrite`, and what a byte
makes of a chip is a function of the configuration and that chip alone (R100 to R109).
-/

namespace Sys2Proof.Machine

/-! ### Data bytes -/

/-- The mask of R108 keeps bits 3:0. -/
theorem freqHigh_mask : ∀ i < 10, (0x00F#10).getLsbD i = decide (i < 4) := by decide

/-- R108 puts the data bits above bits 3:0 of the old value. -/
theorem freqHigh_eq_ofNat (f : BitVec 10) (d6 : BitVec 6) :
    freqHigh f d6 = BitVec.ofNat 10 (16 * d6.toNat + f.toNat % 16) := by
  apply BitVec.eq_of_getLsbD_eq
  intro i hi
  have hbit : (16 * d6.toNat + f.toNat % 16).testBit i =
      if i < 4 then (f.toNat % 16).testBit i else d6.toNat.testBit (i - 4) :=
    Nat.testBit_two_pow_mul_add d6.toNat (i := 4) (Nat.mod_lt f.toNat (by decide : 0 < 2 ^ 4)) i
  simp only [freqHigh, BitVec.getLsbD_or, BitVec.getLsbD_and, BitVec.getLsbD_shiftLeft,
    BitVec.getLsbD_setWidth, BitVec.getLsbD_ofNat, freqHigh_mask i hi, hbit, hi, decide_true,
    Bool.true_and]
  by_cases h4 : i < 4
  · have hf : (f.toNat % 16).testBit i = f.getLsbD i := by
      rw [show f.toNat % 16 = f.toNat % 2 ^ 4 from rfl, Nat.testBit_mod_two_pow]
      simp [h4, BitVec.getLsbD]
    simp [h4, hf]
  · have hd : d6.getLsbD (i - 4) = d6.toNat.testBit (i - 4) := rfl
    simp [h4, hd, show i - 4 < 10 by omega]

/-- The tone a data byte addresses, by the value of `adr` (R108, R109). -/
theorem dataTone_cases : ∀ adr : BitVec 3,
    (adr.toNat ≤ 1 → dataTone adr = some .t0) ∧
      (2 ≤ adr.toNat ∧ adr.toNat ≤ 3 → dataTone adr = some .t1) ∧
      (4 ≤ adr.toNat ∧ adr.toNat ≤ 5 → dataTone adr = some .t2) ∧
      (6 ≤ adr.toNat → dataTone adr = none) := by decide

theorem Chip.writeData_some {c : Chip} {i : ToneId} (h : dataTone c.adr = some i) (d6 : BitVec 6) :
    c.writeData d6 = c.setTone i ((c.tone i).withFreq
      (BitVec.ofNat 10 (16 * d6.toNat + (c.tone i).freq.toNat % 16))) := by
  simp only [Chip.writeData, h, freqHigh_eq_ofNat]

theorem Chip.writeData_none {c : Chip} (h : dataTone c.adr = none) (d6 : BitVec 6) :
    c.writeData d6 = c := by
  simp only [Chip.writeData, h]

@[simp] theorem State.setChip_chip (s : State) (k : ChipId) : s.setChip k (s.chip k) = s := by
  cases k <;> rfl

theorem exec_data {k : ChipId} {s : State} (h : s.present k = true) (x : BitVec 1) (d6 : BitVec 6) :
    exec (.data k x d6) s = .next (s.setChip k ((s.chip k).writeData d6)) :=
  writeChip_present h

/-- Settles O10: `dataTone` picks the tone, `freqHigh_eq_ofNat` gives its new value. -/
theorem dataByteWrites : Obligations.DataByteWrites := by
  intro k x d6 s h
  obtain ⟨h0, h1, h2, hnone⟩ := dataTone_cases (s.chip k).adr
  dsimp only
  rw [exec_data h]
  refine ⟨fun ha => ?_, fun ha => ?_, fun ha => ?_, fun ha => ?_⟩
  · rw [Chip.writeData_some (h0 ha), Chip.tone_t0]
  · rw [Chip.writeData_some (h1 ha), Chip.tone_t1]
  · rw [Chip.writeData_some (h2 ha), Chip.tone_t2]
  · rw [Chip.writeData_none (hnone ha), State.setChip_chip]

/-! ### What a write form leaves alone -/

theorem Chip.setTone_sameGenerators {c : Chip} {i : ToneId} {t : Tone}
    (h : t.count = (c.tone i).count ∧ t.edge = (c.tone i).edge ∧ t.mute = (c.tone i).mute) :
    Chip.sameGenerators c (c.setTone i t) := by
  refine ⟨fun j => ?_, Chip.setTone_noiseCount c i t, Chip.setTone_baseCount c i t,
    Chip.setTone_channels c i t⟩
  by_cases hj : j = i
  · subst hj
    rwa [Chip.tone_setTone_same]
  · rw [Chip.tone_setTone_other c hj]
    exact ⟨rfl, rfl, rfl⟩

theorem Chip.sameGenerators_of_withAdr {c c' : Chip} {r : BitVec 3}
    (h : Chip.sameGenerators (c.withAdr r) c') : Chip.sameGenerators c c' := by
  simpa [Chip.sameGenerators] using h

/-- R106: no write touches a generator, and the noise registers are those of noise control and noise
volume alone. -/
theorem ChipWrite.sameGenerators {cfg : Config} {c c' : Chip} (h : ChipWrite cfg c c') :
    Chip.sameGenerators c c' := by
  cases h with
  | freqLow r i d =>
    exact Chip.sameGenerators_of_withAdr (Chip.setTone_sameGenerators ⟨rfl, rfl, rfl⟩)
  | volume r i d =>
    exact Chip.sameGenerators_of_withAdr (Chip.setTone_sameGenerators ⟨rfl, rfl, rfl⟩)
  | noiseControl d => exact ⟨fun j => by cases j <;> exact ⟨rfl, rfl, rfl⟩, rfl, rfl, rfl⟩
  | noiseVolume d => exact ⟨fun j => by cases j <;> exact ⟨rfl, rfl, rfl⟩, rfl, rfl, rfl⟩
  | data d6 =>
    unfold Chip.writeData
    split
    · exact Chip.setTone_sameGenerators ⟨rfl, rfl, rfl⟩
    · exact ⟨fun _ => ⟨rfl, rfl, rfl⟩, rfl, rfl, rfl⟩

/-- The noise registers of two chips agree, the volume aside. -/
def Chip.sameNoise (c c' : Chip) : Prop :=
  c'.noiseSeed = c.noiseSeed ∧ c'.noiseMode = c.noiseMode ∧ c'.noiseRef = c.noiseRef ∧
    c'.noiseFreq = c.noiseFreq

theorem Chip.setTone_sameNoise (c : Chip) (i : ToneId) (t : Tone) :
    Chip.sameNoise c (c.setTone i t) :=
  ⟨Chip.setTone_noiseSeed c i t, Chip.setTone_noiseMode c i t, Chip.setTone_noiseRef c i t,
    Chip.setTone_noiseFreq c i t⟩

/-- A write is a noise control write or keeps the noise registers (R104). -/
theorem ChipWrite.noise_cases {cfg : Config} {c c' : Chip} (h : ChipWrite cfg c c') :
    (∃ d, c' = (c.withAdr 6).writeNoiseControl cfg d) ∨ Chip.sameNoise c c' := by
  cases h with
  | freqLow r i d => exact Or.inr (Chip.setTone_sameNoise (c.withAdr r) i _)
  | volume r i d => exact Or.inr (Chip.setTone_sameNoise (c.withAdr r) i _)
  | noiseControl d => exact Or.inl ⟨d, rfl⟩
  | noiseVolume d => exact Or.inr ⟨rfl, rfl, rfl, rfl⟩
  | data d6 =>
    unfold Chip.writeData
    split
    · exact Or.inr (Chip.setTone_sameNoise c _ _)
    · exact Or.inr ⟨rfl, rfl, rfl, rfl⟩

/-- A form of the write port is one register write of its chip; only noise control writes the seed. -/
theorem exec_writePort {i : Instr} {k : ChipId} (h : i.space = .writePort k) (s : State) :
    ∃ c, ChipWrite s.cfg (s.chip k) c ∧ exec i s = writeChip k c s ∧
      ((∀ d, i ≠ .nCtl k d) → c.noiseSeed = (s.chip k).noiseSeed) := by
  cases i with
  | psgw2 dd => cases h
  | ggst2 mm => cases h
  | ggst1 mm => cases h
  | psgw1 dd => cases h
  | wait n => cases h
  | wait60 => cases h
  | wait50 => cases h
  | endMark => cases h
  | t0Flo k d => cases h; exact ⟨_, .freqLow 0 .t0 d, rfl, fun _ => rfl⟩
  | t0Vol k d => cases h; exact ⟨_, .volume 1 .t0 d, rfl, fun _ => rfl⟩
  | t1Flo k d => cases h; exact ⟨_, .freqLow 2 .t1 d, rfl, fun _ => rfl⟩
  | t1Vol k d => cases h; exact ⟨_, .volume 3 .t1 d, rfl, fun _ => rfl⟩
  | t2Flo k d => cases h; exact ⟨_, .freqLow 4 .t2 d, rfl, fun _ => rfl⟩
  | t2Vol k d => cases h; exact ⟨_, .volume 5 .t2 d, rfl, fun _ => rfl⟩
  | nCtl k d => cases h; exact ⟨_, .noiseControl d, rfl, fun hn => absurd rfl (hn d)⟩
  | nVol k d => cases h; exact ⟨_, .noiseVolume d, rfl, fun _ => rfl⟩
  | data k x d6 =>
    cases h
    refine ⟨_, .data d6, rfl, fun _ => ?_⟩
    unfold Chip.writeData
    split
    · exact Chip.setTone_noiseSeed _ _ _
    · rfl

/-- Settles O11: the form is one register write (`exec_writePort`), which keeps the generators
(`ChipWrite.sameGenerators`). -/
theorem writesLeaveGeneratorsAlone : Obligations.WritesLeaveGeneratorsAlone := by
  intro i k s hspace hk
  obtain ⟨c, hc, he, hseed⟩ := exec_writePort hspace s
  refine ⟨s.setChip k c, by rw [he, writeChip_present hk], ?_, ?_, ?_⟩
  · rw [State.chip_setChip_same]
  · rw [State.chip_setChip_same]
    exact hc.sameGenerators
  · rw [State.chip_setChip_same]
    exact hseed

/-- Settles O14: the form is one register write (`exec_writePort`) at a chip that is missing. -/
theorem writeToMissingChip : Obligations.WriteToMissingChip := by
  intro i s hspace hd
  obtain ⟨c, -, he, -⟩ := exec_writePort hspace s
  rw [he, writeChip_missing (by simpa using hd)]

/-! ### `PSG.write` and the forms -/

/-- `PSG.write` cuts a byte into the fields the decoder reads (R86, R100). -/
theorem psgWrite_fields : ∀ val : Byte,
    (val >>> 4).setWidth 3 = val.extractLsb' 4 3 ∧ val.setWidth 4 = val.extractLsb' 0 4 ∧
      val.setWidth 6 = val.extractLsb' 0 6 := by decide

theorem psgLatch_eq_exec (k : ChipId) (r : BitVec 3) (d : BitVec 4) (s : State) :
    psgLatch k r d s = exec (decodeLatch k r d) s := by
  unfold psgLatch decodeLatch
  split_ifs <;> rfl

theorem psgWrite_eq_exec (k : ChipId) (val : Byte) (s : State) :
    psgWrite k val s = exec (decodeWriteByte k val) s := by
  obtain ⟨hr, hd, hd6⟩ := psgWrite_fields val
  unfold psgWrite decodeWriteByte
  rw [hr, hd, hd6]
  split
  · exact psgLatch_eq_exec k _ _ s
  · rfl

/-- Settles O12: by the fields of the byte (`psgWrite_fields`), a latch by its register number. -/
theorem psgWriteRunsTheForm : Obligations.PsgWriteRunsTheForm := psgWrite_eq_exec

/-- Bit 6 of a data byte is the one the decoder hands on unread (R88). -/
theorem dataByte_xor : ∀ val : Byte, val.getLsbD 7 = false →
    (val ^^^ 0x40#8).getLsbD 7 = false ∧ (val ^^^ 0x40#8).extractLsb' 0 6 = val.extractLsb' 0 6 := by
  decide

theorem decodeWriteByte_of_data {val : Byte} (h : val.getLsbD 7 = false) (k : ChipId) :
    decodeWriteByte k val = .data k (val.extractLsb' 6 1) (val.extractLsb' 0 6) := by
  simp only [decodeWriteByte, h, Bool.false_eq_true, if_false]

/-- A byte 0xE0 to 0xEF is a noise control latch (R87). -/
theorem noiseControlByte_eq : ∀ val : Byte, val.toNat / 16 = 14 →
    val = 1#1 ++ 6#3 ++ val.extractLsb' 0 4 ∧
      val ^^^ 0x08#8 = 1#1 ++ 6#3 ++ (val.extractLsb' 0 4 ^^^ 8#4) := by decide

theorem decodeWriteByte_of_noiseControl {val : Byte} (h : val.toNat / 16 = 14) (k : ChipId) :
    decodeWriteByte k val = .nCtl k (val.extractLsb' 0 4) ∧
      decodeWriteByte k (val ^^^ 0x08#8) = .nCtl k (val.extractLsb' 0 4 ^^^ 8#4) := by
  obtain ⟨hval, hxor⟩ := noiseControlByte_eq val h
  constructor
  · conv_lhs => rw [hval]
    exact decodeWriteByte_latch k 6 _
  · rw [hxor]
    exact decodeWriteByte_latch k 6 _

/-- Settles O13: every byte is one write (`psgWrite_cases`); the ignored bits reach no field that is
read. -/
theorem everyWriteByteIsLegal : Obligations.EveryWriteByteIsLegal := by
  intro k val s hk
  simp only [psgWrite_eq_exec]
  refine ⟨?_, fun h7 => ?_, fun hE => ?_⟩
  · obtain ⟨c, -, he, -⟩ := exec_writePort (decodeWriteByte_space k val) s
    exact ⟨_, by rw [he, writeChip_present hk], State.setChip_fault s k c⟩
  · obtain ⟨h7', hd6⟩ := dataByte_xor val h7
    rw [decodeWriteByte_of_data h7, decodeWriteByte_of_data h7', hd6, exec_data hk, exec_data hk]
  · obtain ⟨hval, hxor⟩ := decodeWriteByte_of_noiseControl hE k
    rw [hval, hxor, exec_nCtl, exec_nCtl, Chip.writeNoiseControl_xor]

end Sys2Proof.Machine
end

section
/-!
PROOFS, family 42_psg_driver. The four commands of the driver write one chip or one mask, and a sample
gates what the chip puts out (R142 to R149).
-/

namespace Sys2Proof.Machine

/-! ### Operands -/

theorem requireDual_of_dual {s : State} (h : s.cfg.dual = true) (r : Result) :
    requireDual s r = r := if_pos h

theorem requireDual_of_single {s : State} (h : s.cfg.dual = false) (r : Result) :
    requireDual s r = .next (s.raise .dualChipDisabled) :=
  if_neg (by rw [h]; decide)

theorem exec_psgw2 (dd : Operand8) (s : State) :
    exec (.psgw2 dd) s = requireDual s (withByte dd s (psgWrite .c1)) := rfl

theorem exec_ggst2 (mm : Operand8) (s : State) :
    exec (.ggst2 mm) s = requireDual s (withByte mm s fun m s' => .next (setMask .c1 m s')) := rfl

theorem exec_psgw1_byte (b : Byte) (s : State) :
    exec (.psgw1 (.byte b)) s = psgWrite .c0 b (s.consume 1) := rfl

theorem exec_psgw2_byte {s : State} (h : s.cfg.dual = true) (b : Byte) :
    exec (.psgw2 (.byte b)) s = psgWrite .c1 b (s.consume 1) := by
  rw [exec_psgw2, requireDual_of_dual h, withByte_byte]

theorem exec_ggst1_byte (mm : Byte) (s : State) :
    exec (.ggst1 (.byte mm)) s = .next (setMask .c0 mm (s.consume 1)) := rfl

theorem exec_ggst2_byte {s : State} (h : s.cfg.dual = true) (mm : Byte) :
    exec (.ggst2 (.byte mm)) s = .next (setMask .c1 mm (s.consume 1)) := by
  rw [exec_ggst2, requireDual_of_dual h, withByte_byte]

/-! ### Register writes -/

/-- What a latch makes of a chip is a function of the configuration and the chip alone. -/
theorem psgLatch_eq_writeChip (k : ChipId) (r : BitVec 3) (d : BitVec 4) :
    ∃ f : Config → Chip → Chip, ∀ s, psgLatch k r d s = writeChip k (f s.cfg (s.chip k)) s := by
  unfold psgLatch
  split_ifs
  · exact ⟨fun _ c => (c.withAdr 0).writeFreqLow .t0 d, fun _ => rfl⟩
  · exact ⟨fun _ c => (c.withAdr 1).writeVolume .t0 d, fun _ => rfl⟩
  · exact ⟨fun _ c => (c.withAdr 2).writeFreqLow .t1 d, fun _ => rfl⟩
  · exact ⟨fun _ c => (c.withAdr 3).writeVolume .t1 d, fun _ => rfl⟩
  · exact ⟨fun _ c => (c.withAdr 4).writeFreqLow .t2 d, fun _ => rfl⟩
  · exact ⟨fun _ c => (c.withAdr 5).writeVolume .t2 d, fun _ => rfl⟩
  · exact ⟨fun cfg c => (c.withAdr 6).writeNoiseControl cfg d, fun _ => rfl⟩
  · exact ⟨fun _ c => (c.withAdr 7).withNoiseVolume d, fun _ => rfl⟩

/-- The same of any byte (R100). -/
theorem psgWrite_eq_writeChip (k : ChipId) (val : Byte) :
    ∃ f : Config → Chip → Chip, ∀ s, psgWrite k val s = writeChip k (f s.cfg (s.chip k)) s := by
  unfold psgWrite
  split_ifs
  · exact psgLatch_eq_writeChip k _ _
  · exact ⟨fun _ c => c.writeData (val.setWidth 6), fun _ => rfl⟩

/-- At an existing chip the write makes the same chip wherever the cursor stands. -/
theorem psgWrite_consume {k : ChipId} {s : State} (h : s.present k = true) (val : Byte) (n : Nat) :
    ∃ c, exec (decodeWriteByte k val) s = .next (s.setChip k c) ∧
      psgWrite k val (s.consume n) = .next ((s.consume n).setChip k c) := by
  obtain ⟨f, hf⟩ := psgWrite_eq_writeChip k val
  refine ⟨f s.cfg (s.chip k), ?_, ?_⟩
  · rw [← psgWrite_eq_exec, hf, writeChip_present h]
  · rw [hf, writeChip_present (by rwa [State.present_consume]), State.consume_cfg,
      State.chip_consume]

/-- Settles O15: the operand is consumed first, and the write does not see it (`psgWrite_consume`). -/
theorem psgw1Command : Obligations.Psgw1Command := by
  refine ⟨fun s => rfl, fun b s => ?_⟩
  rw [exec_psgw1_byte]
  exact psgWrite_consume (k := .c0) rfl b 1

/-- Settles O16: the check of the second chip (`requireDual`), then as `PSGW1` (`psgWrite_consume`). -/
theorem psgw2Command : Obligations.Psgw2Command := by
  refine ⟨fun dd s h => requireDual_of_single h _, fun s h => requireDual_of_dual h _,
    fun b s h => ?_⟩
  rw [exec_psgw2_byte h]
  exact psgWrite_consume (k := .c1) h b 1

/-! ### Masks -/

theorem setMask_of_ggStereo {s : State} (h : s.cfg.ggStereoOff = false) (k : ChipId) (mm : Byte) :
    setMask k mm s = s.setPort k ((s.port k).withMask mm) :=
  if_neg (by rw [h]; decide)

theorem setMask_of_ggStereoOff {s : State} (h : s.cfg.ggStereoOff = true) (k : ChipId) (mm : Byte) :
    setMask k mm s = s := if_pos h

/-- Settles O17: one mask write (`setMask`), behind the operand. -/
theorem ggst1Command : Obligations.Ggst1Command := by
  refine ⟨fun s => rfl, fun mm s => ⟨fun h => ?_, fun h => ?_⟩⟩
  · rw [exec_ggst1_byte, setMask_of_ggStereo (by simpa using h)]
    rfl
  · rw [exec_ggst1_byte, setMask_of_ggStereoOff (by simpa using h)]

/-- Settles O18: the check of the second chip (`requireDual`), then as `GGST1`. -/
theorem ggst2Command : Obligations.Ggst2Command := by
  refine ⟨fun mm s h => requireDual_of_single h _, fun s h => requireDual_of_dual h _,
    fun mm s hd => ⟨fun h => ?_, fun h => ?_⟩⟩
  · rw [exec_ggst2_byte hd, setMask_of_ggStereo (by simpa using h)]
    rfl
  · rw [exec_ggst2_byte hd, setMask_of_ggStereoOff (by simpa using h)]

/-! ### The output arrays -/

theorem length_four_mul_chipCount {l r : List F32} (c : Config) (hl : l.length = 4)
    (hr : r.length = 4) : (l ++ if c.dual then r else []).length = 4 * c.chipCount := by
  unfold Config.chipCount
  split <;> simp [hl, hr]

theorem leftChannels_length (s : State) : (leftChannels s).length = 4 * s.cfg.chipCount :=
  length_four_mul_chipCount s.cfg rfl rfl

theorem rightChannels_length (s : State) : (rightChannels s).length = 4 * s.cfg.chipCount :=
  length_four_mul_chipCount s.cfg rfl rfl

theorem Quad.toList_getElem? (q : Quad) {j : Nat} (h : j < 4) :
    q.toList[j]? = some (q.toList.getD j 0) := by
  have hlen : j < q.toList.length := h
  rw [List.getD_eq_getElem _ _ hlen, List.getElem?_eq_getElem hlen]

/-- Entry 4k + j of an array is entry j of chip k's part, on either side (R149). -/
theorem sideChannels_getElem? (side : Port → Quad) {s : State} {k : ChipId} {j : Nat}
    (h : s.present k = true) (hj : j < 4) :
    ((side s.port0).toList ++ if s.cfg.dual then (side s.port1).toList else [])[4 * k.index + j]? =
      some ((side (s.port k)).toList.getD j 0) := by
  rw [← Quad.toList_getElem? _ hj]
  cases k with
  | c0 =>
    rw [show 4 * ChipId.c0.index + j = j from Nat.zero_add j]
    exact List.getElem?_append_left hj
  | c1 =>
    have hd : s.cfg.dual = true := h
    rw [if_pos hd]
    exact (List.getElem?_append_right (Nat.le_add_right 4 j)).trans
      (congrArg ((side s.port1).toList[·]?) (Nat.add_sub_cancel_left 4 j))

theorem leftChannels_getElem? {s : State} {k : ChipId} {j : Nat} (h : s.present k = true)
    (hj : j < 4) : (leftChannels s)[4 * k.index + j]? = some ((s.port k).left.toList.getD j 0) :=
  sideChannels_getElem? Port.left h hj

theorem rightChannels_getElem? {s : State} {k : ChipId} {j : Nat} (h : s.present k = true)
    (hj : j < 4) : (rightChannels s)[4 * k.index + j]? = some ((s.port k).right.toList.getD j 0) :=
  sideChannels_getElem? Port.right h hj

/-- R148, entry by entry. -/
theorem gatedQuad_getD (mask : Byte) (lo : Nat) (q : Quad) {j : Nat} (h : j < 4) :
    (gatedQuad mask lo q).toList.getD j 0 =
      if mask.getLsbD (lo + j) then q.toList.getD j 0 else 0 := by
  interval_cases j <;> rfl

/-! ### One round of the driver -/

/-- What a sample of the driver makes of an existing chip and its port (R147). -/
theorem driverSample_chip {s : State} {k : ChipId} (h : s.present k = true) :
    (driverSample s).chip k = (s.chip k).advance s.cfg ∧
      (driverSample s).port k =
        (s.port k).withSides
          (gatedQuad (s.port k).ggStereo 4 ((s.chip k).advance s.cfg).channels)
          (gatedQuad (s.port k).ggStereo 0 ((s.chip k).advance s.cfg).channels) := by
  cases k with
  | c0 =>
    unfold driverSample
    cases s.cfg.dual <;> exact ⟨rfl, rfl⟩
  | c1 =>
    have hd : s.cfg.dual = true := h
    rw [driverSample, if_pos hd]
    exact ⟨rfl, rfl⟩

theorem driverSample_present (s : State) (k : ChipId) :
    (driverSample s).present k = s.present k := by
  cases k with
  | c0 => rfl
  | c1 => rw [State.present_c1, State.present_c1, driverSample_cfg]

/-- Settles O19: entry j of a port's side is the gated channel j (`driverSample_chip`,
`gatedQuad_getD`), and stands at 4k + j. -/
theorem stereoGating : Obligations.StereoGating := by
  intro s k j hk hj
  obtain ⟨hchip, hport⟩ := driverSample_chip hk
  have hk' := (driverSample_present s k).trans hk
  refine ⟨?_, ?_, ?_, ?_⟩
  · rw [rightChannels_getElem? hk' hj, hport, Port.withSides_right, gatedQuad_getD _ _ _ hj,
      Nat.zero_add, psgChannels, hchip]
  · rw [leftChannels_getElem? hk' hj, hport, Port.withSides_left, gatedQuad_getD _ _ _ hj,
      Nat.add_comm 4 j, psgChannels, hchip]
  · rw [rightChannels_length, driverSample_cfg]
  · rw [leftChannels_length, driverSample_cfg]

/-! ### Two chips -/

/-- Two states agree on what chip `k` is made of: the parameters, the chip, its port. -/
def State.sameChip (k : ChipId) (s s' : State) : Prop :=
  s.cfg = s'.cfg ∧ s.chip k = s'.chip k ∧ s.port k = s'.port k

theorem State.sameChip.present {k : ChipId} {s s' : State} (h : State.sameChip k s s') :
    s.present k = s'.present k := by
  cases k with
  | c0 => rfl
  | c1 => exact congrArg Config.dual h.1

theorem State.sameChip.oneSample {k : ChipId} {s s' : State} (h : State.sameChip k s s') :
    State.sameChip k (oneSample s) (oneSample s') := by
  have hp := h.present
  obtain ⟨hcfg, hchip, hport⟩ := h
  obtain ⟨hc, hq⟩ := oneSample_chip k s
  obtain ⟨hc', hq'⟩ := oneSample_chip k s'
  exact ⟨by simp [hcfg], by rw [hc, hc', hp, hchip, hcfg], by rw [hq, hq', hp, hchip, hcfg, hport]⟩

theorem State.sameChip.advanceSamples {k : ChipId} (n : Nat) :
    ∀ {s s' : State}, State.sameChip k s s' →
      State.sameChip k (advanceSamples n s) (advanceSamples n s') := by
  induction n with
  | zero => exact fun h => h
  | succ n ih => exact fun h => ih h.oneSample

@[simp] theorem State.chip_raise (s : State) (e : Error) (k : ChipId) :
    (s.raise e).chip k = s.chip k := by cases k <;> rfl

@[simp] theorem State.port_raise (s : State) (e : Error) (k : ChipId) :
    (s.raise e).port k = s.port k := by cases k <;> rfl

/-- A transaction that always completes, makes of chip `k` and of its port the same from any two
states that agree on them, and leaves the other chip and port as they are. -/
def ActsOnChip (k : ChipId) (r : State → Result) : Prop :=
  ∀ s s' : State, State.sameChip k s s' → ∃ t t', r s = .next t ∧ r s' = .next t' ∧
    t.chip k = t'.chip k ∧ t.port k = t'.port k ∧
    ∀ j, j ≠ k → t.chip j = s.chip j ∧ t.port j = s.port j

theorem State.sameChip.consume {k : ChipId} {s s' : State} (h : State.sameChip k s s') (n : Nat) :
    State.sameChip k (s.consume n) (s'.consume n) := by
  simpa [State.sameChip] using h

theorem actsOnChip_raise (k : ChipId) (e : Error) : ActsOnChip k fun s => .next (s.raise e) := by
  rintro s s' ⟨-, hchip, hport⟩
  exact ⟨_, _, rfl, rfl, by simpa using hchip, by simpa using hport, fun j _ => by simp⟩

/-- A register write at chip `k`, or the error of a chip that is missing (log 5). -/
theorem actsOnChip_psgWrite (k : ChipId) (val : Byte) : ActsOnChip k (psgWrite k val) := by
  intro s s' h
  obtain ⟨f, hf⟩ := psgWrite_eq_writeChip k val
  have hp := h.present
  cases hk : s.present k with
  | true =>
    obtain ⟨hcfg, hchip, hport⟩ := h
    refine ⟨_, _, (hf s).trans (writeChip_present hk),
      (hf s').trans (writeChip_present (hp.symm.trans hk)), ?_, by simpa using hport,
      fun j hj => ⟨State.chip_setChip_other _ hj _, by simp⟩⟩
    rw [State.chip_setChip_same, State.chip_setChip_same, hcfg, hchip]
  | false =>
    have hr := actsOnChip_raise k .dualChipDisabled s s' h
    simpa only [hf, writeChip_missing hk, writeChip_missing (hp.symm.trans hk)] using hr

theorem actsOnChip_setMask (k : ChipId) (mm : Byte) :
    ActsOnChip k fun s => .next (setMask k mm s) := by
  rintro s s' ⟨hcfg, hchip, hport⟩
  refine ⟨_, _, rfl, rfl, ?_⟩
  cases h : s.cfg.ggStereoOff with
  | true =>
    rw [setMask_of_ggStereoOff h, setMask_of_ggStereoOff (by rw [← hcfg, h])]
    exact ⟨hchip, hport, fun j _ => ⟨rfl, rfl⟩⟩
  | false =>
    rw [setMask_of_ggStereo h, setMask_of_ggStereo (by rw [← hcfg, h])]
    exact ⟨by simpa using hchip, by simp [hport],
      fun j hj => ⟨by simp, State.port_setPort_other _ hj _⟩⟩

theorem ActsOnChip.withByte {k : ChipId} {r : Byte → State → Result}
    (h : ∀ b, ActsOnChip k (r b)) (o : Operand8) : ActsOnChip k fun s => withByte o s r := by
  cases o with
  | byte b =>
    intro s s' hs
    obtain ⟨t, t', ht, ht', hchip, hport, hother⟩ := h b _ _ (hs.consume 1)
    exact ⟨t, t', ht, ht', hchip, hport, fun j hj => by simpa using hother j hj⟩
  | absent => exact actsOnChip_raise k _

theorem ActsOnChip.requireDual {k : ChipId} {r : State → Result} (h : ActsOnChip k r) :
    ActsOnChip k fun s => requireDual s (r s) := by
  intro s s' hs
  cases hd : s.cfg.dual with
  | true =>
    simpa only [requireDual_of_dual hd, requireDual_of_dual (hs.1 ▸ hd)] using h s s' hs
  | false =>
    simpa only [requireDual_of_single hd, requireDual_of_single (hs.1 ▸ hd)] using
      actsOnChip_raise k .dualChipDisabled s s' hs

/-- The four commands of the driver act on their chip alone (R142 to R145). -/
theorem actsOnChip_exec {i : Instr} {k : ChipId} (h : commandChip i = some k) :
    ActsOnChip k (exec i) := by
  cases i with
  | psgw1 dd => cases h; exact ActsOnChip.withByte (actsOnChip_psgWrite .c0) dd
  | psgw2 dd => cases h; exact (ActsOnChip.withByte (actsOnChip_psgWrite .c1) dd).requireDual
  | ggst1 mm => cases h; exact ActsOnChip.withByte (actsOnChip_setMask .c0) mm
  | ggst2 mm => cases h; exact (ActsOnChip.withByte (actsOnChip_setMask .c1) mm).requireDual
  | _ => cases h

/-- Settles O20: samples read and write one chip (`sameChip.advanceSamples`), and so does a command
(`actsOnChip_exec`). -/
theorem chipsAreIndependent : Obligations.ChipsAreIndependent := by
  refine ⟨fun n k s s' hcfg hchip hport => ?_, fun i k s s' hi hcfg hchip hport => ?_⟩
  · exact (State.sameChip.advanceSamples n ⟨hcfg, hchip, hport⟩).2
  · exact actsOnChip_exec hi s s' ⟨hcfg, hchip, hport⟩

end Sys2Proof.Machine
end

section
/-!
PROOFS, family 41_psg_advance, continued. The counters are sums tested at one bit; the LFSR is
arithmetic on the value of the seed; the outputs are `outputLevel` of entries of a legal volume table.
-/

namespace Sys2Proof.Machine

/-! ### `BASE_INCR` -/

theorem baseIncr_eq (cfg : Config) : baseIncr cfg = cfg.clock.toNat * 16777216 / 705600 := by
  unfold baseIncr Config.ticksDenominator
  omega

/-- Settles O21: the quotient's two inequalities, the bound `baseIncr_le`, and the only field read. -/
theorem baseIncrement : Obligations.BaseIncrement := by
  intro cfg
  have h := baseIncr_eq cfg
  refine ⟨by omega, by omega, baseIncr_le, fun cfg' hclock => ?_⟩
  rw [baseIncr_eq, baseIncr_eq, hclock]

/-! ### Counter tests -/

theorem noiseDue_iff (incr : Word32) (c : Chip) :
    noiseDue (noiseSum incr c) = true ↔ (c.noiseCount.toInt + incr.toInt) / 256 % 2 = 1 :=
  getLsbD_add_iff c.noiseCount incr 8 (by decide)

theorem toneDue_iff (incr : Word32) (t : Tone) :
    toneDue (toneSum incr t) = true ↔ (t.count.toInt + incr.toInt) / 1024 % 2 = 1 :=
  getLsbD_add_iff t.count incr 10 (by decide)

theorem toInt_setWidth_of_lt {w : Nat} (x : BitVec w) (h : x.toNat < 2 ^ 31) :
    (x.setWidth 32 : Word32).toInt = x.toNat := by
  have hn : (x.setWidth 32 : Word32).toNat = x.toNat := by
    rw [BitVec.toNat_setWidth]
    exact Nat.mod_eq_of_lt (by omega)
  rw [BitVec.toInt_eq_toNat_of_lt (by omega), hn]

/-- The difference wraps once, however the minuend was wrapped (R11). -/
theorem toInt_add_sub (a b p : Word32) :
    (a + b - p).toInt = Int.bmod (a.toInt + b.toInt - p.toInt) (2 ^ 32) := by
  rw [BitVec.toInt_sub, BitVec.toInt_add, Int.bmod_sub_bmod]

/-- The noise period as an integer (R126). -/
theorem noisePeriod_toInt (c : Chip) :
    (noisePeriod c).toInt =
      if c.noiseRef then (c.tone2.freq.toNat : Int) else (c.noiseFreq.toNat : Int) := by
  unfold noisePeriod
  split
  · exact toInt_setWidth_of_lt _ (by omega)
  · exact toInt_setWidth_of_lt _ (by omega)

/-- Settles O23: the two branches of the noise step, by `noiseDue_iff`. -/
theorem noiseGeneratorStep : Obligations.NoiseGeneratorStep := by
  intro cfg c
  dsimp only
  rw [Chip.advance_noiseCount, Chip.advance_noiseSeed, ← noisePeriod_toInt]
  have hdue := noiseDue_iff (tickCount cfg c) c
  refine ⟨fun h => ?_, fun h => ?_⟩
  · rw [if_pos (hdue.2 h), if_pos (hdue.2 h)]
    exact ⟨toInt_add_sub _ _ _, rfl⟩
  · have hnot : ¬ noiseDue (noiseSum (tickCount cfg c) c) = true := fun hd => by
      rw [hdue.1 hd] at h
      cases h
    rw [if_neg hnot, if_neg hnot]
    exact ⟨BitVec.toInt_add _ _, rfl⟩

/-! ### Tones -/

theorem afterEvent_toInt_of_lt {p : BitVec 11} (h : 1 < p.toNat) (a b : Word32) :
    (afterEvent p (a + b)).toInt = Int.bmod (a.toInt + b.toInt - p.toNat) (2 ^ 32) := by
  rw [afterEvent, if_pos h, toInt_add_sub, toInt_setWidth_of_lt p (by omega)]

theorem afterEvent_of_le {p : BitVec 11} (h : p.toNat ≤ 1) (n : Word32) : afterEvent p n = n :=
  if_neg (by omega)

theorem nextEdge_of_lt {p : BitVec 11} (h : 1 < p.toNat) (e : Bool) : nextEdge p e = !e := if_pos h

theorem nextEdge_of_le {p : BitVec 11} (h : p.toNat ≤ 1) (e : Bool) : nextEdge p e = true :=
  if_neg (by omega)

/-- Settles O28: the branches of the tone step, by `toneDue_iff` and the period (`tonePeriod_toNat`). -/
theorem toneGeneratorStep : Obligations.ToneGeneratorStep := by
  intro cfg c i
  dsimp only
  rw [Chip.advance_tone, Tone.step_count, Tone.step_edge, ← tonePeriod_toNat]
  have hdue := toneDue_iff (tickCount cfg c) (c.tone i)
  refine ⟨fun h hp => ?_, fun h hp => ?_, fun h => ?_⟩
  · rw [if_pos (hdue.2 h), if_pos (hdue.2 h), nextEdge_of_lt hp]
    exact ⟨rfl, afterEvent_toInt_of_lt hp _ _⟩
  · rw [if_pos (hdue.2 h), if_pos (hdue.2 h), nextEdge_of_le hp, afterEvent_of_le hp]
    exact ⟨rfl, BitVec.toInt_add _ _⟩
  · have hnot : ¬ toneDue (toneSum (tickCount cfg c) (c.tone i)) = true := fun hd => by
      rw [hdue.1 hd] at h
      cases h
    rw [if_neg hnot, if_neg hnot]
    exact ⟨rfl, BitVec.toInt_add _ _⟩

/-! ### Bounded counters -/

/-- A sample credits at most `maxTicks` ticks, which is at most 127 (R126 (c), R131). -/
theorem tickCount_le_maxTicks {cfg : Config} {c : Chip} (hl : cfg.legal = true) (hf : c.fractionOk) :
    (tickCount cfg c).toNat ≤ maxTicks cfg ∧ maxTicks cfg ≤ 127 := by
  have hincr := baseIncr_le hl
  have htick := tickCount_floor_or_ceil hl hf
  unfold maxTicks at htick ⊢
  omega

theorem getLsbD_iff_of_toNat_eq {v : Word32} {n : Nat} (h : v.toNat = n) (k : Nat) :
    v.getLsbD k = true ↔ n / 2 ^ k % 2 = 1 := by
  rw [BitVec.getLsbD, h, Nat.testBit_eq_decide_div_mod_eq, decide_eq_true_iff]

/-- A counter below the bit that is tested stays below it, whether the period is subtracted or not. -/
theorem counter_bounded {count incr p : Word32} {k : Nat} (hk : k < 31)
    (hcount : count.toNat < 2 ^ k) (hincr : incr.toNat ≤ p.toNat) (hp : p.toNat ≤ 2 ^ k) :
    (if (count + incr).getLsbD k then count + incr - p else count + incr).toNat < 2 ^ k := by
  have hk31 : 2 ^ k ≤ 2 ^ 30 := Nat.pow_le_pow_right (by decide) (by omega)
  have hsum : (count + incr).toNat = count.toNat + incr.toNat := by
    rw [BitVec.toNat_add]
    exact Nat.mod_eq_of_lt (by omega)
  have hdue := getLsbD_iff_of_toNat_eq hsum k
  split
  · next h =>
    have hle : 2 ^ k ≤ count.toNat + incr.toNat := by
      by_contra hlt
      rw [hdue, Nat.div_eq_of_lt (by omega)] at h
      cases h
    rw [BitVec.toNat_sub_of_le (by rw [BitVec.le_def, hsum]; omega), hsum]
    omega
  · next h =>
    rw [hsum]
    by_contra hge
    refine h (hdue.2 ?_)
    rw [Nat.div_eq_of_lt_le (k := 1) (by omega) (by omega)]

/-- Settles O31: `counter_bounded` at bit 8. -/
theorem noiseCounterBounded : Obligations.NoiseCounterBounded := by
  intro cfg c hl hf hmin hmax hcount
  obtain ⟨htick, -⟩ := tickCount_le_maxTicks hl hf
  rw [Chip.advance_noiseCount]
  exact Nat.le_of_lt_succ (counter_bounded (k := 8) (by decide) (Nat.lt_succ_of_le hcount)
    (htick.trans hmin) hmax)

/-- Settles O30: `counter_bounded` at bit 10, for the period the tone subtracts. -/
theorem toneCounterBounded : Obligations.ToneCounterBounded := by
  intro cfg c i hl hf h2 hmin hcount
  obtain ⟨htick, -⟩ := tickCount_le_maxTicks hl hf
  have hfreq := (c.tone i).freq.isLt
  have hp : (tonePeriod cfg (c.tone i).freq).toNat = (c.tone i).freq.toNat := by
    rw [tonePeriod_toNat, if_neg]
    rintro ⟨-, -, h0⟩
    rw [h0] at h2
    exact absurd h2 (by decide)
  have hp32 : ((tonePeriod cfg (c.tone i).freq).setWidth 32 : Word32).toNat =
      (c.tone i).freq.toNat := by
    rw [BitVec.toNat_setWidth, hp]
    exact Nat.mod_eq_of_lt (by omega)
  have hafter : ∀ n, afterEvent (tonePeriod cfg (c.tone i).freq) n =
      n - (tonePeriod cfg (c.tone i).freq).setWidth 32 := fun n => if_pos (by omega)
  rw [Chip.advance_tone, Tone.step_count, hafter]
  exact Nat.le_of_lt_succ (counter_bounded (k := 10) (by decide) (Nat.lt_succ_of_le hcount)
    (by rw [hp32]; omega) (by rw [hp32]; omega))

/-! ### Outputs -/

theorem toneLevel_of_mute {t : Tone} (h : t.mute = true) (cfg : Config) : toneLevel cfg t = 0 :=
  if_pos h

theorem toneLevel_of_not_mute {t : Tone} (h : t.mute = false) (cfg : Config) :
    toneLevel cfg t = outputLevel cfg t.edge (cfg.volume t.volume) :=
  if_neg (by rw [h]; decide)

/-- Settles O29: the tone channel is an `outputLevel` of the new edge, or +0.0. -/
theorem toneOutputLevel : Obligations.ToneOutputLevel := by
  intro cfg c i hl
  obtain ⟨-, -, hle, -⟩ := Config.legal_volume hl
  dsimp only
  rw [Chip.advance_channel, Chip.advance_tone]
  refine ⟨fun hm => ?_, fun hm => ?_⟩
  · rw [toneLevel_of_not_mute (by rw [Tone.step_mute, hm]), Tone.step_volume]
    exact outputLevel_value cfg _ (hle _)
  · exact toneLevel_of_mute (by rw [Tone.step_mute, hm]) cfg

theorem outputLevel_atMostOne {cfg : Config} (hl : cfg.legal = true) (up : Bool) (v : BitVec 4) :
    f32AtMostOne (outputLevel cfg up (cfg.volume v)) := by
  obtain ⟨-, -, hle, -⟩ := Config.legal_volume hl
  rw [f32AtMostOne, (outputLevel_value cfg up (hle v)).1]
  exact hle v

theorem f32AtMostOne_zero : f32AtMostOne 0 := by
  unfold f32AtMostOne
  decide

theorem toneLevel_atMostOne {cfg : Config} (hl : cfg.legal = true) (t : Tone) :
    f32AtMostOne (toneLevel cfg t) := by
  cases hm : t.mute with
  | true => rw [toneLevel_of_mute hm]; exact f32AtMostOne_zero
  | false => rw [toneLevel_of_not_mute hm]; exact outputLevel_atMostOne hl _ _

theorem Chip.advance_channels_atMostOne {cfg : Config} (hl : cfg.legal = true) (c : Chip) :
    (c.advance cfg).channels.atMostOne := by
  rw [Chip.advance_eq]
  exact ⟨toneLevel_atMostOne hl _, toneLevel_atMostOne hl _, toneLevel_atMostOne hl _,
    outputLevel_atMostOne hl _ _⟩

/-- Settles O32: every output is a level of the volume table, or +0.0. -/
theorem channelsBounded : Obligations.ChannelsBounded :=
  fun _ c hl => ⟨(Config.legal_volume hl).1, Chip.advance_channels_atMostOne hl c⟩

/-! ### What a sample does not read or write -/

/-- Two configurations a sample cannot tell apart: it reads the clock, the LFSR's parameters, the
polarity, the volume table, and what tones subtract (R120 to R134). -/
def sameForSample (cfg cfg' : Config) : Prop :=
  cfg'.clock = cfg.clock ∧ cfg'.srWidth = cfg.srWidth ∧ cfg'.feedback = cfg.feedback ∧
    cfg'.outputNeg = cfg.outputNeg ∧ cfg'.voltab = cfg.voltab ∧
    ∀ f, tonePeriod cfg' f = tonePeriod cfg f

theorem Chip.advance_congr {cfg cfg' : Config} (h : sameForSample cfg cfg') (c : Chip) :
    c.advance cfg' = c.advance cfg := by
  obtain ⟨hclock, hwidth, hfeedback, hneg, hvoltab, hperiod⟩ := h
  have hsum : rateSum cfg' c = rateSum cfg c := by unfold rateSum baseIncr; rw [hclock]
  have htick : tickCount cfg' c = tickCount cfg c := by unfold tickCount; rw [hsum]
  have hvol : ∀ v, cfg'.volume v = cfg.volume v := fun v => by unfold Config.volume; rw [hvoltab]
  have hlevel : ∀ up v, outputLevel cfg' up v = outputLevel cfg up v := fun up v => by
    unfold outputLevel; rw [hneg]
  have hlfsr : ∀ m v, lfsrStep cfg' m v = lfsrStep cfg m v := fun m v => by
    unfold lfsrStep Config.width; rw [hwidth, hfeedback]
  have hnoise : ∀ n, c.noiseStep cfg' n = c.noiseStep cfg n := fun n => by
    unfold Chip.noiseStep; rw [hlfsr]
  have hstep : ∀ (t : Tone) n, t.step cfg' n = t.step cfg n := fun t n => by
    unfold Tone.step; rw [hperiod]
  have htone : ∀ t, toneLevel cfg' t = toneLevel cfg t := fun t => by
    unfold toneLevel; rw [hlevel, hvol]
  have hnl : ∀ c, noiseLevel cfg' c = noiseLevel cfg c := fun c => by
    unfold noiseLevel; rw [hlevel, hvol]
  simp only [Chip.advance_eq, hsum, htick, hnoise, hstep, htone, hnl]

theorem tonePeriod_of_not_freq0Applies {cfg : Config} (h : cfg.freq0Applies = false)
    (f : BitVec 10) : tonePeriod cfg f = f.setWidth 11 := by
  simp [tonePeriod, h]

/-- Settles O34: none of the flags is among what a sample reads (`advance_congr`), `FREQ0` only where
it applies. -/
theorem unreadFlags : Obligations.UnreadFlags := by
  intro cfg c f ck xn gg
  refine ⟨Chip.advance_congr ⟨rfl, rfl, rfl, rfl, rfl, fun _ => rfl⟩ c, fun h => ?_⟩
  apply Chip.advance_congr
  refine ⟨rfl, rfl, rfl, rfl, rfl, fun p => ?_⟩
  rw [tonePeriod_of_not_freq0Applies h]
  exact tonePeriod_of_not_freq0Applies (by exact h) p

/-- Settles O35: field by field. -/
theorem advanceKeepsRegisters : Obligations.AdvanceKeepsRegisters := by
  intro cfg c
  refine ⟨fun i => ?_, by simp, by simp, by simp, by simp, by simp⟩
  rw [Chip.advance_tone]
  exact ⟨by simp, by simp, by simp⟩

/-! ### The LFSR -/

/-- R125 for a width of two or more: the seed halved, with the feedback taken in at the top. -/
theorem lfsrStep_white_toNat {cfg : Config} {seed : BitVec 16} (h2 : 2 ≤ cfg.width)
    (h16 : cfg.width ≤ 16) (hs : seed.toNat < 2 ^ cfg.width) :
    (lfsrStep cfg .white seed).toNat =
      seed.toNat / 2 + 2 ^ (cfg.width - 1) * (onesCount (seed &&& cfg.feedback) % 2) := by
  rw [lfsrStep, if_neg (by omega), ← parity_toNat]
  exact shiftIn_toNat (by omega) h16 hs _

theorem lfsrStep_periodic_toNat {cfg : Config} {seed : BitVec 16} (h2 : 2 ≤ cfg.width)
    (h16 : cfg.width ≤ 16) (hs : seed.toNat < 2 ^ cfg.width) :
    (lfsrStep cfg .periodic seed).toNat =
      seed.toNat / 2 + 2 ^ (cfg.width - 1) * (seed.toNat % 2) := by
  have hbit : (BitVec.ofBool (seed.getLsbD 0)).toNat = seed.toNat % 2 := by
    rw [BitVec.getLsbD, Nat.testBit_zero]
    rcases Nat.mod_two_eq_zero_or_one seed.toNat with h | h <;> simp [h]
  rw [lfsrStep, if_neg (by omega), ← hbit]
  exact shiftIn_toNat (by omega) h16 hs _

theorem lfsrStep_width_one {cfg : Config} (h : cfg.width = 1) (mode : NoiseMode) (seed : BitVec 16) :
    lfsrStep cfg mode seed = 1 := if_pos (by omega)

/-- Settles O24: the two modes (`lfsrStep_white_toNat`, `lfsrStep_periodic_toNat`) and width 1. -/
theorem lfsrShift : Obligations.LfsrShift := fun _ seed h16 hs =>
  ⟨fun h2 => ⟨lfsrStep_white_toNat h2 h16 hs, lfsrStep_periodic_toNat h2 h16 hs⟩,
    fun h1 mode => lfsrStep_width_one h1 mode seed⟩

/-- A shift keeps the seed within its width (R32). -/
theorem lfsrStep_lt {cfg : Config} {seed : BitVec 16} (h1 : 1 ≤ cfg.width) (h16 : cfg.width ≤ 16)
    (hs : seed.toNat < 2 ^ cfg.width) (mode : NoiseMode) :
    (lfsrStep cfg mode seed).toNat < 2 ^ cfg.width := by
  rcases Nat.lt_or_ge 1 cfg.width with h2 | h2
  · have hpow : 2 ^ cfg.width = 2 * 2 ^ (cfg.width - 1) := by
      rw [← Nat.pow_succ', Nat.succ_eq_add_one, Nat.sub_add_cancel h1]
    have bound : ∀ b, b % 2 ≤ 1 →
        seed.toNat / 2 + 2 ^ (cfg.width - 1) * (b % 2) < 2 ^ cfg.width := fun b hb => by
      have := Nat.mul_le_mul_left (2 ^ (cfg.width - 1)) hb
      omega
    cases mode with
    | white =>
      rw [lfsrStep_white_toNat h2 h16 hs]
      exact bound _ (by omega)
    | periodic =>
      rw [lfsrStep_periodic_toNat h2 h16 hs]
      exact bound _ (by omega)
  · rw [lfsrStep_width_one (by omega)]
    exact Nat.one_lt_two_pow (by omega)

/-! ### The periodic cycle -/

theorem toNat_ofNat_two_pow {j : Nat} (h : j < 16) : (BitVec.ofNat 16 (2 ^ j)).toNat = 2 ^ j := by
  rw [BitVec.toNat_ofNat]
  exact Nat.mod_eq_of_lt (Nat.pow_lt_pow_right (by decide) h)

/-- In periodic mode a one moves down a place, and from the lowest back to the top (R129 (a)). -/
theorem lfsrStep_periodic_oneHot {cfg : Config} (h16 : cfg.width ≤ 16) {j : Nat}
    (hj : j < cfg.width) :
    lfsrStep cfg .periodic (BitVec.ofNat 16 (2 ^ j)) =
      BitVec.ofNat 16 (2 ^ if j = 0 then cfg.width - 1 else j - 1) := by
  rcases Nat.lt_or_ge 1 cfg.width with h2 | h1
  · apply BitVec.eq_of_toNat_eq
    have hseed := toNat_ofNat_two_pow (show j < 16 by omega)
    rw [lfsrStep_periodic_toNat h2 h16 (by rw [hseed]; exact Nat.pow_lt_pow_right (by decide) hj),
      hseed, toNat_ofNat_two_pow (by split <;> omega)]
    cases j with
    | zero => simp
    | succ i =>
      have hpow : 2 ^ (i + 1) = 2 * 2 ^ i := Nat.pow_succ'
      rw [hpow, Nat.mul_mod_right, Nat.mul_zero, Nat.mul_div_cancel_left _ (by decide)]
      simp
  · obtain rfl : j = 0 := by omega
    rw [lfsrStep_width_one (by omega), if_pos rfl, show cfg.width - 1 = 0 by omega]
    rfl

theorem lfsrIterate_succ (cfg : Config) (mode : NoiseMode) (n : Nat) :
    ∀ s, lfsrIterate cfg mode (n + 1) s = lfsrStep cfg mode (lfsrIterate cfg mode n s) := by
  induction n with
  | zero => exact fun _ => rfl
  | succ n ih => exact fun s => ih (lfsrStep cfg mode s)

/-- After n shifts of the reload value, fewer than the width, the one stands n places lower. -/
theorem lfsrIterate_seedReload {cfg : Config} (h16 : cfg.width ≤ 16) {n : Nat} (hn : n < cfg.width) :
    lfsrIterate cfg .periodic n (seedReload cfg) = BitVec.ofNat 16 (2 ^ (cfg.width - 1 - n)) := by
  induction n with
  | zero => exact seedReload_eq_ofNat cfg
  | succ n ih =>
    rw [lfsrIterate_succ, ih (by omega), lfsrStep_periodic_oneHot h16 (by omega),
      if_neg (by omega)]
    congr 2

/-- Settles O25: the one walks down from the top (`lfsrIterate_seedReload`) and returns to it from the
lowest place (`lfsrStep_periodic_oneHot`). -/
theorem periodicNoiseCycle : Obligations.PeriodicNoiseCycle := by
  intro cfg hl
  obtain ⟨h1, h16⟩ := Config.legal_width hl
  refine ⟨?_, fun n h0 hn heq => ?_⟩
  · obtain ⟨m, hm⟩ : ∃ m, cfg.width = m + 1 := ⟨cfg.width - 1, by omega⟩
    conv_lhs => rw [hm]
    rw [lfsrIterate_succ, lfsrIterate_seedReload h16 (by omega),
      lfsrStep_periodic_oneHot h16 (by omega), if_pos (by omega), seedReload_eq_ofNat]
  · have hval := congrArg BitVec.toNat heq
    rw [lfsrIterate_seedReload h16 hn, seedReload_eq_ofNat, toNat_ofNat_two_pow (by omega),
      toNat_ofNat_two_pow (by omega)] at hval
    have := Nat.pow_right_injective (le_refl 2) hval
    omega

/-! ### The seed 0 -/

/-- Of the seed 1 only the lowest tap is seen. -/
theorem onesCount_one_and (v : BitVec 16) :
    onesCount (1 &&& v) % 2 = if v.getLsbD 0 then 1 else 0 := by
  have hbit : ∀ i, (1 &&& v : BitVec 16).getLsbD i = (decide (i = 0) && v.getLsbD 0) := fun i => by
    cases i <;> simp [BitVec.getLsbD_and, BitVec.getLsbD_one]
  simp only [onesCount, hbit]
  cases v.getLsbD 0 <;> decide

/-- A shift gives 0 exactly where nothing is left and nothing is taken in. -/
theorem lfsrStep_eq_zero_iff {cfg : Config} {seed : BitVec 16} (h2 : 2 ≤ cfg.width)
    (h16 : cfg.width ≤ 16) (hs : seed.toNat < 2 ^ cfg.width) (mode : NoiseMode) :
    lfsrStep cfg mode seed = 0 ↔ seed.toNat / 2 = 0 ∧
      (match mode with
        | .white => onesCount (seed &&& cfg.feedback) % 2
        | .periodic => seed.toNat % 2) = 0 := by
  have hpow : 2 ^ (cfg.width - 1) ≠ 0 := (Nat.two_pow_pos _).ne'
  rw [← BitVec.toNat_inj]
  cases mode with
  | white => simp [lfsrStep_white_toNat h2 h16 hs]
  | periodic => simp [lfsrStep_periodic_toNat h2 h16 hs]

/-- Settles O26: a seed other than 0 that halves to 0 is 1 (`lfsrStep_eq_zero_iff`), and takes in its
own lowest bit or the lowest tap. -/
theorem seedReachesZeroOnlyFromOne : Obligations.SeedReachesZeroOnlyFromOne := by
  intro cfg mode seed h2 h16 hs
  refine ⟨fun hne => ?_, ?_⟩
  · have hhalf : seed.toNat / 2 = 0 ↔ seed = 1 := by
      have hne' : seed.toNat ≠ 0 := fun h => hne (BitVec.eq_of_toNat_eq h)
      rw [← BitVec.toNat_inj, show (1 : BitVec 16).toNat = 1 from rfl]
      omega
    rw [lfsrStep_eq_zero_iff h2 h16 hs, hhalf]
    refine and_congr_right fun h1 => ?_
    subst h1
    cases mode with
    | white =>
      dsimp only
      rw [onesCount_one_and]
      cases cfg.feedback.getLsbD 0 <;> decide
    | periodic => simp
  · exact (lfsrStep_eq_zero_iff h2 h16 (Nat.two_pow_pos _) .white).2 ⟨rfl, by simp [onesCount]⟩

end Sys2Proof.Machine
end

section
/-!
PROOFS, family 43_dispatcher, continued. What n samples leave is said by the chips advanced n times and
by one event each; what a step does, by the instruction its bytes decode to (R160 to R172).
-/

namespace Sys2Proof.Machine

/-! ### `WAIT` -/

/-- Settles O36: the samples are those of `advanceSamples`, before the operand is consumed or after it
(`exec_wait_word`). -/
theorem waitCommand : Obligations.WaitCommand := by
  refine ⟨fun n s => ⟨exec_wait_word n s, ?_, ?_, ?_, ?_, ?_, ?_, ?_, ?_⟩, fun s => rfl,
    fun aa s => rfl⟩
  · rw [State.consume_pc, advanceSamples_pc]
  · rw [State.consume_samplesPlayed, advanceSamples_samplesPlayed]
  · rw [State.consume_position, advanceSamples_position]
  · rw [State.consume_trace, advanceSamples_trace_length]
  · rintro rfl
    rfl
  · rw [State.consume_endOfStream, advanceSamples_endOfStream]
  · rw [State.consume_fault, advanceSamples_fault]
  · rw [State.consume_loopsPlayed, advanceSamples_loopsPlayed]

/-- Settles O39: the samples add up (`advanceSamples_add`) and do not see the cursor
(`advanceSamples_consume`). -/
theorem waitComposition : Obligations.WaitComposition := by
  intro n m s h
  have toNat : ∀ a < 65536, (BitVec.ofNat 16 a).toNat = a := fun a ha => by
    rw [BitVec.toNat_ofNat]
    exact Nat.mod_eq_of_lt ha
  refine ⟨_, _, exec_wait_word _ s, exec_wait_word _ _, ?_⟩
  rw [exec_wait_word, toNat n (by omega), toNat m (by omega), toNat _ h, advanceSamples_add,
    advanceSamples_consume, advanceSamples_consume]

/-! ### The chips over n samples -/

theorem Chip.samples_succ (cfg : Config) (n : Nat) :
    ∀ c, Chip.samples cfg (n + 1) c = (Chip.samples cfg n c).advance cfg := by
  induction n with
  | zero => exact fun _ => rfl
  | succ n ih => exact fun c => ih (c.advance cfg)

theorem advanceSamples_present (n : Nat) (s : State) (k : ChipId) :
    (advanceSamples n s).present k = s.present k := by
  cases k with
  | c0 => rfl
  | c1 => rw [State.present_c1, State.present_c1, advanceSamples_cfg]

theorem advanceSamples_chip {k : ChipId} {s : State} (h : s.present k = true) (n : Nat) :
    (advanceSamples n s).chip k = Chip.samples s.cfg n (s.chip k) := by
  induction n with
  | zero => rfl
  | succ n ih =>
    rw [advanceSamples_succ, (oneSample_chip k _).1, if_pos (by rwa [advanceSamples_present]), ih,
      advanceSamples_cfg, Chip.samples_succ]

theorem oneSample_ggStereo (k : ChipId) (s : State) :
    ((oneSample s).port k).ggStereo = (s.port k).ggStereo := by
  rw [(oneSample_chip k s).2]
  split <;> rfl

theorem advanceSamples_ggStereo (k : ChipId) (n : Nat) (s : State) :
    ((advanceSamples n s).port k).ggStereo = (s.port k).ggStereo := by
  induction n generalizing s with
  | zero => rfl
  | succ n ih => rw [advanceSamples, ih, oneSample_ggStereo]

/-- After at least one sample, the sides of an existing chip's port are its channels, gated by a mask
no sample changes (R148). -/
theorem advanceSamples_sides {k : ChipId} {s : State} (h : s.present k = true) (n : Nat) :
    ((advanceSamples (n + 1) s).port k).left =
        gatedQuad (s.port k).ggStereo 4 (Chip.samples s.cfg (n + 1) (s.chip k)).channels ∧
      ((advanceSamples (n + 1) s).port k).right =
        gatedQuad (s.port k).ggStereo 0 (Chip.samples s.cfg (n + 1) (s.chip k)).channels := by
  have hp := (advanceSamples_present n s k).trans h
  rw [advanceSamples_succ, (oneSample_chip k _).2, if_pos hp, advanceSamples_chip h,
    advanceSamples_cfg, advanceSamples_ggStereo, Chip.samples_succ]
  exact ⟨rfl, rfl⟩

/-! ### The events -/

/-- The events of n samples: each that of the state the host sees after its sample (R170). -/
def sampleEvents (s : State) (n : Nat) : List Event :=
  (List.range n).map fun j => sampleEvent (advanceSamples (j + 1) s)

@[simp] theorem sampleEvents_length (s : State) (n : Nat) : (sampleEvents s n).length = n := by
  simp [sampleEvents]

theorem advanceSamples_trace (n : Nat) (s : State) :
    (advanceSamples n s).trace = s.trace ++ sampleEvents s n := by
  induction n with
  | zero => exact (List.append_nil _).symm
  | succ n ih =>
    have hlast : sampleEvents s (n + 1) =
        sampleEvents s n ++ [sampleEvent (advanceSamples (n + 1) s)] := by
      simp [sampleEvents, List.range_succ]
    rw [hlast, ← List.append_assoc, ← ih, advanceSamples_succ, oneSample_trace]

theorem sampleEvents_getElem? (s : State) {j n : Nat} (h : j < n) :
    (sampleEvents s n)[j]? = some (sampleEvent (advanceSamples (j + 1) s)) := by
  simp [sampleEvents, h]

/-- Settles O38: the chips by `advanceSamples_chip`, the events by `advanceSamples_trace`, their
entries by `advanceSamples_sides`. -/
theorem waitEvents : Obligations.WaitEvents := by
  intro n s
  refine ⟨fun k hk => advanceSamples_chip hk n,
    ⟨sampleEvents s n, advanceSamples_trace n s, sampleEvents_length s n⟩, fun j hj => ?_⟩
  refine ⟨sampleEvent (advanceSamples (j + 1) s), ?_, advanceSamples_samplesPlayed _ s,
    advanceSamples_position _ s, advanceSamples_loopsPlayed _ s, rfl, rfl, fun k c hk hc => ?_⟩
  · rw [advanceSamples_trace, List.getElem?_append_right (Nat.le_add_right _ j),
      Nat.add_sub_cancel_left, sampleEvents_getElem? s hj]
  · have hp := (advanceSamples_present (j + 1) s k).trans hk
    obtain ⟨hleft, hright⟩ := advanceSamples_sides hk j
    refine ⟨(rightChannels_getElem? hp hc).trans ?_, (leftChannels_getElem? hp hc).trans ?_⟩
    · rw [hright, gatedQuad_getD _ _ _ hc, Nat.zero_add]
    · rw [hleft, gatedQuad_getD _ _ _ hc, Nat.add_comm 4 c]

/-! ### The frame of the waits -/

/-- What no sample changes: the registers and masks, and a chip the block does not have. -/
def State.sampleFrame (s t : State) : Prop :=
  t.cfg = s.cfg ∧
    (∀ k, Chip.sameRegisters (s.chip k) (t.chip k) ∧ (t.port k).ggStereo = (s.port k).ggStereo) ∧
    ∀ k, s.present k = false → t.chip k = s.chip k ∧ t.port k = s.port k

theorem Chip.sameRegisters_refl (c : Chip) : Chip.sameRegisters c c :=
  ⟨fun _ => ⟨rfl, rfl, rfl⟩, rfl, rfl, rfl, rfl, rfl⟩

theorem Chip.sameRegisters.advance {c c' : Chip} (h : Chip.sameRegisters c c') (cfg : Config) :
    Chip.sameRegisters c (c'.advance cfg) := by
  obtain ⟨htone, hmode, href, hfreq, hvol, hadr⟩ := h
  refine ⟨fun i => ?_, by simpa using hmode, by simpa using href, by simpa using hfreq,
    by simpa using hvol, by simpa using hadr⟩
  rw [Chip.advance_tone]
  simpa using htone i

theorem State.sampleFrame.oneSample {s t : State} (h : s.sampleFrame t) :
    s.sampleFrame (oneSample t) := by
  obtain ⟨hcfg, hk, hmissing⟩ := h
  refine ⟨(oneSample_cfg t).trans hcfg, fun k => ⟨?_, (oneSample_ggStereo k t).trans (hk k).2⟩,
    fun k hp => ?_⟩
  · rw [(oneSample_chip k t).1]
    split
    · exact (hk k).1.advance t.cfg
    · exact (hk k).1
  · have hp' : ¬ t.present k = true := by
      cases k with
      | c0 => cases hp
      | c1 =>
        have hd : s.cfg.dual = false := hp
        simp [hcfg, hd]
    rw [(oneSample_chip k t).1, (oneSample_chip k t).2, if_neg hp', if_neg hp']
    exact hmissing k hp

theorem advanceSamples_sampleFrame (n : Nat) (s : State) : s.sampleFrame (advanceSamples n s) :=
  advanceSamples_induct (fun _ h => State.sampleFrame.oneSample h) n s
    ⟨rfl, fun _ => ⟨Chip.sameRegisters_refl _, rfl⟩, fun _ _ => ⟨rfl, rfl⟩⟩

/-- A wait is some samples and its operand consumed. -/
theorem exec_wait_cases {i : Instr} {s t : State}
    (hi : (∃ n, i = .wait (.word n)) ∨ i = .wait60 ∨ i = .wait50) (h : exec i s = .next t) :
    ∃ n m, t = (advanceSamples n s).consume m := by
  rcases hi with ⟨w, rfl⟩ | rfl | rfl
  · exact ⟨_, 2, Host.Outcome.next.inj (h.symm.trans (exec_wait_word w s))⟩
  · refine ⟨735, 0, ?_⟩
    rw [State.consume_zero]
    exact Host.Outcome.next.inj (h.symm.trans (exec_wait60 s))
  · refine ⟨882, 0, ?_⟩
    rw [State.consume_zero]
    exact Host.Outcome.next.inj (h.symm.trans (exec_wait50 s))

/-- Settles O40: the frame of the samples (`advanceSamples_sampleFrame`), which the cursor takes no
part in. -/
theorem waitFrame : Obligations.WaitFrame := by
  intro i s t hi h
  obtain ⟨n, m, rfl⟩ := exec_wait_cases hi h
  obtain ⟨hcfg, hk, hmissing⟩ := advanceSamples_sampleFrame n s
  exact ⟨fun k => by simpa using hk k, ⟨hcfg, fun a => by simp⟩, by simp, by simp, by simp,
    hmissing .c1⟩

/-! ### The stream end -/

theorem streamEnd_of_not_loopLegal {s : State} (h : s.cfg.hasLoop = true)
    (hl : s.cfg.loopLegal = false) : streamEnd s = .refused .negativeLoopTarget := by
  simp [streamEnd, h, hl]

theorem loopLegal_iff {c : Config} (h : c.hasLoop = true) :
    c.loopLegal = true ↔ c.dataOffset.toNat ≤ c.loopOffset.toNat := by
  simp [Config.loopLegal, h]

/-- U9: a legal target reaches the loop offset again (R67). -/
theorem loopTarget_add {c : Config} (h : c.hasLoop = true) (hl : c.loopLegal = true) :
    loopTarget c + c.dataOffset.toNat = c.loopOffset.toNat :=
  Nat.sub_add_cancel ((loopLegal_iff h).1 hl)

/-- Settles O41: the three branches of the stream-end routine. -/
theorem endCommand : Obligations.EndCommand := by
  intro s
  refine ⟨fun h => streamEnd_of_not_hasLoop h, fun h hle => ?_, fun h hlt => ?_⟩
  · have hl := (loopLegal_iff h).2 hle
    refine ⟨loopTarget s.cfg, s.cfg.totalSamples - s.cfg.loopSamples, loopTarget_add h hl, ?_, ?_⟩
    · rw [BitVec.toNat_sub]
      omega
    · have hloops : s.loopsPlayed + 1 = BitVec.ofNat 32 (s.loopsPlayed.toNat + 1) := by
        rw [BitVec.ofNat_add, BitVec.ofNat_toNat, BitVec.setWidth_eq]
        rfl
      rw [exec_endMark, streamEnd_of_hasLoop h hl, loopBack, hloops]
      rfl
  · refine streamEnd_of_not_loopLegal h ?_
    rw [← Bool.not_eq_true, loopLegal_iff h]
    omega

end Sys2Proof.Machine
end

section
/-!
PROOFS, family 43_dispatcher: `next()` (R160 to R163) and the rules that hold of every step. The
inversion lemmas of `exec` and `step` (Laws/Ops.lean) are put together into one statement, `step_effect`.
-/

namespace Sys2Proof.Machine

/-! ### Fetching at the cursor -/

theorem step_of_fetch_ok {s : State} {i : Instr} {rest : List Byte} (hr : s.ready)
    (h : fetchInstr s = .ok (i, rest)) : step s = exec i (s.consume 1) := by
  rw [step_of_ready ((blocked_none s).2 hr), h]

theorem step_of_fetch_error {s : State} {e : DecodeError} (hr : s.ready)
    (h : fetchInstr s = .error e) : step s = onReject e s := by
  rw [step_of_ready ((blocked_none s).2 hr), h]

/-- The command at the cursor is its opcode byte with what stands behind it (R80, R161). -/
theorem fetchInstr_of_read {s : State} {b : Byte} (h : s.region.read s.pc = some b) :
    fetchInstr s = decode .command (b :: (s.consume 1).lookahead 2) := by
  rw [fetchInstr, State.lookahead_cons h]

/-- Settles O42: `step_of_fetch_ok`, the fetch being the decoding of three bytes. -/
theorem stepRunsDecoded : Obligations.StepRunsDecoded :=
  fun _ _ _ hr h => step_of_fetch_ok hr h

/-- Settles O44: no byte without a handler decodes (`decode_of_not_isOpcode`). -/
theorem unknownOpcodeStep : Obligations.UnknownOpcodeStep := by
  intro s b hr hread hreg
  have hnot : ¬ IsOpcode b := by rwa [← registered_handlerTable, Bool.not_eq_true]
  exact step_of_fetch_error hr ((fetchInstr_of_read hread).trans (decode_of_not_isOpcode hnot _))

/-! ### Errors of the operands -/

theorem Region.lt_len_of_read {r : Region} {a : Nat} {b : Byte} (h : r.read a = some b) :
    a < r.len := by
  by_contra hge
  rw [(Region.read_eq_none r a).2 (Nat.le_of_not_lt hge)] at h
  cases h

theorem State.lookahead_of_len_le {s : State} (h : s.region.len ≤ s.pc) (n : Nat) :
    s.lookahead n = [] :=
  State.lookahead_end ((Region.read_eq_none _ _).2 h) n

/-- A step at a known opcode byte with nothing behind it. -/
theorem step_of_lastByte {s : State} {op : Byte} {i : Instr} {rest : List Byte} (hr : s.ready)
    (hread : s.region.read s.pc = some op) (hlen : s.region.len = s.pc + 1)
    (hdec : decode .command [op] = .ok (i, rest)) : step s = exec i (s.consume 1) := by
  refine step_of_fetch_ok hr (i := i) (rest := rest) ?_
  rw [fetchInstr_of_read hread, State.lookahead_of_len_le (Nat.le_of_eq hlen), hdec]

/-- A missing operand byte raises PrematureEOF behind the opcode, the last byte (R201). -/
theorem raise_prematureEOF_eq {s : State} (hlen : s.region.len = s.pc + 1) :
    (s.consume 1).raise .prematureEOF =
      { s with pc := s.region.len, fault := some .prematureEOF } := by
  rw [hlen]
  rfl

/-- `WAIT` with no byte or one byte behind it (R202). -/
theorem step_of_shortWait {s : State} (hr : s.ready) (hread : s.region.read s.pc = some 0x61)
    (hlen : s.region.len ≤ s.pc + 2) :
    step s = .next { s with pc := s.region.len, fault := some .malformedWait } := by
  have hpc := Region.lt_len_of_read hread
  rcases (by omega : s.region.len = s.pc + 1 ∨ s.region.len = s.pc + 2) with h1 | h2
  · rw [step_of_lastByte hr hread h1 rfl, h1]
    rfl
  · obtain ⟨aa, haa⟩ : ∃ aa, s.region.read (s.pc + 1) = some aa :=
      ⟨_, if_pos (by omega : s.pc + 1 < s.region.len)⟩
    have hlook : (s.consume 1).lookahead 2 = [aa] := by
      rw [State.lookahead_cons (by exact haa), State.lookahead_of_len_le (Nat.le_of_eq h2)]
    rw [step_of_fetch_ok hr (i := .wait (.highAbsent aa)) (rest := []), h2]
    · rfl
    · rw [fetchInstr_of_read hread, hlook]
      rfl

/-- `PSGW2` or `GGST2`, whatever follows, in a single-chip block (R204, R210). -/
theorem step_of_missingChip {s : State} {op : Byte} (hr : s.ready)
    (hread : s.region.read s.pc = some op) (hd : s.cfg.dual = false) (hop : op = 0x30 ∨ op = 0x3F) :
    step s = .next { s with pc := s.pc + 1, fault := some .dualChipDisabled } := by
  rcases hop with rfl | rfl
  · rw [step_of_fetch_ok hr ((fetchInstr_of_read hread).trans rfl)]
    exact requireDual_of_single (s := s.consume 1) hd _
  · rw [step_of_fetch_ok hr ((fetchInstr_of_read hread).trans rfl)]
    exact requireDual_of_single (s := s.consume 1) hd _

/-- Settles O45: the decoder reads a truncated command, and its meaning raises the error behind the
bytes that were there. -/
theorem operandErrorSteps : Obligations.OperandErrorSteps := by
  intro s op hr hread
  refine ⟨fun hop hlen => ?_, ?_, step_of_missingChip hr hread⟩
  · rw [← raise_prematureEOF_eq hlen]
    rcases hop with rfl | rfl | ⟨hd, rfl | rfl⟩
    · exact step_of_lastByte hr hread hlen rfl
    · exact step_of_lastByte hr hread hlen rfl
    · exact (step_of_lastByte hr hread hlen rfl).trans (requireDual_of_dual (s := s.consume 1) hd _)
    · exact (step_of_lastByte hr hread hlen rfl).trans (requireDual_of_dual (s := s.consume 1) hd _)
  · rintro rfl hlen
    exact step_of_shortWait hr hread hlen

/-! ### Blocked steps -/

theorem step_of_blocked {s : State} {r : Result} (h : blocked s = some r) : step s = r := by
  simp only [step, h]

/-- Settles O46: what `blocked` answers, in the order of its checks. -/
theorem blockedSteps : Obligations.BlockedSteps := by
  intro s
  refine ⟨fun hl hf he => step_of_blocked ?_, fun e hl hf => step_of_blocked ?_, fun hl t hn => ?_⟩
  · simp [blocked, (configStop_none s.cfg).2 hl, hf, running, he]
  · simp [blocked, (configStop_none s.cfg).2 hl, hf]
  · obtain ⟨hlegal, -, -⟩ := (blocked_none s).1 (step_cases hn).1
    rw [hl] at hlegal
    cases hlegal

/-! ### Complete commands -/

theorem psgWrite_completes {k : ChipId} {s : State} (h : s.present k = true) (val : Byte) :
    ∃ t, psgWrite k val s = .next t ∧ t.pc = s.pc ∧ t.fault = s.fault := by
  obtain ⟨f, hf⟩ := psgWrite_eq_writeChip k val
  exact ⟨_, (hf s).trans (writeChip_present h), by simp, by simp⟩

theorem setMask_pc_fault (k : ChipId) (mm : Byte) (s : State) :
    (setMask k mm s).pc = s.pc ∧ (setMask k mm s).fault = s.fault := by
  unfold setMask
  split <;> simp

theorem Operand8.exists_byte {o : Operand8} (h : o.present = true) : ∃ b, o = .byte b := by
  cases o with
  | byte b => exact ⟨b, rfl⟩
  | absent => cases h

theorem Operand16.exists_word {o : Operand16} (h : o.present = true) : ∃ n, o = .word n := by
  cases o with
  | word n => exact ⟨n, rfl⟩
  | absent => cases h
  | highAbsent aa => cases h

/-- From just past its opcode a complete command other than `END` consumes the rest of its row and
raises nothing (R177). -/
theorem exec_completes {i : Instr} {s : State} (hspace : i.space = .command)
    (hw : i.wellFormed = true) (hne : i ≠ .endMark)
    (hd : s.cfg.dual = true ∨ ∀ o, i ≠ .psgw2 o ∧ i ≠ .ggst2 o) :
    ∃ t, exec i s = .next t ∧ t.pc + 1 = s.pc + i.lengthBytes ∧ t.fault = s.fault := by
  cases i with
  | psgw1 dd =>
    obtain ⟨b, rfl⟩ := Operand8.exists_byte hw
    obtain ⟨t, ht, hpc, hf⟩ := psgWrite_completes (k := .c0) (s := s.consume 1) rfl b
    exact ⟨t, ht, by rw [hpc]; rfl, hf⟩
  | psgw2 dd =>
    obtain ⟨b, rfl⟩ := Operand8.exists_byte hw
    have hdual := hd.resolve_right fun h => (h _).1 rfl
    obtain ⟨t, ht, hpc, hf⟩ := psgWrite_completes (k := .c1) (s := s.consume 1) hdual b
    exact ⟨t, (exec_psgw2_byte hdual b).trans ht, by rw [hpc]; rfl, hf⟩
  | ggst1 mm =>
    obtain ⟨b, rfl⟩ := Operand8.exists_byte hw
    obtain ⟨hpc, hf⟩ := setMask_pc_fault .c0 b (s.consume 1)
    exact ⟨_, exec_ggst1_byte b s, by rw [hpc]; rfl, hf⟩
  | ggst2 mm =>
    obtain ⟨b, rfl⟩ := Operand8.exists_byte hw
    have hdual := hd.resolve_right fun h => (h _).2 rfl
    obtain ⟨hpc, hf⟩ := setMask_pc_fault .c1 b (s.consume 1)
    exact ⟨_, exec_ggst2_byte hdual b, by rw [hpc]; rfl, hf⟩
  | wait n =>
    obtain ⟨w, rfl⟩ := Operand16.exists_word hw
    exact ⟨_, exec_wait_word w s, by rw [State.consume_pc, advanceSamples_pc]; rfl,
      by rw [State.consume_fault, advanceSamples_fault]⟩
  | wait60 => exact ⟨_, exec_wait60 s, by rw [advanceSamples_pc]; rfl, advanceSamples_fault _ s⟩
  | wait50 => exact ⟨_, exec_wait50 s, by rw [advanceSamples_pc]; rfl, advanceSamples_fault _ s⟩
  | endMark => exact absurd rfl hne
  | _ => cases hspace

/-- Settles O47: the opcode is consumed by the step, the rest by the command (`exec_completes`). -/
theorem cursorAdvance : Obligations.CursorAdvance := by
  intro s i rest hr hdec hw hne hd
  obtain ⟨hspace, -⟩ := encodeDecodeRoundTrip _ _ _ _ hdec
  obtain ⟨t, ht, hpc, hf⟩ := exec_completes (s := s.consume 1) hspace hw hne hd
  have hfault : s.fault = none := hr.2.1
  refine ⟨t, (step_of_fetch_ok hr hdec).trans ht, ?_, hf.trans hfault⟩
  rw [State.consume_pc] at hpc
  omega

/-! ### What any step can do -/

/-- An opcode that the decoder refuses is the byte at the cursor, and has no handler. -/
theorem fetchInstr_unknownOpcode {s : State} {b : Byte}
    (h : fetchInstr s = .error (.unknownOpcode b)) : registered handlerTable b = false := by
  cases hread : s.region.read s.pc with
  | none =>
    rw [fetchInstr_of_len_le ((Region.read_eq_none _ _).1 hread)] at h
    cases h
  | some op =>
    rw [fetchInstr_of_read hread] at h
    cases decodeCommand_error_eq h
    rw [← Bool.not_eq_true, registered_handlerTable]
    intro hop
    obtain ⟨i, r, hd⟩ := decode_of_isOpcode hop ((s.consume 1).lookahead 2)
    rw [hd] at h
    cases h

/-- Either an opcode without a handler is raised, or something an instruction can do has been done,
from the cursor or from just past the opcode. -/
theorem step_effect {s t : State} (h : step s = .next t) :
    (∃ b, registered handlerTable b = false ∧ t = (s.consume 1).raise (.unknownOpcode b)) ∨
      ∃ m, Effect (s.consume m) t := by
  obtain ⟨-, ⟨-, hend⟩ | ⟨b, hb, ht⟩ | ⟨i, rest, -, hexec⟩⟩ := step_cases h
  · exact Or.inr ⟨0, effect_of_streamEnd hend⟩
  · exact Or.inl ⟨b, fetchInstr_unknownOpcode hb, ht⟩
  · exact Or.inr ⟨1, exec_effect hexec⟩

/-- No effect writes a parameter or the region (R72). -/
theorem Effect.params {s t : State} (h : Effect s t) : t.cfg = s.cfg ∧ t.region = s.region := by
  cases h <;> simp

/-- Every effect appends the events of its samples to the trace and counts them (R169, R170). -/
theorem Effect.trace {s t : State} (h : Effect s t) :
    ∃ n, n ≤ 65535 ∧ t.trace = s.trace ++ sampleEvents s n ∧
      t.samplesPlayed = s.samplesPlayed + BitVec.ofNat 32 n := by
  cases h with
  | waited m n hn =>
    refine ⟨n, hn, ?_, ?_⟩
    · rw [advanceSamples_consume, State.consume_trace, advanceSamples_trace]
    · rw [advanceSamples_samplesPlayed, State.consume_samplesPlayed]
  | _ => exact ⟨0, by simp [sampleEvents]⟩

theorem State.sameRegion_of_eq {s t : State} (hc : t.cfg = s.cfg) (hr : t.region = s.region) :
    s.sameRegion t :=
  ⟨hc, fun _ => by rw [hr]⟩

/-- Settles O48: no effect writes the parameters (`Effect.params`), and no raised error. -/
theorem regionIsReadOnly : Obligations.RegionIsReadOnly := by
  refine ⟨fun i s t h => ?_, fun s t h => ?_⟩
  · obtain ⟨hc, hr⟩ := (exec_effect h).params
    exact State.sameRegion_of_eq hc hr
  · rcases step_effect h with ⟨b, -, rfl⟩ | ⟨m, heff⟩
    · exact State.sameRegion_of_eq rfl rfl
    · obtain ⟨hc, hr⟩ := heff.params
      exact State.sameRegion_of_eq hc hr

/-- Settles O50: every effect appends and counts its events (`Effect.trace`). -/
theorem traceOnlyGrows : Obligations.TraceOnlyGrows := by
  intro s t h
  rcases step_effect h with ⟨b, -, rfl⟩ | ⟨m, heff⟩
  · exact ⟨[], by simp⟩
  · obtain ⟨n, hn, htrace, hcount⟩ := heff.trace
    exact ⟨_, htrace, by simpa using hn, by simpa using hcount⟩

/-! ### Loops -/

/-- The transaction leaves `loops_played` alone. -/
def KeepsLoops (r : State → Result) : Prop :=
  ∀ s t, r s = .next t → t.loopsPlayed = s.loopsPlayed

theorem keepsLoops_next {f : State → State} (h : ∀ s, (f s).loopsPlayed = s.loopsPlayed) :
    KeepsLoops fun s => .next (f s) := by
  intro s t ht
  cases ht
  exact h s

theorem keepsLoops_writeChip (k : ChipId) (f : Config → Chip → Chip) :
    KeepsLoops fun s => writeChip k (f s.cfg (s.chip k)) s := by
  intro s t ht
  simp only [writeChip] at ht
  split at ht <;> cases ht <;> simp

theorem keepsLoops_psgWrite (k : ChipId) (val : Byte) : KeepsLoops (psgWrite k val) := by
  obtain ⟨f, hf⟩ := psgWrite_eq_writeChip k val
  rw [funext hf]
  exact keepsLoops_writeChip k f

theorem keepsLoops_setMask (k : ChipId) (mm : Byte) :
    KeepsLoops fun s => .next (setMask k mm s) := by
  refine keepsLoops_next fun s => ?_
  unfold setMask
  split <;> simp

theorem KeepsLoops.withByte {r : Byte → State → Result} (h : ∀ b, KeepsLoops (r b))
    (o : Operand8) : KeepsLoops fun s => withByte o s r := by
  cases o with
  | byte b => exact fun s t ht => h b (s.consume 1) t ht
  | absent => exact keepsLoops_next fun s => rfl

theorem KeepsLoops.requireDual {r : State → Result} (h : KeepsLoops r) :
    KeepsLoops fun s => requireDual s (r s) := by
  intro s t ht
  simp only [Machine.requireDual] at ht
  split at ht
  · exact h s t ht
  · cases ht
    rfl

/-- No command but `END` touches `loops_played` (R172). -/
theorem exec_keepsLoops {i : Instr} (hspace : i.space = .command) (hne : i ≠ .endMark) :
    KeepsLoops (exec i) := by
  cases i with
  | psgw1 dd => exact KeepsLoops.withByte (keepsLoops_psgWrite .c0) dd
  | psgw2 dd => exact (KeepsLoops.withByte (keepsLoops_psgWrite .c1) dd).requireDual
  | ggst1 mm => exact KeepsLoops.withByte (keepsLoops_setMask .c0) mm
  | ggst2 mm => exact (KeepsLoops.withByte (keepsLoops_setMask .c1) mm).requireDual
  | wait n =>
    cases n with
    | word w => exact keepsLoops_next fun s => advanceSamples_loopsPlayed _ (s.consume 2)
    | absent => exact keepsLoops_next fun s => rfl
    | highAbsent aa => exact keepsLoops_next fun s => rfl
  | wait60 => exact keepsLoops_next (advanceSamples_loopsPlayed 735)
  | wait50 => exact keepsLoops_next (advanceSamples_loopsPlayed 882)
  | endMark => exact absurd rfl hne
  | _ => cases hspace

/-- The stream end counts one loop more, or none where the stream does not loop (R172). -/
theorem streamEnd_cases {s t : State} (h : streamEnd s = .next t) :
    t.loopsPlayed = s.loopsPlayed ∨
      (s.cfg.hasLoop = true ∧ s.cfg.loopLegal = true ∧ t = loopBack s) := by
  cases hl : s.cfg.hasLoop with
  | false =>
    rw [streamEnd_of_not_hasLoop hl] at h
    cases h
    exact Or.inl (finish_loopsPlayed s)
  | true =>
    cases hlegal : s.cfg.loopLegal with
    | false =>
      rw [streamEnd_of_not_loopLegal hl hlegal] at h
      cases h
    | true =>
      rw [streamEnd_of_hasLoop hl hlegal] at h
      cases h
      exact Or.inr ⟨rfl, rfl, rfl⟩

theorem space_of_fetchInstr {s : State} {i : Instr} {rest : List Byte}
    (h : fetchInstr s = .ok (i, rest)) : i.space = .command :=
  (encodeDecodeRoundTrip _ _ _ _ h).1

/-- An `END` is read from its one byte (R81). -/
theorem read_of_fetchInstr_endMark {s : State} {rest : List Byte}
    (h : fetchInstr s = .ok (.endMark, rest)) : s.region.read s.pc = some 0x66 := by
  cases hread : s.region.read s.pc with
  | none =>
    rw [fetchInstr_of_len_le ((Region.read_eq_none _ _).1 hread)] at h
    cases h
  | some b =>
    rw [fetchInstr_of_read hread] at h
    obtain ⟨-, hbytes⟩ := encodeDecodeRoundTrip _ _ _ _ h
    exact congrArg some (List.cons.inj hbytes).1.symm

/-- A step that changes `loops_played` is the loop of a stream end, at an `END` or at the end of data. -/
theorem step_loops {s t : State} (h : step s = .next t) :
    t.loopsPlayed = s.loopsPlayed ∨
      ((s.region.read s.pc = none ∨ s.region.read s.pc = some 0x66) ∧ s.cfg.hasLoop = true ∧
        s.cfg.loopLegal = true ∧ ∃ m, t = loopBack (s.consume m)) := by
  obtain ⟨-, ⟨hfetch, hend⟩ | ⟨b, -, rfl⟩ | ⟨i, rest, hfetch, hexec⟩⟩ := step_cases h
  · refine (streamEnd_cases hend).imp_right fun ⟨hl, hlegal, ht⟩ => ⟨Or.inl ?_, hl, hlegal, 0, ht⟩
    cases hread : s.region.read s.pc with
    | none => rfl
    | some b =>
      rw [fetchInstr_of_read hread] at hfetch
      cases decodeCommand_error_eq hfetch
  · exact Or.inl rfl
  · by_cases hi : i = .endMark
    · subst hi
      exact (streamEnd_cases hexec).imp_right fun ⟨hl, hlegal, ht⟩ =>
        ⟨Or.inr (read_of_fetchInstr_endMark hfetch), hl, hlegal, 1, ht⟩
    · exact Or.inl (exec_keepsLoops (space_of_fetchInstr hfetch) hi (s.consume 1) t hexec)

/-- Settles O49: the loop of `step_loops`, whose target is `loopTarget_add`. -/
theorem loopsOnlyAtStreamEnd : Obligations.LoopsOnlyAtStreamEnd := by
  intro s t h
  refine (step_loops h).imp_right ?_
  rintro ⟨hread, hl, hlegal, m, rfl⟩
  exact ⟨hl, rfl, loopTarget_add hl hlegal, rfl, rfl, rfl, hread⟩

end Sys2Proof.Machine
end

section
/-!
PROOFS: the invariants of Safety.lean. Each is kept by every effect an instruction can have
(`step_effect`), a wait by induction over its samples; construction establishes both.
-/

namespace Sys2Proof.Machine

/-! ### The numbering of the trace -/

theorem State.traceOk.of_eq {s t : State} (h : s.traceOk) (hc : t.cfg = s.cfg)
    (hn : t.samplesPlayed = s.samplesPlayed) (ht : t.trace = s.trace) : t.traceOk := by
  rw [State.traceOk, hc, hn, ht]
  exact h

theorem traceOk_oneSample {s : State} (h : s.traceOk) : (oneSample s).traceOk := by
  obtain ⟨hcount, hevents⟩ := h
  have hnext : s.samplesPlayed + 1 = BitVec.ofNat 32 (s.trace.length + 1) := by
    rw [hcount, BitVec.ofNat_add]
    rfl
  refine ⟨?_, fun j e he => ?_⟩
  · rw [oneSample_samplesPlayed, oneSample_trace, List.length_append]
    exact hnext
  · rw [oneSample_trace] at he
    rw [oneSample_cfg]
    rcases Nat.lt_or_ge j s.trace.length with hj | hj
    · exact hevents j e (by rwa [List.getElem?_append_left hj] at he)
    · rw [List.getElem?_append_right hj, List.getElem?_singleton] at he
      split at he
      · next hlast =>
        cases he
        refine ⟨?_, ?_, ?_⟩
        · rw [show j = s.trace.length by omega]
          exact (oneSample_samplesPlayed s).trans hnext
        · exact (leftChannels_length _).trans (by rw [oneSample_cfg])
        · exact (rightChannels_length _).trans (by rw [oneSample_cfg])
      · cases he

/-- Only a wait writes what the trace is numbered by. -/
theorem Effect.traceOk {s t : State} (h : Effect s t) (hs : s.traceOk) : t.traceOk := by
  cases h with
  | waited m n hn =>
    exact advanceSamples_induct (P := State.traceOk) (fun _ => traceOk_oneSample) n (s.consume m)
      (State.traceOk.of_eq hs rfl rfl rfl)
  | raised n e he => exact hs.of_eq rfl rfl rfl
  | wrote n k c hk hc => exact hs.of_eq (by simp) (by simp) (by simp)
  | masked k mm hk hg => exact hs.of_eq (by simp) (by simp) (by simp)
  | discarded hg => exact hs.of_eq rfl rfl rfl
  | finished hl => exact hs.of_eq rfl rfl rfl
  | looped hl hlegal => exact hs.of_eq rfl rfl rfl

/-- Settles O52: the effects of a step (`step_effect`) keep the numbering (`Effect.traceOk`). -/
theorem stepKeepsTraceNumbering : Obligations.StepKeepsTraceNumbering := by
  intro s t hs h
  rcases step_effect h with ⟨b, -, rfl⟩ | ⟨m, heff⟩
  · exact hs.of_eq rfl rfl rfl
  · exact heff.traceOk (hs.of_eq rfl rfl rfl)

/-! ### One chip -/

section
variable {cfg : Config} (hl : cfg.legal = true)
include hl

/-- In periodic mode a shift moves the one bit of the seed, wherever it stands (R129 (a)). -/
theorem Chip.oneHotOk_advance {c : Chip} (h : c.oneHotOk cfg) : (c.advance cfg).oneHotOk cfg := by
  obtain ⟨h1, h16⟩ := Config.legal_width hl
  intro hmode
  rw [Chip.advance_noiseMode] at hmode
  obtain ⟨j, hj, hseed⟩ := h hmode
  rw [Chip.advance_noiseSeed, hmode, hseed]
  split
  · exact ⟨_, by split <;> omega, lfsrStep_periodic_oneHot h16 hj⟩
  · exact ⟨j, hj, rfl⟩

theorem Chip.seedOk_advance {c : Chip} (h : c.seedOk cfg) : (c.advance cfg).seedOk cfg := by
  obtain ⟨h1, h16⟩ := Config.legal_width hl
  rw [Chip.seedOk, Chip.advance_noiseSeed]
  split
  · exact lfsrStep_lt h1 h16 h _
  · exact h

/-- A sample keeps the invariant of a chip. -/
theorem Chip.Inv.advance {c : Chip} (h : c.Inv cfg) : (c.advance cfg).Inv cfg := by
  obtain ⟨-, hseed, hone, hfreq, ⟨h0, h1, h2⟩, -⟩ := h
  refine ⟨Chip.advance_fractionOk cfg c, Chip.seedOk_advance hl hseed, Chip.oneHotOk_advance hl hone,
    ?_, ⟨?_, ?_, ?_⟩, Chip.advance_channels_atMostOne hl c⟩
  · simpa [Chip.noiseFreqOk] using hfreq
  · exact (congrArg Tone.mute (Chip.advance_tone cfg c .t0)).trans (by simpa using h0)
  · exact (congrArg Tone.mute (Chip.advance_tone cfg c .t1)).trans (by simpa using h1)
  · exact (congrArg Tone.mute (Chip.advance_tone cfg c .t2)).trans (by simpa using h2)

/-- The reload value has one bit set, the top one of the width (R32, R104). -/
theorem seedReload_ok : (seedReload cfg).toNat < 2 ^ cfg.width ∧
    ∃ j, j < cfg.width ∧ seedReload cfg = BitVec.ofNat 16 (2 ^ j) := by
  obtain ⟨h1, h16⟩ := Config.legal_width hl
  refine ⟨?_, cfg.width - 1, by omega, seedReload_eq_ofNat cfg⟩
  rw [seedReload_toNat hl]
  exact Nat.pow_lt_pow_right (by decide) (by omega)

/-- The registers a noise control write leaves (R104). -/
theorem Chip.writeNoiseControl_ok (c : Chip) (d : BitVec 4) :
    (c.writeNoiseControl cfg d).seedOk cfg ∧ (c.writeNoiseControl cfg d).oneHotOk cfg ∧
      (c.writeNoiseControl cfg d).noiseFreqOk := by
  obtain ⟨hlt, hone⟩ := seedReload_ok hl
  refine ⟨hlt, fun _ => hone, ?_⟩
  rw [Chip.writeNoiseControl_eq]
  have hf := c.tone2.freq.isLt
  have hd := Nat.mod_lt d.toNat (by decide : 0 < 4)
  unfold Chip.noiseFreqOk
  by_cases h3 : d.toNat % 4 = 3
  · simp only [h3, decide_true, if_true, Chip.withSeed_noiseRef, Chip.withSeed_noiseFreq,
      Chip.withNoiseControl_noiseRef, Chip.withNoiseControl_noiseFreq, BitVec.toNat_ofNat]
    omega
  · simp only [h3, decide_false, if_false, Bool.false_eq_true, Chip.withSeed_noiseRef,
      Chip.withSeed_noiseFreq, Chip.withNoiseControl_noiseRef, Chip.withNoiseControl_noiseFreq]
    rcases (by omega : d.toNat % 4 = 0 ∨ d.toNat % 4 = 1 ∨ d.toNat % 4 = 2) with h | h | h
    · rw [h]; exact Or.inl rfl
    · rw [h]; exact Or.inr (Or.inl rfl)
    · rw [h]; exact Or.inr (Or.inr rfl)

/-- A register write keeps the invariant of a chip: it keeps the generators, and the noise registers
too unless it is a noise control write. -/
theorem ChipWrite.inv {c c' : Chip} (hw : ChipWrite cfg c c') (h : c.Inv cfg) : c'.Inv cfg := by
  obtain ⟨hfrac, hseed, hone, hfreq, ⟨h0, h1, h2⟩, hchan⟩ := h
  obtain ⟨htone, -, hbase, hchannels⟩ := hw.sameGenerators
  have hnoise : c'.seedOk cfg ∧ c'.oneHotOk cfg ∧ c'.noiseFreqOk := by
    rcases hw.noise_cases with ⟨d, rfl⟩ | ⟨es, em, er, ef⟩
    · exact Chip.writeNoiseControl_ok hl _ d
    · rw [Chip.seedOk, Chip.oneHotOk, Chip.noiseFreqOk, es, em, er, ef]
      exact ⟨hseed, hone, hfreq⟩
  obtain ⟨hseed', hone', hfreq'⟩ := hnoise
  refine ⟨?_, hseed', hone', hfreq', ⟨?_, ?_, ?_⟩, ?_⟩
  · rwa [Chip.fractionOk, hbase]
  · exact (htone .t0).2.2.trans h0
  · exact (htone .t1).2.2.trans h1
  · exact (htone .t2).2.2.trans h2
  · rwa [hchannels]

end

/-! ### The outputs -/

theorem gated_atMostOne {v : F32} (h : f32AtMostOne v) (b : Bool) : f32AtMostOne (gated b v) := by
  cases b with
  | true => exact h
  | false => exact f32AtMostOne_zero

theorem gatedQuad_atMostOne {q : Quad} (h : q.atMostOne) (mask : Byte) (lo : Nat) :
    (gatedQuad mask lo q).atMostOne := by
  obtain ⟨h0, h1, h2, h3⟩ := h
  exact ⟨gated_atMostOne h0 _, gated_atMostOne h1 _, gated_atMostOne h2 _, gated_atMostOne h3 _⟩

/-- Both sides of a port hold values of magnitude at most 1.0. -/
def Port.sidesOk (p : Port) : Prop := p.left.atMostOne ∧ p.right.atMostOne

/-- What the invariant says of chip `k` and its port. -/
def State.partOk (s : State) (k : ChipId) : Prop :=
  (s.chip k).Inv s.cfg ∧ (s.port k).sidesOk ∧
    (s.cfg.ggStereoOff = true → (s.port k).ggStereo = 0xFF) ∧
    (s.present k = false → s.chip k = Chip.reset s.cfg ∧ s.port k = Port.reset)

/-- The invariant, chip by chip. -/
theorem State.inv_iff (s : State) :
    s.Inv ↔ s.cfg.legal = true ∧ s.region.wf = true ∧ s.loopOk ∧ s.faultOk ∧ ∀ k, s.partOk k := by
  constructor
  · rintro ⟨hlegal, hwf, h0, h1, hmask, hloop, hfault, ⟨hl0, hr0, hl1, hr1⟩, hsingle⟩
    refine ⟨hlegal, hwf, hloop, hfault, fun k => ?_⟩
    cases k with
    | c0 => exact ⟨h0, ⟨hl0, hr0⟩, fun hg => (hmask hg).1, nofun⟩
    | c1 => exact ⟨h1, ⟨hl1, hr1⟩, fun hg => (hmask hg).2, hsingle⟩
  · rintro ⟨hlegal, hwf, hloop, hfault, hk⟩
    obtain ⟨h0, ⟨hl0, hr0⟩, hm0, -⟩ := hk .c0
    obtain ⟨h1, ⟨hl1, hr1⟩, hm1, hsingle⟩ := hk .c1
    exact ⟨hlegal, hwf, h0, h1, fun hg => ⟨hm0 hg, hm1 hg⟩, hloop, hfault, ⟨hl0, hr0, hl1, hr1⟩,
      hsingle⟩

/-! ### Keeping the invariant -/

theorem State.present_of_cfg {s t : State} (hc : t.cfg = s.cfg) (k : ChipId) :
    t.present k = s.present k := by
  cases k with
  | c0 => rfl
  | c1 => exact congrArg Config.dual hc

theorem State.partOk.of_eq {s t : State} {k : ChipId} (h : s.partOk k) (hc : t.cfg = s.cfg)
    (hchip : t.chip k = s.chip k) (hport : t.port k = s.port k) : t.partOk k := by
  rw [State.partOk, hc, hchip, hport, State.present_of_cfg hc]
  exact h

theorem State.loopOk.of_eq {s t : State} (h : s.loopOk) (hc : t.cfg = s.cfg)
    (he : t.endOfStream = s.endOfStream) (hl : t.loopsPlayed = s.loopsPlayed)
    (hp : t.position = s.position) (hn : t.samplesPlayed = s.samplesPlayed) : t.loopOk := by
  rw [State.loopOk, hc, he, hl, hp, hn]
  exact h

theorem State.faultOk.of_eq {s t : State} (h : s.faultOk) (hc : t.cfg = s.cfg)
    (hf : t.fault = s.fault) : t.faultOk := by
  rw [State.faultOk, hc, hf]
  exact h

/-- The invariant of a state with the same parameters, from its parts. -/
theorem State.Inv.of_parts {s t : State} (h : s.Inv) (hc : t.cfg = s.cfg)
    (hr : t.region = s.region) (hloop : s.loopOk → t.loopOk) (hfault : s.faultOk → t.faultOk)
    (hpart : ∀ k, s.partOk k → t.partOk k) : t.Inv := by
  obtain ⟨hlegal, hwf, hl, hf, hk⟩ := s.inv_iff.1 h
  exact t.inv_iff.2 ⟨by rwa [hc], by rwa [hr], hloop hl, hfault hf, fun k => hpart k (hk k)⟩

theorem State.Inv.legal {s : State} (h : s.Inv) : s.cfg.legal = true := (s.inv_iff.1 h).1

theorem State.Inv.consume {s : State} (h : s.Inv) (n : Nat) : (s.consume n).Inv :=
  h.of_parts rfl rfl (fun hl => hl.of_eq rfl rfl rfl rfl rfl) (fun hf => hf.of_eq rfl rfl)
    fun k hk => hk.of_eq rfl (State.chip_consume s n k) (State.port_consume s n k)

theorem State.Inv.raise {s : State} (h : s.Inv) {e : Error} (he : (s.raise e).faultOk) :
    (s.raise e).Inv :=
  h.of_parts rfl rfl (fun hl => hl.of_eq rfl rfl rfl rfl rfl) (fun _ => he)
    fun k hk => hk.of_eq rfl (State.chip_raise s e k) (State.port_raise s e k)

theorem State.Inv.setChip {s : State} (h : s.Inv) {k : ChipId} {c : Chip} (hp : s.present k = true)
    (hc : (s.chip k).Inv s.cfg → c.Inv s.cfg) : (s.setChip k c).Inv := by
  refine h.of_parts (by simp) (by simp)
    (fun hl => hl.of_eq (by simp) (by simp) (by simp) (by simp) (by simp))
    (fun hf => hf.of_eq (by simp) (by simp)) fun j hj => ?_
  by_cases hjk : j = k
  · subst hjk
    obtain ⟨hinv, hsides, hmask, -⟩ := hj
    refine ⟨?_, ?_, ?_, ?_⟩
    · simpa using hc hinv
    · simpa using hsides
    · simpa using hmask
    · rw [State.present_of_cfg (State.setChip_cfg s j c), hp]
      nofun
  · exact hj.of_eq (by simp) (State.chip_setChip_other s hjk c) (by simp)

theorem State.Inv.setPort_withMask {s : State} (h : s.Inv) {k : ChipId} (hp : s.present k = true)
    (hg : s.cfg.ggStereoOff = false) (mm : Byte) :
    (s.setPort k ((s.port k).withMask mm)).Inv := by
  refine h.of_parts (by simp) (by simp)
    (fun hl => hl.of_eq (by simp) (by simp) (by simp) (by simp) (by simp))
    (fun hf => hf.of_eq (by simp) (by simp)) fun j hj => ?_
  by_cases hjk : j = k
  · subst hjk
    obtain ⟨hinv, hsides, -, -⟩ := hj
    refine ⟨?_, ?_, ?_, ?_⟩
    · simpa using hinv
    · simpa [Port.sidesOk] using hsides
    · rw [State.setPort_cfg, hg]
      nofun
    · rw [State.present_of_cfg (State.setPort_cfg s j _), hp]
      nofun
  · exact hj.of_eq (by simp) (by simp) (State.port_setPort_other s hjk _)

/-- A sample advances a chip that exists and gates it, and leaves a missing one in reset state. -/
theorem State.partOk.oneSample {s : State} {k : ChipId} (hl : s.cfg.legal = true)
    (h : s.partOk k) : (oneSample s).partOk k := by
  obtain ⟨hchip, hport⟩ := oneSample_chip k s
  cases hp : s.present k with
  | false =>
    exact h.of_eq (oneSample_cfg s) (by rw [hchip, if_neg (by rw [hp]; decide)])
      (by rw [hport, if_neg (by rw [hp]; decide)])
  | true =>
    obtain ⟨hinv, -, hmask, -⟩ := h
    rw [if_pos hp] at hchip hport
    have hout := Chip.advance_channels_atMostOne hl (s.chip k)
    rw [State.partOk, hchip, hport, oneSample_cfg, State.present_of_cfg (oneSample_cfg s), hp]
    exact ⟨hinv.advance hl, ⟨gatedQuad_atMostOne hout _ _, gatedQuad_atMostOne hout _ _⟩, hmask,
      nofun⟩

/-- Both counters count a sample, so a stream without a loop keeps them equal (R175 (1)). -/
theorem State.loopOk.oneSample {s : State} (h : s.loopOk) : (oneSample s).loopOk := by
  rw [State.loopOk, oneSample_cfg, oneSample_endOfStream, oneSample_loopsPlayed,
    oneSample_position, oneSample_samplesPlayed]
  unfold State.loopOk at h
  split at h
  · rwa [if_pos ‹_›]
  · rw [if_neg ‹_›]
    exact ⟨h.1, by rw [h.2]⟩

theorem State.Inv.oneSample {s : State} (h : s.Inv) : (oneSample s).Inv :=
  h.of_parts (oneSample_cfg s) (oneSample_region s) State.loopOk.oneSample
    (fun hf => hf.of_eq (oneSample_cfg s) (oneSample_fault s))
    fun _ hk => hk.oneSample h.legal

theorem State.Inv.finish {s : State} (h : s.Inv) (hl : s.cfg.hasLoop = false) : (finish s).Inv := by
  refine h.of_parts rfl rfl (fun hloop => ?_) (fun hf => hf.of_eq rfl rfl)
    fun k hk => hk.of_eq rfl (by cases k <;> rfl) (by cases k <;> rfl)
  have hno : ¬ s.cfg.hasLoop = true := by rw [hl]; decide
  rw [State.loopOk, if_neg hno] at hloop
  rwa [State.loopOk, finish_cfg, if_neg hno]

theorem State.Inv.loopBack {s : State} (h : s.Inv) (hl : s.cfg.hasLoop = true) :
    (loopBack s).Inv := by
  refine h.of_parts rfl rfl (fun hloop => ?_) (fun hf => hf.of_eq rfl rfl)
    fun k hk => hk.of_eq rfl (by cases k <;> rfl) (by cases k <;> rfl)
  rw [State.loopOk, if_pos hl] at hloop
  rwa [State.loopOk, loopBack_cfg, if_pos hl]

/-- Every effect of an instruction keeps the invariant. -/
theorem Effect.inv {s t : State} (heff : Effect s t) (h : s.Inv) : t.Inv := by
  cases heff with
  | raised n e he =>
    refine (h.consume n).raise ?_
    rcases he with rfl | rfl | ⟨rfl, hd⟩
    · trivial
    · trivial
    · exact hd
  | wrote n k c hk hw =>
    exact (h.consume n).setChip (by simpa using hk) fun hc => hw.inv h.legal (by simpa using hc)
  | masked k mm hk hg =>
    simpa using (h.consume 1).setPort_withMask (k := k) (by simpa using hk) hg mm
  | discarded hg => exact h.consume 1
  | waited m n hn =>
    exact advanceSamples_induct (P := State.Inv) (fun _ => State.Inv.oneSample) n (s.consume m)
      (h.consume m)
  | finished hl => exact h.finish hl
  | looped hl hlegal => exact h.loopBack hl

/-- Settles O51: what a step does (`step_effect`) is an error that may be held in `fault`, or an
effect, which keeps the invariant (`Effect.inv`). -/
theorem stepKeepsInvariant : Obligations.StepKeepsInvariant := by
  intro s t hs h
  rcases step_effect h with ⟨b, hb, rfl⟩ | ⟨m, heff⟩
  · exact (hs.consume 1).raise hb
  · exact heff.inv (hs.consume m)

/-! ### Construction -/

/-- A construction that completes has legal parameters, and is the initial state. -/
theorem construct_eq_next {c : Config} {r : Region} {s : State} (h : construct c r = .next s) :
    c.legal = true ∧ s = State.initial c r := by
  unfold construct at h
  cases hstop : configStop c with
  | some stop =>
    rw [hstop] at h
    exact absurd h (configStop_not_next hstop)
  | none =>
    rw [hstop] at h
    cases h
    exact ⟨(configStop_none c).1 hstop, rfl⟩

theorem Quad.zero_atMostOne : Quad.zero.atMostOne :=
  ⟨f32AtMostOne_zero, f32AtMostOne_zero, f32AtMostOne_zero, f32AtMostOne_zero⟩

theorem Chip.reset_inv {c : Config} (hl : c.legal = true) : (Chip.reset c).Inv c := by
  obtain ⟨hlt, hone⟩ := seedReload_ok hl
  exact ⟨Nat.two_pow_pos 24, hlt, fun _ => hone, Or.inl rfl, ⟨rfl, rfl, rfl⟩, Quad.zero_atMostOne⟩

/-- Both chips start alike, present or not (R51, log 5). -/
theorem State.initial_chip (c : Config) (r : Region) (k : ChipId) :
    (State.initial c r).chip k = Chip.reset c ∧ (State.initial c r).port k = Port.reset := by
  cases k <;> exact ⟨rfl, rfl⟩

theorem State.initial_inv {c : Config} {r : Region} (hl : c.legal = true) (hr : r.wf = true) :
    (State.initial c r).Inv := by
  refine (State.inv_iff _).2 ⟨hl, hr, ?_, trivial, fun k => ?_⟩
  · unfold State.loopOk
    split
    · rfl
    · exact ⟨rfl, rfl⟩
  · obtain ⟨hchip, hport⟩ := State.initial_chip c r k
    rw [State.partOk, hchip, hport]
    exact ⟨Chip.reset_inv hl, ⟨Quad.zero_atMostOne, Quad.zero_atMostOne⟩, fun _ => rfl,
      fun _ => ⟨rfl, rfl⟩⟩

theorem State.initial_traceOk (c : Config) (r : Region) : (State.initial c r).traceOk :=
  ⟨rfl, nofun⟩

/-- Settles O53: a construction that completes gives the initial state (`construct_eq_next`), over a
canonical region (`Region.ofBytes_wf`). -/
theorem resetMeetsInvariants : Obligations.ResetMeetsInvariants := by
  refine ⟨fun c bs s h => ?_, rfl⟩
  obtain ⟨hl, rfl⟩ := construct_eq_next h
  exact ⟨State.initial_inv hl (Region.ofBytes_wf bs), State.initial_traceOk c _⟩

/-- Settles O55: the fields of the initial state; its seed is the reload value (`seedReload_toNat`). -/
theorem stateAfterConstruction : Obligations.StateAfterConstruction := by
  intro c r s h
  obtain ⟨hl, rfl⟩ := construct_eq_next h
  have hseed := seedReload_toNat hl
  refine ⟨rfl, rfl, rfl, rfl, rfl, rfl, rfl, rfl, rfl, fun k => ?_⟩
  obtain ⟨hchip, hport⟩ := State.initial_chip c r k
  rw [hchip, hport]
  exact ⟨rfl, rfl, rfl, hseed, rfl, rfl, rfl, rfl, rfl, rfl, rfl, rfl, fun i => by cases i <;> rfl⟩

end Sys2Proof.Machine
end

section
/-!
PROOFS, family 70_reset_and_hazards: installation (R171, R207, R251) and the host's calls.
-/

namespace Sys2Proof.Machine

theorem install_of_started {d : Setup} (h : d.started = true) (e : Handle) :
    install e d = .refused .lateInstall := if_pos h

/-- Before the first `next()` a registered opcode of the handle is answered with one such (R207). -/
theorem install_of_duplicate {h : Handle} {d : Setup} (hs : d.started = false)
    (hdup : ∃ e ∈ h.entries, registered d.handlers e.1 = true) :
    ∃ e ∈ h.entries, registered d.handlers e.1 = true ∧
      install h d = .fault (.duplicateHandler e.1) := by
  have hstart : ¬ d.started = true := by rw [hs]; decide
  cases hf : h.entries.find? fun e => registered d.handlers e.1 with
  | none =>
    obtain ⟨e, he, hreg⟩ := hdup
    exact absurd hreg (List.find?_eq_none.1 hf e he)
  | some e =>
    have hreg : registered d.handlers e.1 = true := by simpa using List.find?_some hf
    refine ⟨e, List.mem_of_find?_eq_some hf, hreg, ?_⟩
    simp only [install, if_neg hstart, hf]

theorem registered_append (t u : HandlerTable) (b : Byte) :
    registered (t ++ u) b = true ↔ registered t b = true ∨ registered u b = true := by
  simp [registered]

/-- After a completed `next()` the setup is the old one, started (R171, R251). -/
theorem hostCall_next_started {b b' : Session} (h : hostCall .next b = .next b') :
    step b.state = .next b'.state ∧ b'.setup = b.setup.start := by
  obtain ⟨-, hstep, hsetup⟩ := (Session.next_next b b').1 h
  exact ⟨hstep, hsetup⟩

theorem hostCall_install_of_started {b : Session} (h : b.setup.started = true) (e : Handle) :
    hostCall (.install e) b = .refused .lateInstall := by
  simp only [hostCall, Session.install, install_of_started h]

theorem hostCall_install_next {h : Handle} {b b' : Session}
    (hn : hostCall (.install h) b = .next b') :
    b'.state = b.state ∧ install h b.setup = .next b'.setup := by
  simp only [hostCall, Session.install] at hn
  cases hi : install h b.setup with
  | next d =>
    rw [hi] at hn
    cases hn
    exact ⟨rfl, rfl⟩
  | fault f => rw [hi] at hn; cases hn
  | refused r => rw [hi] at hn; cases hn

/-- Settles O56: the three answers of `install` (`install_of_duplicate`, `install_next`,
`install_of_started`), and the host's calls in terms of them. -/
theorem installDuplicates : Obligations.InstallDuplicates := by
  intro h d
  refine ⟨fun hs => ⟨install_of_duplicate hs, fun hfree => ?_⟩, fun hs => install_of_started hs h,
    rfl, rfl, fun b b' => ⟨fun hn => ?_, hostCall_install_next, fun t he ht => ?_⟩⟩
  · exact ⟨d.add h, (install_next h d _).2 ⟨hs, hfree, rfl⟩, rfl, hs,
      registered_append d.handlers h.entries⟩
  · obtain ⟨hstep, hsetup⟩ := hostCall_next_started hn
    rw [hsetup]
    exact ⟨hstep, rfl, rfl, rfl, hostCall_install_of_started (by rw [hsetup]; rfl) h⟩
  · exact (Session.next_next b _).2 ⟨he, ht, rfl⟩

end Sys2Proof.Machine
end

section
/-!
PROOFS, family 44_mixing: the arithmetic. An addition and a division by a power of two round an exact
integer once, by dropping low bits of it (`roundDrop`); how far that can go and when it changes nothing
is said of `roundDrop` alone (R12, R194).
-/

namespace Sys2Proof.Machine

/-! ### Rounding an exact value -/

/-- A value rounded to a multiple of 2^`d`: to nearest, ties to even, by its magnitude. -/
def roundDrop (d : Nat) (z : Int) : Int :=
  if z < 0 then -((roundEven z.natAbs d * 2 ^ d : Nat) : Int)
  else ((roundEven z.natAbs d * 2 ^ d : Nat) : Int)

theorem roundBits_eq_roundDrop (bits : Nat) (z : Int) :
    roundBits bits z = roundDrop (Nat.log2 z.natAbs + 1 - bits) z := rfl

theorem roundDrop_natAbs (d : Nat) (z : Int) :
    (roundDrop d z).natAbs = roundEven z.natAbs d * 2 ^ d := by
  unfold roundDrop
  split <;> omega

theorem roundDrop_error (d : Nat) (z : Int) : 2 * (roundDrop d z - z).natAbs ≤ 2 ^ d := by
  have herr := roundEven_error z.natAbs d
  unfold roundDrop
  generalize roundEven z.natAbs d * 2 ^ d = r at *
  split <;> omega

theorem roundDrop_of_dvd {d : Nat} {z : Int} (h : 2 ^ d ∣ z.natAbs) : roundDrop d z = z := by
  have hr := roundEven_of_dvd h
  unfold roundDrop
  rw [hr]
  split <;> omega

/-- Rounding does not pass a multiple of 2^`d`. -/
theorem roundDrop_natAbs_le {d n : Nat} {z : Int} (h : z.natAbs ≤ n * 2 ^ d) :
    (roundDrop d z).natAbs ≤ n * 2 ^ d := by
  rw [roundDrop_natAbs]
  exact Nat.mul_le_mul_right _ (roundEven_le h)

/-- A signed magnitude. -/
theorem roundDrop_signed (d : Nat) (neg : Bool) (m : Nat) :
    roundDrop d (if neg then -(m : Int) else m) =
      if neg then -((roundEven m d * 2 ^ d : Nat) : Int)
      else ((roundEven m d * 2 ^ d : Nat) : Int) := by
  have hzero : roundEven 0 d * 2 ^ d = 0 := roundEven_of_dvd (dvd_zero _)
  unfold roundDrop
  rcases Nat.eq_zero_or_pos m with rfl | hm
  · cases neg <;> simp [hzero]
  · have hneg : -(m : Int) < 0 := by omega
    have hpos : ¬ (m : Int) < 0 := by omega
    cases neg <;> simp [hm]

/-! ### The value of a rounded pattern -/

theorem shift_le_f32Drop (m shift : Nat) : shift ≤ f32Drop m shift := le_max_left _ _

/-- How many bits are dropped of a magnitude below 2^`b`. -/
theorem f32Drop_le {m b shift : Nat} (h : m < 2 ^ b) (hb : 0 < b) :
    f32Drop m shift ≤ max shift (b - 24) := by
  have hlog := log2_lt_of_le h hb
  unfold f32Drop
  omega

/-- The pattern of a rounded magnitude with a sign, times what it was divided by (R12, R194). -/
theorem withSign_roundF32_value (neg : Bool) {m shift : Nat} (h : m < 2 ^ (276 + shift)) :
    f32Finite (withSign neg (roundF32 m shift)) = true ∧
      f32Units (withSign neg (roundF32 m shift)) * 2 ^ shift =
        roundDrop (f32Drop m shift) (if neg then -(m : Int) else m) := by
  obtain ⟨hmag, hfin, hlt⟩ := roundF32_value m shift h
  obtain ⟨hexp, hfrac, hneg⟩ := withSign_fields neg _ hlt
  have hmag' : f32Mag (withSign neg (roundF32 m shift)) * 2 ^ shift =
      roundEven m (f32Drop m shift) * 2 ^ f32Drop m shift := by
    have heq : f32Mag (withSign neg (roundF32 m shift)) =
        f32Mag (BitVec.ofNat 32 (roundF32 m shift)) := by
      unfold f32Mag
      rw [hexp, hfrac]
    rw [heq, hmag, Nat.mul_assoc, ← pow_add, Nat.sub_add_cancel (shift_le_f32Drop m shift)]
  refine ⟨?_, ?_⟩
  · unfold f32Finite at hfin ⊢
    rwa [hexp]
  · rw [roundDrop_signed, f32Units, hneg, ← hmag']
    cases neg <;> simp

theorem f32OfUnits_units {z : Int} {shift : Nat} (h : z.natAbs < 2 ^ (276 + shift)) :
    f32Finite (f32OfUnits z shift) = true ∧
      f32Units (f32OfUnits z shift) * 2 ^ shift = roundDrop (f32Drop z.natAbs shift) z := by
  have hv := withSign_roundF32_value (decide (z < 0)) h
  have hz : (if decide (z < 0) = true then -(z.natAbs : Int) else z.natAbs) = z := by
    by_cases hneg : z < 0
    · simp only [hneg, decide_true, if_true]
      omega
    · simp only [hneg, decide_false, Bool.false_eq_true, if_false]
      omega
  rwa [hz] at hv

/-! ### Addition -/

theorem withSign_zero (neg : Bool) :
    f32Finite (withSign neg 0) = true ∧ f32Units (withSign neg 0) = 0 := by
  cases neg <;> exact ⟨rfl, rfl⟩

/-- Binary32 addition rounds the exact sum to 24 bits (R12). -/
theorem f32Add_units {x y : F32} (hx : f32Finite x = true) (hy : f32Finite y = true)
    (h : (f32Units x + f32Units y).natAbs < 2 ^ 276) :
    f32Finite (f32Add x y) = true ∧
      f32Units (f32Add x y) =
        roundDrop (f32Drop (f32Units x + f32Units y).natAbs 0) (f32Units x + f32Units y) := by
  have hboth : (f32Finite x && f32Finite y) = true := by rw [hx, hy]; rfl
  rw [f32Add, if_pos hboth]
  dsimp only
  by_cases hz : f32Units x + f32Units y = 0
  · obtain ⟨hfin, hunits⟩ := withSign_zero (f32Neg x && f32Neg y)
    rw [if_pos hz, hz, hunits]
    exact ⟨hfin, (roundDrop_of_dvd (dvd_zero _)).symm⟩
  · obtain ⟨hfin, hunits⟩ := f32OfUnits_units (shift := 0) h
    rw [if_neg hz]
    exact ⟨hfin, by simpa [f32OfUnits] using hunits⟩

/-- Settles O57: the sum is `roundDrop` of the exact sum (`f32Add_units`), off by half a unit at most
(`roundDrop_error`). -/
theorem additionRoundsOnce : Obligations.AdditionRoundsOnce := by
  intro x y hx hy z hz
  obtain ⟨hfin, hunits⟩ := f32Add_units hx hy hz
  exact ⟨hfin, by rw [hunits]; exact roundDrop_error _ z⟩

/-! ### Division -/

theorem f32Exp_lt (x : F32) : f32Exp x < 256 := (x.extractLsb' 23 8).isLt

theorem f32Frac_lt (x : F32) : f32Frac x < 2 ^ 23 := (x.extractLsb' 0 23).isLt

theorem f32Mag_subnormal {x : F32} (h : f32Exp x = 0) : f32Mag x = f32Frac x := if_pos h

theorem f32Mag_normal {x : F32} (h : f32Exp x ≠ 0) :
    f32Mag x = (2 ^ 23 + f32Frac x) * 2 ^ (f32Exp x - 1) := if_neg h

/-- A magnitude lies in the binade of its exponent field. -/
theorem f32Mag_lt (x : F32) : f32Mag x < 2 ^ (f32Exp x - 1 + 24) := by
  have hfrac := f32Frac_lt x
  by_cases h : f32Exp x = 0
  · rw [f32Mag_subnormal h, h]
    omega
  · rw [f32Mag_normal h, pow_add, Nat.mul_comm]
    exact Nat.mul_lt_mul_of_pos_left (by omega) (Nat.two_pow_pos _)

/-- No quotient of a finite value by 2 or more overflows. -/
theorem f32Mag_lt_of_finite {x : F32} (h : f32Finite x = true) {k : Nat} (hk : 1 ≤ k) :
    f32Mag x < 2 ^ (276 + k) := by
  have hexp := f32Exp_lt x
  have hne : f32Exp x ≠ 255 := by simpa [f32Finite] using h
  exact lt_of_lt_of_le (f32Mag_lt x) (Nat.pow_le_pow_right (by decide) (by omega))

/-- A magnitude has at most 24 significant bits. -/
theorem two_pow_dvd_f32Mag (x : F32) : 2 ^ (Nat.log2 (f32Mag x) + 1 - 24) ∣ f32Mag x := by
  have hlog := log2_lt_of_le (f32Mag_lt x) (by omega)
  by_cases h : f32Exp x = 0
  · rw [show Nat.log2 (f32Mag x) + 1 - 24 = 0 by omega]
    exact one_dvd _
  · conv_rhs => rw [f32Mag_normal h]
    exact (pow_dvd_pow 2 (by omega)).mul_left _

/-- Division by 2^`k` rounds the exact quotient to what a pattern can hold (R194). -/
theorem f32DivPow2_units {x : F32} {k : Nat} (hx : f32Finite x = true)
    (h : f32Mag x < 2 ^ (276 + k)) :
    f32Finite (f32DivPow2 x k) = true ∧
      f32Units (f32DivPow2 x k) * 2 ^ k = roundDrop (f32Drop (f32Mag x) k) (f32Units x) := by
  rw [f32DivPow2, if_pos hx]
  exact withSign_roundF32_value (f32Neg x) h

/-- Settles O58: the quotient is `roundDrop` of the dividend (`f32DivPow2_units`); a zero or a normal
quotient drops no bit that is set (`two_pow_dvd_f32Mag`). -/
theorem divisionRoundsOnce : Obligations.DivisionRoundsOnce := by
  intro x k hx hk
  obtain ⟨hfin, hunits⟩ := f32DivPow2_units hx (f32Mag_lt_of_finite hx hk)
  refine ⟨hfin, by rw [hunits]; exact roundDrop_error _ _, fun h => ?_⟩
  rw [hunits]
  apply roundDrop_of_dvd
  rw [f32Units_natAbs]
  rcases h with h0 | hnormal
  · rw [h0]
    exact dvd_zero _
  · have hlog : 23 + k ≤ Nat.log2 (f32Mag x) :=
      (Nat.le_log2 (by have := Nat.two_pow_pos (23 + k); omega)).2 hnormal
    rw [show f32Drop (f32Mag x) k = Nat.log2 (f32Mag x) + 1 - 24 by unfold f32Drop; omega]
    exact two_pow_dvd_f32Mag x

end Sys2Proof.Machine
end

section
/-!
PROOFS, family 44_mixing: the mixing view. Under every evaluation an output is a list of exact values
added two at a time, each sum rounded to 24 bits or more, and the result divided and rounded once
(`IsMean`). The bound, the distance from the mean and the exact case are said of that alone.
-/

namespace Sys2Proof.Machine

/-! ### Adding up a list of accumulators -/

/-- What holds of the list of accumulators whatever their order, and is kept by one rounded addition,
holds of the last one. -/
theorem mergeAll_induct {bits : Nat} {P : List Int → Prop}
    (hperm : ∀ {xs ys : List Int}, xs.Perm ys → P xs → P ys)
    (hstep : ∀ a b rest, P (a :: b :: rest) → P (roundBits bits (a + b) :: rest)) (n : Nat) :
    ∀ (ps : List (Nat × Nat)) (xs : List Int), xs.length = n + 1 → P xs →
      P [mergeAll bits n ps xs] := by
  induction n with
  | zero =>
    intro ps xs hlen h
    obtain ⟨x, rfl⟩ := List.length_eq_one_iff.1 hlen
    exact h
  | succ n ih =>
    intro ps xs hlen h
    obtain ⟨a, b, rest, hp, hmerge⟩ := mergeStep_perm bits (ps.headD (0, 0)) (xs := xs) (by omega)
    have hrest : rest.length = n := by
      have := hp.length_eq
      simp only [List.length_cons] at this
      omega
    refine ih ps.tail _ ?_ (hmerge ▸ hstep a b rest (hperm hp h))
    rw [hmerge, List.length_cons, hrest]

/-- The result of adding up a list, in some order, at some precision of 24 bits or more. -/
def IsSum (xs : List Int) (z : Int) : Prop :=
  ∃ bits ps, 24 ≤ bits ∧ z = mergeAll bits (xs.length - 1) ps xs

theorem IsSum.induct {xs : List Int} {z : Int} (h : IsSum xs z) (hne : xs ≠ []) {P : List Int → Prop}
    (hperm : ∀ {xs ys : List Int}, xs.Perm ys → P xs → P ys)
    (hstep : ∀ bits a b rest, 24 ≤ bits → P (a :: b :: rest) → P (roundBits bits (a + b) :: rest))
    (h0 : P xs) : P [z] := by
  obtain ⟨bits, ps, hbits, rfl⟩ := h
  have hlen := List.length_pos_of_ne_nil hne
  exact mergeAll_induct hperm (fun a b rest => hstep bits a b rest hbits) _ ps xs (by omega) h0

/-! ### The bound and the error of a sum -/

/-- A magnitude in multiples of 2^`t`, rounded up. -/
def weight (t : Nat) (z : Int) : Nat := z.natAbs ⌈/⌉ 2 ^ t

theorem weight_le_iff {t : Nat} {z : Int} {n : Nat} : weight t z ≤ n ↔ z.natAbs ≤ n * 2 ^ t := by
  rw [weight, ceilDiv_le_iff_le_mul (Nat.two_pow_pos t), Nat.mul_comm]

theorem natAbs_add_le_weight (t : Nat) (a b : Int) :
    (a + b).natAbs ≤ (weight t a + weight t b) * 2 ^ t := by
  rw [Nat.add_mul]
  exact (Int.natAbs_add_le a b).trans
    (Nat.add_le_add (weight_le_iff.1 (le_refl _)) (weight_le_iff.1 (le_refl _)))

/-- A rounded sum weighs no more than its summands. -/
theorem weight_roundBits_le {t bits : Nat} {a b : Int} (hbits : 24 ≤ bits)
    (h : weight t a + weight t b < 2 ^ 24) :
    weight t (roundBits bits (a + b)) ≤ weight t a + weight t b :=
  weight_le_iff.2 (roundBits_le (natAbs_add_le_weight t a b) h hbits)

/-- The weight of a whole list. -/
def totalWeight (t : Nat) (xs : List Int) : Nat := (xs.map (weight t)).sum

theorem totalWeight_perm {t : Nat} {xs ys : List Int} (h : xs.Perm ys) :
    totalWeight t xs = totalWeight t ys :=
  (h.map (weight t)).sum_eq

theorem totalWeight_cons (t : Nat) (x : Int) (xs : List Int) :
    totalWeight t (x :: xs) = weight t x + totalWeight t xs := by
  rw [totalWeight, List.map_cons, List.sum_cons, totalWeight]

theorem totalWeight_le_length {t : Nat} {xs : List Int} (h : ∀ x ∈ xs, weight t x ≤ 1) :
    totalWeight t xs ≤ xs.length := by
  induction xs with
  | nil => exact le_refl 0
  | cons x xs ih =>
    rw [totalWeight_cons, List.length_cons, Nat.add_comm]
    exact Nat.add_le_add (ih fun y hy => h y (by simp [hy])) (h x (by simp))

theorem totalWeight_merge_le {t bits : Nat} {a b : Int} {rest : List Int} {n : Nat}
    (hbits : 24 ≤ bits) (hn : n < 2 ^ 24) (h : totalWeight t (a :: b :: rest) ≤ n) :
    totalWeight t (roundBits bits (a + b) :: rest) ≤ n := by
  rw [totalWeight_cons, totalWeight_cons, ← Nat.add_assoc] at h
  rw [totalWeight_cons]
  have hab : weight t a + weight t b < 2 ^ 24 := lt_of_le_of_lt (le_of_add_le_left h) hn
  exact (Nat.add_le_add_right (weight_roundBits_le hbits hab) _).trans h

/-- A sum of entries that weigh at most `n` has magnitude at most `n`. -/
theorem IsSum.natAbs_le {xs : List Int} {z : Int} (h : IsSum xs z) (hne : xs ≠ []) {t n : Nat}
    (hn : n < 2 ^ 24) (hw : totalWeight t xs ≤ n) : z.natAbs ≤ n * 2 ^ t := by
  have hz : totalWeight t [z] ≤ n :=
    h.induct hne (P := fun ys => totalWeight t ys ≤ n) (fun hp hle => totalWeight_perm hp ▸ hle)
      (fun _ _ _ _ hbits hle => totalWeight_merge_le hbits hn hle) hw
  rw [totalWeight_cons] at hz
  exact weight_le_iff.1 (le_of_add_le_left hz)

/-- What is known of the accumulators on the way: they weigh at most 2^`k`, and each addition made has
moved their sum away from the exact one by at most half a unit in the last place of 2^(`t`+`k`). -/
def NearSum (t k : Nat) (xs ys : List Int) : Prop :=
  totalWeight t ys ≤ 2 ^ k ∧ ys.length ≤ xs.length ∧
    (ys.sum - xs.sum).natAbs ≤ (xs.length - ys.length) * 2 ^ (t + k - 24)

theorem NearSum.merge {t k bits : Nat} (hk : k < 24) (ht : 24 ≤ t) (hbits : 24 ≤ bits)
    {xs rest : List Int} {a b : Int} (h : NearSum t k xs (a :: b :: rest)) :
    NearSum t k xs (roundBits bits (a + b) :: rest) := by
  obtain ⟨hw, hlen, herr⟩ := h
  have hpow : (2 : Nat) ^ k < 2 ^ 24 := Nat.pow_lt_pow_right (by decide) hk
  have hmag : (a + b).natAbs ≤ 2 ^ (t + k) := by
    have hab : weight t a + weight t b ≤ 2 ^ k := by
      rw [totalWeight_cons, totalWeight_cons, ← Nat.add_assoc] at hw
      exact le_of_add_le_left hw
    rw [pow_add, Nat.mul_comm]
    exact (natAbs_add_le_weight t a b).trans (Nat.mul_le_mul_right _ hab)
  have hround := roundBits_error hmag hbits (by omega)
  simp only [List.length_cons, List.sum_cons] at hlen herr
  refine ⟨totalWeight_merge_le hbits hpow hw, by simp only [List.length_cons]; omega, ?_⟩
  have hsplit : xs.length - (rest.length + 1) = xs.length - (rest.length + 1 + 1) + 1 := by omega
  simp only [List.length_cons, List.sum_cons]
  rw [hsplit, Nat.add_mul, Nat.one_mul]
  omega

/-- A sum of n entries is off by at most n - 1 half units (R194). -/
theorem IsSum.error {xs : List Int} {z : Int} (h : IsSum xs z) (hne : xs ≠ []) {t k : Nat}
    (hk : k < 24) (ht : 24 ≤ t) (hw : totalWeight t xs ≤ 2 ^ k) :
    (z - xs.sum).natAbs ≤ (xs.length - 1) * 2 ^ (t + k - 24) := by
  have hz : NearSum t k xs [z] :=
    h.induct hne
      (fun hp ⟨hw', hlen, herr⟩ => ⟨totalWeight_perm hp ▸ hw', hp.length_eq ▸ hlen,
        hp.length_eq ▸ hp.sum_eq ▸ herr⟩)
      (fun _ _ _ _ hbits hnear => hnear.merge hk ht hbits) ⟨hw, le_refl _, by simp⟩
  obtain ⟨-, -, herr⟩ := hz
  simpa using herr

/-! ### Sums that are not rounded -/

/-- Accumulators no addition can round: multiples of 2^`m` whose magnitudes leave 24 bits. -/
def Unrounded (m : Nat) (xs : List Int) : Prop :=
  (∀ x ∈ xs, ((2 ^ m : Nat) : Int) ∣ x) ∧ (xs.map Int.natAbs).sum < 2 ^ (m + 24)

theorem Unrounded.merge {m bits : Nat} (hbits : 24 ≤ bits) {a b : Int} {rest : List Int}
    (h : Unrounded m (a :: b :: rest)) :
    roundBits bits (a + b) = a + b ∧ Unrounded m (roundBits bits (a + b) :: rest) := by
  obtain ⟨hdvd, hsum⟩ := h
  have hab : ((2 ^ m : Nat) : Int) ∣ a + b := dvd_add (hdvd a (by simp)) (hdvd b (by simp))
  have hle := Int.natAbs_add_le a b
  simp only [List.map_cons, List.sum_cons] at hsum
  have hexact := roundBits_exact hab (by omega) hbits
  refine ⟨hexact, fun x hx => ?_, ?_⟩
  · rcases List.mem_cons.1 hx with rfl | hx
    · rwa [hexact]
    · exact hdvd x (by simp [hx])
  · simp only [List.map_cons, List.sum_cons, hexact]
    omega

theorem IsSum.exact {xs : List Int} {z : Int} (h : IsSum xs z) (hne : xs ≠ []) {m : Nat}
    (hx : Unrounded m xs) : z = xs.sum ∧ Unrounded m [z] := by
  have hz : [z].sum = xs.sum ∧ Unrounded m [z] :=
    h.induct hne (P := fun ys => ys.sum = xs.sum ∧ Unrounded m ys)
      (fun hp ⟨hsum, hdvd, hlt⟩ => ⟨hp.sum_eq ▸ hsum, fun x hx => hdvd x (hp.mem_iff.2 hx),
        (hp.map Int.natAbs).sum_eq ▸ hlt⟩)
      (fun _ _ _ _ hbits ⟨hsum, hun⟩ => by
        obtain ⟨hexact, hmerge⟩ := hun.merge hbits
        exact ⟨by rw [List.sum_cons, hexact, Int.add_assoc]; simpa using hsum, hmerge⟩)
      ⟨rfl, hx⟩
  simpa using hz

/-! ### An output -/

/-- The value is 1.0 at most exactly where it is finite and its magnitude is. -/
theorem f32AtMostOne_iff (x : F32) :
    f32AtMostOne x ↔ f32Finite x = true ∧ f32Mag x ≤ 2 ^ 149 := by
  obtain ⟨hexp, hfrac, -⟩ := f32_fields x
  have hlt := f32Frac_lt x
  have hpat : x.toNat % 2 ^ 31 = f32Exp x * 2 ^ 23 + f32Frac x := by omega
  rw [f32AtMostOne, hpat, f32Finite, bne_iff_ne]
  constructor
  · intro hle
    refine ⟨by omega, ?_⟩
    rcases (by omega : f32Exp x ≤ 126 ∨ f32Exp x = 127 ∧ f32Frac x = 0) with h | ⟨h, h0⟩
    · exact (f32Mag_lt x).le.trans (Nat.pow_le_pow_right (by decide) (by omega))
    · rw [f32Mag_normal (by omega), h, h0]
      norm_num
  · rintro ⟨-, hmag⟩
    by_contra hgt
    rw [f32Mag_normal (by omega)] at hmag
    rcases (by omega : f32Exp x = 127 ∧ 1 ≤ f32Frac x ∨ 128 ≤ f32Exp x) with ⟨h, h1⟩ | h
    · rw [h] at hmag
      norm_num at hmag
      omega
    · have hpow : 2 ^ 127 ≤ 2 ^ (f32Exp x - 1) := Nat.pow_le_pow_right (by decide) (by omega)
      have := Nat.mul_le_mul (by omega : 2 ^ 23 ≤ 2 ^ 23 + f32Frac x) hpow
      omega

theorem weight_f32Units_le {x : F32} (h : f32AtMostOne x) : weight 149 (f32Units x) ≤ 1 := by
  obtain ⟨-, hmag⟩ := (f32AtMostOne_iff x).1 h
  rw [weight_le_iff, f32Units_natAbs, Nat.one_mul]
  exact hmag

/-- An output is a sum of `xs`, divided by 2^`k` and rounded once more. -/
def IsMean (xs : List Int) (k : Nat) (out : F32) : Prop :=
  ∃ z, IsSum xs z ∧ f32Finite out = true ∧
    f32Units out * 2 ^ k = roundDrop (f32Drop z.natAbs k) z

section
variable {xs : List Int} {k : Nat} {out : F32} (h : IsMean xs k out) (hne : xs ≠ [])
include h hne

/-- Of 2^`k` entries of at most 1.0 the mean is at most 1.0 (R12). -/
theorem IsMean.atMostOne (hk : k < 24) (hw : totalWeight 149 xs ≤ 2 ^ k) : f32AtMostOne out := by
  obtain ⟨z, hsum, hfin, hunits⟩ := h
  have hz := hsum.natAbs_le hne (Nat.pow_lt_pow_right (by decide) hk) hw
  rw [← pow_add] at hz
  have hdrop : f32Drop z.natAbs k ≤ k + 149 :=
    (f32Drop_le (b := k + 149 + 1) (lt_of_le_of_lt hz (Nat.pow_lt_pow_right (by decide) (by omega)))
      (by omega)).trans (by omega)
  have hsplit : 2 ^ (k + 149) = 2 ^ (k + 149 - f32Drop z.natAbs k) * 2 ^ f32Drop z.natAbs k := by
    rw [← pow_add, Nat.sub_add_cancel hdrop]
  have hround := roundDrop_natAbs_le (hz.trans (le_of_eq hsplit))
  rw [← hsplit, ← hunits, Int.natAbs_mul, f32Units_natAbs, Int.natAbs_pow, Nat.add_comm, pow_add]
    at hround
  exact (f32AtMostOne_iff out).2 ⟨hfin, Nat.le_of_mul_le_mul_right hround (Nat.two_pow_pos k)⟩

/-- The mean of n values is off by the half units of n - 1 additions and of the division (R194). -/
theorem IsMean.error (hk : k < 24) (hw : totalWeight 149 xs ≤ 2 ^ k) :
    (2 ^ k * f32Units out - xs.sum).natAbs ≤ xs.length * 2 ^ (125 + k) := by
  obtain ⟨z, hsum, -, hunits⟩ := h
  have hz := hsum.natAbs_le hne (Nat.pow_lt_pow_right (by decide) hk) hw
  rw [← pow_add] at hz
  have herr := hsum.error hne hk (t := 149) (by decide) hw
  rw [show 149 + k - 24 = 125 + k by omega] at herr
  have hdrop : f32Drop z.natAbs k ≤ 125 + k + 1 :=
    (f32Drop_le (b := k + 149 + 1) (lt_of_le_of_lt hz (Nat.pow_lt_pow_right (by decide) (by omega)))
      (by omega)).trans (by omega)
  have hround := (roundDrop_error (f32Drop z.natAbs k) z).trans
    (Nat.pow_le_pow_right (by decide) hdrop)
  rw [pow_succ] at hround
  have hlen : xs.length = xs.length - 1 + 1 := by
    have := List.length_pos_of_ne_nil hne
    omega
  rw [Int.mul_comm, hunits, hlen, Nat.add_mul, Nat.one_mul]
  generalize 2 ^ (125 + k) = e at *
  omega

/-- Where no addition can round, the division cannot either: it drops at most `m` bits. -/
theorem IsMean.exact {m : Nat} (hkm : k ≤ m) (hx : Unrounded m xs) :
    2 ^ k * f32Units out = xs.sum := by
  obtain ⟨z, hsum, -, hunits⟩ := h
  obtain ⟨hz, hdvd, hlt⟩ := hsum.exact hne hx
  have hdrop : f32Drop z.natAbs k ≤ m :=
    (f32Drop_le (b := m + 24) (by simpa using hlt) (by omega)).trans (by omega)
  rw [Int.mul_comm, hunits, ← hz]
  exact roundDrop_of_dvd ((pow_dvd_pow 2 hdrop).trans (Int.natCast_dvd.1 (hdvd z (by simp))))

end

/-! ### What is added up -/

/-- The entries of an array, with or without the 0 a sum begins at. -/
def Summands (xs : List F32) (ys : List Int) : Prop :=
  ys = xs.map f32Units ∨ ys = 0 :: xs.map f32Units

section
variable {xs : List F32} {ys : List Int} (h : Summands xs ys)
include h

theorem Summands.sum : ys.sum = unitsSum xs := by
  rcases h with rfl | rfl
  · rfl
  · exact Int.zero_add _

theorem Summands.length_le : ys.length ≤ xs.length + 1 := by
  rcases h with rfl | rfl <;> simp

theorem Summands.ne_nil (hne : xs ≠ []) : ys ≠ [] := by
  rcases h with rfl | rfl <;> simp [hne]

theorem Summands.totalWeight_le (hx : ∀ x ∈ xs, f32AtMostOne x) :
    totalWeight 149 ys ≤ xs.length := by
  have hentries : totalWeight 149 (xs.map f32Units) ≤ xs.length := by
    refine (totalWeight_le_length fun z hz => ?_).trans_eq (List.length_map _)
    obtain ⟨x, hmem, rfl⟩ := List.mem_map.1 hz
    exact weight_f32Units_le (hx x hmem)
  rcases h with rfl | rfl
  · exact hentries
  · rw [totalWeight_cons, Nat.le_zero.1 (weight_le_iff.2 (Nat.zero_le _)), Nat.zero_add]
    exact hentries

theorem Summands.unrounded {m : Nat} (hx : exactSum m xs) : Unrounded m ys := by
  obtain ⟨hdvd, hlt⟩ := hx
  have habs : (xs.map f32Units).map Int.natAbs = xs.map f32Mag := by
    simp [f32Units_natAbs, Function.comp_def]
  have hentries : Unrounded m (xs.map f32Units) := by
    refine ⟨fun z hz => ?_, habs ▸ hlt⟩
    obtain ⟨x, hmem, rfl⟩ := List.mem_map.1 hz
    exact hdvd x hmem
  rcases h with rfl | rfl
  · exact hentries
  · obtain ⟨hdvd', hlt'⟩ := hentries
    refine ⟨fun z hz => ?_, by simpa using hlt'⟩
    rcases List.mem_cons.1 hz with rfl | hz
    · exact dvd_zero _
    · exact hdvd' z hz

end

/-! ### The evaluations -/

/-- Sums of fewer than 2^24 values of at most 1.0 overflow nowhere (R12). -/
theorem lt_overflow {m n : Nat} (hn : n < 2 ^ 24) (h : m ≤ n * 2 ^ 149) (shift : Nat) :
    m < 2 ^ (276 + shift) := by
  have hlt : m < 2 ^ (24 + 149) := by
    rw [pow_add]
    exact lt_of_le_of_lt h (Nat.mul_lt_mul_of_pos_right hn (Nat.two_pow_pos 149))
  exact hlt.trans (Nat.pow_lt_pow_right (by decide) (by omega))

theorem f32Drop_zero_shift (m : Nat) : f32Drop m 0 = Nat.log2 m + 1 - 24 := Nat.zero_max _

/-- A binary32 addition of values below 2^172 is one of a 24-bit accumulator. -/
theorem f32Add_units_roundBits {x y : F32} {n : Nat} (hx : f32Finite x = true)
    (hy : f32Finite y = true) (hn : n < 2 ^ 24)
    (h : (f32Units x + f32Units y).natAbs ≤ n * 2 ^ 149) :
    f32Finite (f32Add x y) = true ∧
      f32Units (f32Add x y) = roundBits 24 (f32Units x + f32Units y) := by
  have hadd := f32Add_units hx hy (lt_overflow hn h 0)
  rwa [f32Drop_zero_shift, ← roundBits_eq_roundDrop] at hadd

/-- R194's own sum is that of a 24-bit accumulator, addition by addition. -/
theorem foldl_f32Add_units (xs : List F32) :
    ∀ (acc : F32) (n : Nat), f32Finite acc = true → (f32Units acc).natAbs ≤ n * 2 ^ 149 →
      (∀ x ∈ xs, f32AtMostOne x) → n + xs.length < 2 ^ 24 →
      f32Finite (xs.foldl f32Add acc) = true ∧
        f32Units (xs.foldl f32Add acc) =
          (xs.map f32Units).foldl (fun s x => roundBits 24 (s + x)) (f32Units acc) := by
  induction xs with
  | nil => exact fun acc n hacc _ _ _ => ⟨hacc, rfl⟩
  | cons x xs ih =>
    intro acc n hacc hn hx hlen
    obtain ⟨hfin, hmag⟩ := (f32AtMostOne_iff x).1 (hx x (by simp))
    rw [List.length_cons] at hlen
    have hsum : (f32Units acc + f32Units x).natAbs ≤ (n + 1) * 2 ^ 149 := by
      rw [Nat.add_mul, Nat.one_mul]
      exact (Int.natAbs_add_le _ _).trans (Nat.add_le_add hn (by rwa [f32Units_natAbs]))
    obtain ⟨hfin', hunits⟩ := f32Add_units_roundBits hacc hfin (by omega) hsum
    have hround : (f32Units (f32Add acc x)).natAbs ≤ (n + 1) * 2 ^ 149 := by
      rw [hunits]
      exact roundBits_le hsum (by omega) (le_refl 24)
    have hrest := ih (f32Add acc x) (n + 1) hfin' hround
      (fun y hy => hx y (by simp [hy])) (by omega)
    rw [hunits] at hrest
    exact hrest

/-- The sum of R194's own evaluation begins at +0.0. -/
theorem sumF32_isSum {xs : List F32} (hx : ∀ x ∈ xs, f32AtMostOne x) (hlen : xs.length < 2 ^ 24) :
    f32Finite (xs.foldl f32Add 0) = true ∧
      IsSum (0 :: xs.map f32Units) (f32Units (xs.foldl f32Add 0)) := by
  obtain ⟨hfin, hunits⟩ := foldl_f32Add_units xs 0 0 rfl (by decide) hx (by omega)
  refine ⟨hfin, 24, [], le_refl 24, ?_⟩
  rw [hunits, List.length_cons, Nat.add_sub_cancel, mergeAll_front]
  rfl

/-- Under every evaluation the mean of 2^`k` entries is one of `IsMean` (R190, R191, R194). -/
theorem mixMean_isMean (c : Config) {xs : List F32} {k : Nat} (hk : k < 24)
    (hlen : xs.length = 2 ^ k) (hx : ∀ x ∈ xs, f32AtMostOne x) :
    ∃ ys, Summands xs ys ∧ IsMean ys k (mixMean c xs) := by
  have hlt : 2 ^ k < 2 ^ 24 := Nat.pow_lt_pow_right (by decide) hk
  have hne : xs ≠ [] := by
    rintro rfl
    exact absurd hlen (Nat.two_pow_pos k).ne
  have hbound : ∀ {ys z}, Summands xs ys → IsSum ys z → z.natAbs < 2 ^ (276 + k) :=
    fun hys hz =>
      lt_overflow hlt (hz.natAbs_le (hys.ne_nil hne) hlt (hlen ▸ hys.totalWeight_le hx)) k
  cases hmix : c.mixing with
  | indexOrder =>
    obtain ⟨hfin, hsum⟩ := sumF32_isSum hx (hlen ▸ hlt)
    have hys : Summands xs (0 :: xs.map f32Units) := Or.inr rfl
    have hmag := hbound hys hsum
    rw [f32Units_natAbs] at hmag
    obtain ⟨hfin', hunits⟩ := f32DivPow2_units hfin hmag
    rw [mixMean_indexOrder hmix, meanF32_of_length hlen]
    exact ⟨_, hys, _, hsum, hfin', by rw [hunits, f32Units_natAbs]⟩
  | other ps extra =>
    have hsum : IsSum (xs.map f32Units) (otherSum ps (24 + extra) xs) :=
      ⟨24 + extra, ps, by omega, by rw [otherSum, List.length_map]⟩
    have hys : Summands xs (xs.map f32Units) := Or.inl rfl
    have hall : xs.all f32Finite = true :=
      List.all_eq_true.2 fun x hmem => ((f32AtMostOne_iff x).1 (hx x hmem)).1
    obtain ⟨hfin, hunits⟩ := f32OfUnits_units (hbound hys hsum)
    rw [mixMean_other hmix, otherMean, if_pos hall, hlen, Nat.log2_two_pow]
    exact ⟨_, hys, _, hsum, hfin, hunits⟩

/-- Under every evaluation the half sum is one of `IsMean` (R192, R194). -/
theorem mixHalf_isMean (c : Config) {l r : F32} (hl : f32AtMostOne l) (hr : f32AtMostOne r) :
    IsMean [f32Units l, f32Units r] 1 (mixHalf c l r) := by
  obtain ⟨hlfin, hlmag⟩ := (f32AtMostOne_iff l).1 hl
  obtain ⟨hrfin, hrmag⟩ := (f32AtMostOne_iff r).1 hr
  have hadd : (f32Units l + f32Units r).natAbs ≤ 2 * 2 ^ 149 := by
    rw [Nat.two_mul]
    exact (Int.natAbs_add_le _ _).trans
      (Nat.add_le_add (by rwa [f32Units_natAbs]) (by rwa [f32Units_natAbs]))
  have hsum : ∀ bits, 24 ≤ bits →
      IsSum [f32Units l, f32Units r] (roundBits bits (f32Units l + f32Units r)) := fun bits hbits =>
    ⟨bits, [], hbits, by
      show _ = (mergeStep bits (0, 0) [f32Units l, f32Units r]).headD 0
      rw [mergeStep_front, List.headD_cons]⟩
  have hbound : ∀ bits, 24 ≤ bits →
      (roundBits bits (f32Units l + f32Units r)).natAbs < 2 ^ (276 + 1) := fun bits hbits =>
    lt_overflow (by decide) (roundBits_le hadd (by decide) hbits) 1
  cases hmix : c.mixing with
  | indexOrder =>
    obtain ⟨hfin, hunits⟩ := f32Add_units_roundBits hlfin hrfin (by decide) hadd
    have hmag := hbound 24 (le_refl 24)
    rw [← hunits, f32Units_natAbs] at hmag
    obtain ⟨hfin', hunits'⟩ := f32DivPow2_units hfin hmag
    rw [mixHalf_indexOrder hmix]
    exact ⟨_, hunits ▸ hsum 24 (le_refl 24), hfin', by rw [hunits', f32Units_natAbs]⟩
  | other ps extra =>
    have hboth : (f32Finite l && f32Finite r) = true := by rw [hlfin, hrfin]; rfl
    obtain ⟨hfin, hunits⟩ := f32OfUnits_units (hbound (24 + extra) (by omega))
    rw [mixHalf_other hmix, otherHalf, if_pos hboth]
    exact ⟨_, hsum (24 + extra) (by omega), hfin, hunits⟩

/-! ### The three outputs -/

/-- The mean of an array of the block, which has 4 or 8 entries. -/
theorem mixMean_spec (c : Config) {xs : List F32} {k : Nat} (hk : k ≤ 3) (hlen : xs.length = 2 ^ k)
    (hx : ∀ x ∈ xs, f32AtMostOne x) :
    f32AtMostOne (mixMean c xs) ∧
      (2 ^ k * f32Units (mixMean c xs) - unitsSum xs).natAbs ≤ (2 ^ k + 1) * 2 ^ 128 ∧
      ∀ m, 3 ≤ m → exactSum m xs → 2 ^ k * f32Units (mixMean c xs) = unitsSum xs := by
  have hne : xs ≠ [] := by
    rintro rfl
    exact absurd hlen (Nat.two_pow_pos k).ne
  obtain ⟨ys, hys, hmean⟩ := mixMean_isMean c (by omega) hlen hx
  have hys0 := hys.ne_nil hne
  have hw : totalWeight 149 ys ≤ 2 ^ k := hlen ▸ hys.totalWeight_le hx
  refine ⟨hmean.atMostOne hys0 (by omega) hw, ?_, fun m hm hexact => ?_⟩
  · rw [← hys.sum]
    exact (hmean.error hys0 (by omega) hw).trans
      (Nat.mul_le_mul (hlen ▸ hys.length_le) (Nat.pow_le_pow_right (by decide) (by omega)))
  · rw [← hys.sum]
    exact hmean.exact hys0 (by omega) (hys.unrounded hexact)

/-- The half sum of two outputs. -/
theorem mixHalf_spec (c : Config) {l r : F32} (hl : f32AtMostOne l) (hr : f32AtMostOne r) :
    f32AtMostOne (mixHalf c l r) ∧
      (2 * f32Units (mixHalf c l r) - (f32Units l + f32Units r)).natAbs ≤ 2 ^ 127 ∧
      ∀ m, 3 ≤ m → exactSum m [l, r] → 2 * f32Units (mixHalf c l r) = f32Units l + f32Units r := by
  have hmean := mixHalf_isMean c hl hr
  have hne : [f32Units l, f32Units r] ≠ [] := List.cons_ne_nil _ _
  have hys : Summands [l, r] [f32Units l, f32Units r] := Or.inl rfl
  have hw : totalWeight 149 [f32Units l, f32Units r] ≤ 2 ^ 1 :=
    hys.totalWeight_le (by simpa using ⟨hl, hr⟩)
  have hsum : [f32Units l, f32Units r].sum = f32Units l + f32Units r := by simp
  refine ⟨hmean.atMostOne hne (by decide) hw, ?_, fun m hm hexact => ?_⟩
  · have herr := hmean.error hne (by decide) hw
    rw [hsum, pow_one] at herr
    exact herr.trans (by norm_num)
  · have heq := hmean.exact hne (by omega : 1 ≤ m) (hys.unrounded hexact)
    rwa [hsum, pow_one] at heq

theorem four_mul_chipCount (c : Config) : 4 * c.chipCount = 2 ^ (if c.dual then 3 else 2) := by
  unfold Config.chipCount
  split <;> rfl

/-- Settles O60: R194's own evaluation by definition (`meanF32_of_length`), and every evaluation by
`mixMean_spec` and `mixHalf_spec`. -/
theorem mixedOutputsAreMeans : Obligations.MixedOutputsAreMeans := by
  intro s
  have hn := four_mul_chipCount s.cfg
  have hl := (leftChannels_length s).trans hn
  have hr := (rightChannels_length s).trans hn
  have hn' : ((4 * s.cfg.chipCount : Nat) : Int) = 2 ^ (if s.cfg.dual then 3 else 2) := by
    rw [hn]
    push_cast
    rfl
  have hk : (if s.cfg.dual then 3 else 2) ≤ 3 := by split <;> decide
  dsimp only
  rw [hn', hn]
  generalize (if s.cfg.dual then 3 else 2) = k at *
  refine ⟨fun hmix => ⟨?_, ?_, mixHalf_indexOrder hmix _ _⟩, fun hx => ?_⟩
  · exact (mixMean_indexOrder hmix _).trans (meanF32_of_length hl)
  · exact (mixMean_indexOrder hmix _).trans (meanF32_of_length hr)
  · obtain ⟨hleft, hright⟩ := List.forall_mem_append.1 hx
    obtain ⟨hl1, hlerr, hlexact⟩ := mixMean_spec s.cfg hk hl hleft
    obtain ⟨hr1, hrerr, hrexact⟩ := mixMean_spec s.cfg hk hr hright
    obtain ⟨-, hmerr, hmexact⟩ := mixHalf_spec s.cfg hl1 hr1
    exact ⟨⟨hlerr, hrerr, hmerr⟩, fun m hm => ⟨hlexact m hm, hrexact m hm, hmexact m hm⟩⟩

/-! ### Zeros -/

theorem f32Units_of_isZero {x : F32} (h : x.toNat % 2 ^ 31 = 0) :
    f32Finite x = true ∧ f32Units x = 0 := by
  obtain ⟨hexp, hfrac, -⟩ := f32_fields x
  have hexp0 : f32Exp x = 0 := by omega
  have hmag : f32Mag x = 0 := by rw [f32Mag_subnormal hexp0]; omega
  refine ⟨by rw [f32Finite, hexp0]; rfl, ?_⟩
  rw [← Int.natAbs_eq_zero, f32Units_natAbs, hmag]

theorem roundF32_zero (k : Nat) : roundF32 0 k = 0 := by
  have hdrop : f32Drop 0 k = k := Nat.max_eq_left (by simp)
  have hround : roundEven 0 k = 0 := Nat.le_zero.1 (roundEven_le (by simp))
  simp [roundF32, hdrop, hround]

theorem f32OfUnits_zero (k : Nat) : f32OfUnits 0 k = 0 := by
  rw [f32OfUnits, Int.natAbs_zero, roundF32_zero]
  rfl

theorem f32DivPow2_zero (k : Nat) : f32DivPow2 0 k = 0 := by
  have hfin : f32Finite 0 = true := rfl
  have hmag : f32Mag 0 = 0 := rfl
  rw [f32DivPow2, if_pos hfin, hmag, roundF32_zero]
  rfl

/-- The sum of +0.0 and a zero of either sign is +0.0 (R12). -/
theorem f32Add_zero {x : F32} (h : x.toNat % 2 ^ 31 = 0) : f32Add 0 x = 0 := by
  obtain ⟨hfin, hunits⟩ := f32Units_of_isZero h
  have hzero : f32Finite 0 = true ∧ f32Units 0 = 0 ∧ f32Neg 0 = false := ⟨rfl, rfl, rfl⟩
  simp only [f32Add, hfin, hunits, hzero, Bool.and_self, if_true, Int.add_zero, Bool.false_and]
  rfl

theorem foldl_f32Add_zero {xs : List F32} (h : ∀ x ∈ xs, x.toNat % 2 ^ 31 = 0) :
    xs.foldl f32Add 0 = 0 := by
  induction xs with
  | nil => rfl
  | cons x xs ih =>
    rw [List.foldl_cons, f32Add_zero (h x (by simp))]
    exact ih fun y hy => h y (by simp [hy])

/-- The mean of zeros of either sign is +0.0 under every evaluation (log 12 for the other ones). -/
theorem mixMean_zero (c : Config) {xs : List F32} {k : Nat} (hlen : xs.length = 2 ^ k)
    (h : ∀ x ∈ xs, x.toNat % 2 ^ 31 = 0) : mixMean c xs = 0 := by
  cases hmix : c.mixing with
  | indexOrder =>
    rw [mixMean_indexOrder hmix, meanF32_of_length hlen, foldl_f32Add_zero h, f32DivPow2_zero]
  | other ps extra =>
    have hall : xs.all f32Finite = true :=
      List.all_eq_true.2 fun x hx => (f32Units_of_isZero (h x hx)).1
    have hne : xs.map f32Units ≠ [] := by
      intro hnil
      rw [List.map_eq_nil_iff.1 hnil] at hlen
      exact absurd hlen (Nat.two_pow_pos k).ne
    have hzeros : xs.map f32Units = List.replicate xs.length 0 :=
      List.eq_replicate_iff.2 ⟨by simp, fun z hz => by
        obtain ⟨x, hx, rfl⟩ := List.mem_map.1 hz
        exact (f32Units_of_isZero (h x hx)).2⟩
    have hun : Unrounded 0 (xs.map f32Units) := by
      rw [hzeros]
      exact ⟨fun z hz => by rw [List.eq_of_mem_replicate hz]; exact dvd_zero _, by simp⟩
    have hsum : IsSum (xs.map f32Units) (otherSum ps (24 + extra) xs) :=
      ⟨24 + extra, ps, by omega, by rw [otherSum, List.length_map]⟩
    rw [mixMean_other hmix, otherMean, if_pos hall, (hsum.exact hne hun).1, hzeros]
    simp [f32OfUnits_zero]

theorem mixHalf_zero (c : Config) : mixHalf c 0 0 = 0 := by
  cases hmix : c.mixing with
  | indexOrder => rw [mixHalf_indexOrder hmix, f32Add_zero rfl, f32DivPow2_zero]
  | other ps extra =>
    have hfin : (f32Finite 0 && f32Finite 0) = true := rfl
    have hround : roundBits (24 + extra) (f32Units 0 + f32Units 0) = 0 :=
      roundDrop_of_dvd (dvd_zero _)
    rw [mixHalf_other hmix, otherHalf, if_pos hfin, hround, f32OfUnits_zero]

/-- Settles O59: the bounds of `mixMean_spec` and `mixHalf_spec`, and the zeros of `mixMean_zero`. -/
theorem outputsBounded : Obligations.OutputsBounded := by
  intro s hx
  have hn := four_mul_chipCount s.cfg
  have hl := (leftChannels_length s).trans hn
  have hr := (rightChannels_length s).trans hn
  have hk : (if s.cfg.dual then 3 else 2) ≤ 3 := by split <;> decide
  obtain ⟨hleft, hright⟩ := List.forall_mem_append.1 hx
  obtain ⟨hl1, -⟩ := mixMean_spec s.cfg hk hl hleft
  obtain ⟨hr1, -⟩ := mixMean_spec s.cfg hk hr hright
  refine ⟨⟨hl1, hr1, (mixHalf_spec s.cfg hl1 hr1).1⟩, fun hz => ?_⟩
  obtain ⟨hzl, hzr⟩ := List.forall_mem_append.1 hz
  have hl0 : leftOutput s = 0 := mixMean_zero s.cfg hl hzl
  have hr0 : rightOutput s = 0 := mixMean_zero s.cfg hr hzr
  exact ⟨hl0, hr0, by rw [monoOutput, hl0, hr0, mixHalf_zero]⟩

end Sys2Proof.Machine
end
